-- ==== Sys2Proof/Word.lean ====
section
/-! DEFINITION. The word types of the engine (00_scope.md R9) and the pair type `Cx` of R11. -/

namespace Sys2Proof

/-- A word: 32 bits, bit 31 the most significant (R9). -/
abbrev Word := BitVec 32

/-- A byte of the recording space `REC` (R61). -/
abbrev Byte := BitVec 8

/-- `Cx`: a pair of numbers, real part and imaginary part (R11). -/
structure Cx (ν : Type) where
  re : ν
  im : ν
  deriving DecidableEq, Repr

end Sys2Proof
end

