-- ==== Sys2Proof/Syntax.lean ====
section
/-! DEFINITION. The abstract syntax of the fourteen commands: one constructor per row of the opcode map
(30_encoding.md R93), the operands as the names R94 gives them, and the six formats of R92. -/

namespace Sys2Proof

/-- The four complex vector registers `V0 .. V3` (R40), selected by number in a 2-bit field (R94). -/
inductive VReg where
  | v0 | v1 | v2 | v3
  deriving DecidableEq, Repr

/-- The channel selected by the field `CH`: `ch0` the reference, `ch1` the captured signal (R91, R43). -/
inductive Channel where
  | ch0 | ch1
  deriving DecidableEq, Repr

/-- The commands of R93. Operands stand in the assembler's order: destination, then sources (R97). -/
inductive Instr where
  /-- R210. -/
  | nop
  /-- R161. -/
  | ldblk (vd : VReg) (ch : Channel)
  /-- R122. -/
  | fft (vd va : VReg)
  /-- R123. -/
  | ifft (vd va : VReg)
  /-- R142. -/
  | sweep (vd : VReg)
  /-- R143. -/
  | mirror (vd : VReg)
  /-- R171. -/
  | cdiv (vd va vb : VReg)
  /-- R185. -/
  | aclr
  /-- R186. -/
  | accr (va : VReg)
  /-- R187. -/
  | avg
  /-- R144. -/
  | realp (va : VReg)
  /-- R200. -/
  | peak
  /-- R211. -/
  | synth
  /-- R212. -/
  | estimate
  deriving DecidableEq, Repr

/-- The formats of R92: which of the fields `VD`, `VA`, `VB`, `CH` a command uses. -/
inductive Format where
  | z | d | a | da | dc | dab
  deriving DecidableEq, Repr

/-- The format each command has (R93). -/
def Instr.format : Instr → Format
  | .nop => .z
  | .ldblk _ _ => .dc
  | .fft _ _ => .da
  | .ifft _ _ => .da
  | .sweep _ => .d
  | .mirror _ => .d
  | .cdiv _ _ _ => .dab
  | .aclr => .z
  | .accr _ => .a
  | .avg => .z
  | .realp _ => .a
  | .peak => .z
  | .synth => .z
  | .estimate => .z

end Sys2Proof
end

