-- ==== Sys2Proof/WellFormed.lean ====
section
/-! DEFINITION. Which command words are legal, in the words of 30_encoding.md R95: a defined opcode and a zero in every
bit that the command's format does not use. (`Instr` itself is well formed by its types: a register operand is one of four
names and a channel one of two, so the checks are on words. `Decode.lean` gives R96's procedure; that the two agree is an
obligation.) -/

namespace Sys2Proof.WellFormed

/-- `w[31:15]` must be 0 in every format (R91, R95). -/
def highBitsClear (w : Word) : Bool := w.extractLsb 31 15 == 0#17

/-- The field `VD` is 0 (asked of a format that does not use it, R95). -/
def vdClear (w : Word) : Bool := w.extractLsb 9 8 == 0#2

/-- The field `VA` is 0 (asked of a format that does not use it, R95). -/
def vaClear (w : Word) : Bool := w.extractLsb 11 10 == 0#2

/-- The field `VB` is 0 (asked of a format that does not use it, R95). -/
def vbClear (w : Word) : Bool := w.extractLsb 13 12 == 0#2

/-- The field `CH` is 0 (asked of a format that does not use it, R95). -/
def chClear (w : Word) : Bool := w.extractLsb 14 14 == 0#1

/-- Every field that format `f` does not use is 0 (R92, R95). -/
def unusedFieldsClear (f : Format) (w : Word) : Bool :=
  match f with
  | .z => vdClear w && vaClear w && vbClear w && chClear w
  | .d => vaClear w && vbClear w && chClear w
  | .a => vdClear w && vbClear w && chClear w
  | .da => vbClear w && chClear w
  | .dc => vaClear w && vbClear w
  | .dab => chClear w

/-- The format of the command whose opcode is `op`; none for an undefined opcode (R93). -/
def formatOfOpcode (op : BitVec 8) : Option Format :=
  match op.toNat with
  | 0x00 => some .z
  | 0x01 => some .dc
  | 0x02 => some .da
  | 0x03 => some .da
  | 0x04 => some .d
  | 0x05 => some .d
  | 0x06 => some .dab
  | 0x07 => some .z
  | 0x08 => some .a
  | 0x09 => some .z
  | 0x0A => some .a
  | 0x0B => some .z
  | 0x10 => some .z
  | 0x11 => some .z
  | _ => none

/-- `OP` is one of the fourteen opcodes (R95). -/
def opcodeDefined (w : Word) : Bool := (formatOfOpcode (w.extractLsb 7 0)).isSome

/-- A word is legal iff its opcode is defined, `w[31:15]` is 0 and its unused fields are 0 (R95). -/
def legal (w : Word) : Bool :=
  match formatOfOpcode (w.extractLsb 7 0) with
  | none => false
  | some f => highBitsClear w && unusedFieldsClear f w

end Sys2Proof.WellFormed
end

