-- ==== Sys2Proof/Decode.lean ====
section
/-! DEFINITION. The decoder of 30_encoding.md R96 over the opcode map R93 and the masks of R92, total on all words and
rejecting by name; after it the encoder R97, the assembler text R97 and the pseudo-instructions R98; and the host's
`decodeTableWord`. -/

namespace Sys2Proof

/-- Why a word is no command (R95): raised by `decode`; the completing step answers either with the fault
`IllegalCommand`. -/
inductive Illegal where
  /-- `OP` is not one of the fourteen of R93. -/
  | undefinedOpcode
  /-- A bit that must be 0 in this format is 1. -/
  | strayBits
  deriving DecidableEq, Repr

namespace Decode

/-- `OP = w[7:0]` (R91). -/
def opField (w : Word) : Nat := (w.extractLsb 7 0).toNat

/-- The register a 2-bit number selects (R94). -/
def vregOfBits (b : BitVec 2) : VReg :=
  match b.toNat with
  | 0 => .v0
  | 1 => .v1
  | 2 => .v2
  | _ => .v3

/-- `VD = w[9:8]` (R91). -/
def vdField (w : Word) : VReg := vregOfBits (w.extractLsb 9 8)

/-- `VA = w[11:10]` (R91). -/
def vaField (w : Word) : VReg := vregOfBits (w.extractLsb 11 10)

/-- `VB = w[13:12]` (R91). -/
def vbField (w : Word) : VReg := vregOfBits (w.extractLsb 13 12)

/-- `CH = w[14]`: 0 is the reference, 1 the captured channel (R91). -/
def chField (w : Word) : Channel := if w.getLsbD 14 then .ch1 else .ch0

/-- The mask of a format: the bits that must match exactly (R92). -/
def mask : Format → Word
  | .z => 0xFFFFFFFF#32
  | .d => 0xFFFFFCFF#32
  | .a => 0xFFFFF3FF#32
  | .da => 0xFFFFF0FF#32
  | .dc => 0xFFFFBCFF#32
  | .dab => 0xFFFFC0FF#32

/-- A row of the opcode map (R93): opcode, format, the word with all used fields 0, and the command it selects. -/
structure Row where
  op : Nat
  format : Format
  pattern : Word
  build : (vd va vb : VReg) → (ch : Channel) → Instr

/-- The opcode map (R93). -/
def table : List Row :=
  [⟨0x00, .z, 0x00000000#32, fun _ _ _ _ => .nop⟩,
    ⟨0x01, .dc, 0x00000001#32, fun vd _ _ ch => .ldblk vd ch⟩,
    ⟨0x02, .da, 0x00000002#32, fun vd va _ _ => .fft vd va⟩,
    ⟨0x03, .da, 0x00000003#32, fun vd va _ _ => .ifft vd va⟩,
    ⟨0x04, .d, 0x00000004#32, fun vd _ _ _ => .sweep vd⟩,
    ⟨0x05, .d, 0x00000005#32, fun vd _ _ _ => .mirror vd⟩,
    ⟨0x06, .dab, 0x00000006#32, fun vd va vb _ => .cdiv vd va vb⟩,
    ⟨0x07, .z, 0x00000007#32, fun _ _ _ _ => .aclr⟩,
    ⟨0x08, .a, 0x00000008#32, fun _ va _ _ => .accr va⟩,
    ⟨0x09, .z, 0x00000009#32, fun _ _ _ _ => .avg⟩,
    ⟨0x0A, .a, 0x0000000A#32, fun _ va _ _ => .realp va⟩,
    ⟨0x0B, .z, 0x0000000B#32, fun _ _ _ _ => .peak⟩,
    ⟨0x10, .z, 0x00000010#32, fun _ _ _ _ => .synth⟩,
    ⟨0x11, .z, 0x00000011#32, fun _ _ _ _ => .estimate⟩]

/-- The row whose opcode is `op` (R96). -/
def rowOf (op : Nat) : Option Row := table.find? (fun r => r.op == op)

end Decode

open Decode in
/-- R96: find the row, check the mask, read the fields. -/
def decode (w : Word) : Except Illegal Instr :=
  match rowOf (opField w) with
  | none => .error .undefinedOpcode
  | some r =>
    if w &&& mask r.format = r.pattern then .ok (r.build (vdField w) (vaField w) (vbField w) (chField w))
    else .error .strayBits

namespace Encode

/-- The number of a vector register (R94). -/
def vregNumber : VReg → Word
  | .v0 => 0#32
  | .v1 => 1#32
  | .v2 => 2#32
  | .v3 => 3#32

/-- The number of a channel (R91). -/
def channelNumber : Channel → Word
  | .ch0 => 0#32
  | .ch1 => 1#32

/-- The opcode of a command (R93). -/
def opcode : Instr → Word
  | .nop => 0x00#32
  | .ldblk _ _ => 0x01#32
  | .fft _ _ => 0x02#32
  | .ifft _ _ => 0x03#32
  | .sweep _ => 0x04#32
  | .mirror _ => 0x05#32
  | .cdiv _ _ _ => 0x06#32
  | .aclr => 0x07#32
  | .accr _ => 0x08#32
  | .avg => 0x09#32
  | .realp _ => 0x0A#32
  | .peak => 0x0B#32
  | .synth => 0x10#32
  | .estimate => 0x11#32

/-- `(VD << 8) or (VA << 10) or (VB << 12) or (CH << 14)` with 0 in the unused fields (R97). -/
def operands : Instr → Word
  | .ldblk vd ch => vregNumber vd <<< 8 ||| channelNumber ch <<< 14
  | .fft vd va => vregNumber vd <<< 8 ||| vregNumber va <<< 10
  | .ifft vd va => vregNumber vd <<< 8 ||| vregNumber va <<< 10
  | .sweep vd => vregNumber vd <<< 8
  | .mirror vd => vregNumber vd <<< 8
  | .cdiv vd va vb => vregNumber vd <<< 8 ||| vregNumber va <<< 10 ||| vregNumber vb <<< 12
  | .accr va => vregNumber va <<< 10
  | .realp va => vregNumber va <<< 10
  | .nop => 0#32
  | .aclr => 0#32
  | .avg => 0#32
  | .peak => 0#32
  | .synth => 0#32
  | .estimate => 0#32

end Encode

/-- The word of a command (R97). -/
def encode (i : Instr) : Word := Encode.opcode i ||| Encode.operands i

namespace Asm

/-- The assembler's name of a vector register (R97). -/
def vregText : VReg → String
  | .v0 => "V0"
  | .v1 => "V1"
  | .v2 => "V2"
  | .v3 => "V3"

/-- The assembler's name of a channel (R97). -/
def channelText : Channel → String
  | .ch0 => "ch0"
  | .ch1 => "ch1"

/-- A command in the assembler's notation: the mnemonic, then destination and sources (R93, R97). -/
def text : Instr → String
  | .nop => "NOP"
  | .ldblk vd ch => "LDBLK " ++ vregText vd ++ ", " ++ channelText ch
  | .fft vd va => "FFT " ++ vregText vd ++ ", " ++ vregText va
  | .ifft vd va => "IFFT " ++ vregText vd ++ ", " ++ vregText va
  | .sweep vd => "SWEEP " ++ vregText vd
  | .mirror vd => "MIRROR " ++ vregText vd
  | .cdiv vd va vb => "CDIV " ++ vregText vd ++ ", " ++ vregText va ++ ", " ++ vregText vb
  | .aclr => "ACLR"
  | .accr va => "ACCR " ++ vregText va
  | .avg => "AVG"
  | .realp va => "REALP " ++ vregText va
  | .peak => "PEAK"
  | .synth => "SYNTH"
  | .estimate => "ESTIMATE"

/-- The pseudo-instruction `FFT vd` (R98). -/
def fftInPlace (vd : VReg) : Instr := .fft vd vd

/-- The pseudo-instruction `IFFT vd` (R98). -/
def ifftInPlace (vd : VReg) : Instr := .ifft vd vd

end Asm

/-- The instruction the decoder reads from a table word: every row is one 32-bit word (R90), so the bits from `nbits` up
are 0 and the word is the command word itself. -/
def decodeTableWord (nbits w : Nat) : Option Instr :=
  match decode (BitVec.ofNat 32 (w % 2 ^ nbits)) with
  | .ok i => some i
  | .error _ => none

end Sys2Proof
end

