-- ==== Sys2Proof/Config.lean ====
section
/-! DEFINITION. What one instance of the hardware fixes (00_scope.md R7: `P_MAX`, `REC_CAP`, `NUM`; 20_memory.md R65: the
address map) and the free values. `Numerics` is the record `NUM` of R11; `Params` gathers the build-time parameters. The
engine's rules are written over an arbitrary `Params ν`; the machine behind `Sys2Proof.core` runs them at
`Config.params`, whose every component is an `opaque` constant cut down to the values the spec admits (log entries 1 to 4),
so that a claim about it holds for every admissible instance. -/

namespace Sys2Proof

/-- The numerics record `NUM` (R11). Nothing is assumed of a field but that its result depends on its operands alone. -/
structure Numerics (ν : Type) where
  zero : ν
  one : ν
  twoPi : ν
  ofNat : Nat → ν
  ofInt : Int → ν
  /-- The value of a binary32 pattern (R14). -/
  ofF32 : Word → ν
  add : ν → ν → ν
  sub : ν → ν → ν
  mul : ν → ν → ν
  div : ν → ν → ν
  neg : ν → ν
  abs : ν → ν
  lt : ν → ν → Bool
  isFinite : ν → Bool
  /-- The least integer not below the operand. -/
  ceilInt : ν → Int
  cos : ν → ν
  sin : ν → ν
  /-- `dft N x k` is bin `k` of the forward transform of the `N` listed elements (R120). -/
  dft : Nat → List (Cx ν) → Nat → Cx ν
  /-- `idft N X n` is sample `n` of the inverse transform of the `N` listed elements (R121). -/
  idft : Nat → List (Cx ν) → Nat → Cx ν
  /-- The complex quotient (R171). -/
  cdiv : Cx ν → Cx ν → Cx ν
  /-- `EW = W / 32`: the words a number takes on the bus (R65). -/
  ew : Nat
  enc : ν → BitVec (32 * ew)
  dec : BitVec (32 * ew) → ν

/-- Which of a command's reads an unspecified element answers: the first source, the second source, or a host read. -/
inductive Port where
  | a | b | host
  deriving DecidableEq, Repr

/-- The real-valued storage that a read of an unspecified number may concern. -/
inductive RealStore where
  | acc | res | delayMs
  deriving DecidableEq, Repr

/-- The free values (log entry 5). The first argument of each is a draw number: a plain counter in `State` that the step
advances, so that two steps need not draw the same value (93_implementation_defined.md U1, U3). -/
structure Unspecified (ν : Type) where
  /-- A byte of `REC` that nothing has written (R47, R287). -/
  byte : Nat → Nat → Byte
  /-- An element of a vector register that nothing has written, or that the host reads while the engine is busy (R285). -/
  cx : Nat → Port → VReg → Nat → Cx ν
  /-- The same for `ACC`, `RES` and (busy reads only) `DELAY_MS`. -/
  num : Nat → RealStore → Nat → ν
  /-- The word a busy read of a result register or of an element window returns (R67, R285). -/
  word : Nat → Word

/-- The platform's address map: `BASE` and the four `OFF_` parameters (R65). -/
structure AddressMap where
  base : Nat
  offRes : Nat
  offAcc : Nat
  offV : Nat
  offRec : Nat
  deriving DecidableEq, Repr

/-- The rows of R65's table as (offset, size in bytes), for `EW`, `P_MAX` and `REC_CAP`. -/
def AddressMap.rows (m : AddressMap) (ew pMax recCap : Nat) : List (Nat × Nat) :=
  [(0, 64), (0x40, 4 * ew), (m.offRes, 4 * ew * pMax), (m.offAcc, 4 * ew * pMax), (m.offV, 32 * ew * pMax),
    (m.offRec, 8 * recCap)]

/-- R65's constraints: word alignment, no overlap, and `NREG` ending at or before `OFF_RES`. -/
abbrev AddressMap.Fits (m : AddressMap) (ew pMax recCap : Nat) : Prop :=
  m.base % 4 = 0 ∧ m.offRes % 4 = 0 ∧ m.offAcc % 4 = 0 ∧ m.offV % 4 = 0 ∧ m.offRec % 4 = 0 ∧
  0x40 + 4 * ew ≤ m.offRes ∧
  (m.rows ew pMax recCap).Pairwise (fun p q => p.1 + p.2 ≤ q.1 ∨ q.1 + q.2 ≤ p.1)

/-- R65's default offsets. -/
def AddressMap.standard (ew pMax : Nat) : AddressMap where
  base := 0
  offRes := 0x1000
  offAcc := 0x1000 + 4 * ew * pMax
  offV := 0x1000 + 8 * ew * pMax
  offRec := 0x1000 + 40 * ew * pMax

/-- One instance of the hardware: the build-time parameters (R7), the platform's map (R65) and the free values. -/
structure Params (ν : Type) where
  pMax : Nat
  recCap : Nat
  num : Numerics ν
  map : AddressMap
  free : Unspecified ν

/-- The constraints the spec puts on the parameters: R7's bounds on `P_MAX` and `REC_CAP`, R11's `dec(enc(x)) = x`, R65's
map, whose `NREG` row bounds `EW`. -/
structure Params.Admissible {ν : Type} (H : Params ν) : Prop where
  pMax_even : H.pMax % 2 = 0
  pMax_ge : 2 ≤ H.pMax
  pMax_le : H.pMax ≤ 2 ^ 24
  recCap_ge : 1 ≤ H.recCap
  recCap_le : H.recCap ≤ 2 ^ 29
  dec_enc : ∀ x, H.num.dec (H.num.enc x) = x
  map_fits : H.map.Fits H.num.ew H.pMax H.recCap

namespace Config

/-- The open setting behind `EW`. -/
opaque ewSetting : Nat
/-- The open setting behind `P_MAX`. -/
opaque pMaxSetting : Nat
/-- The open setting behind `REC_CAP`. -/
opaque recCapSetting : Nat
/-- The open settings behind `BASE`, `OFF_RES`, `OFF_ACC`, `OFF_V`, `OFF_REC`. -/
opaque mapSetting : Nat × Nat × Nat × Nat × Nat

/-- `EW`: any count of words from 1 to the 1008 that R65 allows. -/
def ew : Nat := if 1 ≤ ewSetting ∧ ewSetting ≤ 1008 then ewSetting else 2

/-- `P_MAX`: any even number from 2 to 2^24 (R7). -/
def pMax : Nat := if pMaxSetting % 2 = 0 ∧ 2 ≤ pMaxSetting ∧ pMaxSetting ≤ 2 ^ 24 then pMaxSetting else 2

/-- `REC_CAP`: any number from 1 to 2^29 (R7). -/
def recCap : Nat := if 1 ≤ recCapSetting ∧ recCapSetting ≤ 2 ^ 29 then recCapSetting else 6

/-- The map the open settings name, before it is checked. -/
def mapChosen : AddressMap where
  base := mapSetting.1
  offRes := mapSetting.2.1
  offAcc := mapSetting.2.2.1
  offV := mapSetting.2.2.2.1
  offRec := mapSetting.2.2.2.2

/-- The platform's map: any map that fits, else R65's default. -/
def map : AddressMap := if mapChosen.Fits ew pMax recCap then mapChosen else AddressMap.standard ew pMax

/-- A bus image of a number: `W = 32 * EW` bits (R66). -/
abbrev Image := BitVec (32 * ew)

/-- The open choice of which images are images of numbers. -/
opaque canonRaw : Image → Image

/-- `enc (dec b)`: the image of the number that the image `b` denotes. Every idempotent function of images arises so. -/
def canon (b : Image) : Image := if canonRaw (canonRaw b) = canonRaw b then canonRaw b else b

end Config

/-- `Num`, the number type of `NUM`, held as its bus image: plain data, for any `NUM` that has a bus image (R11, R66, log
entry 2). -/
structure NumVal where
  image : Config.Image
  canonical : Config.canon image = image
  deriving DecidableEq, Repr

namespace Config

theorem canon_canon (b : Image) : canon (canon b) = canon b := by
  unfold canon
  split <;> simp_all

/-- `NUM.dec` (R11). -/
def dec (b : Image) : NumVal := ⟨canon b, canon_canon b⟩

/-- The fields of `NUM`, on bus images: open constants. -/
opaque zeroRaw : Image
opaque oneRaw : Image
opaque twoPiRaw : Image
opaque ofNatRaw : Nat → Image
opaque ofIntRaw : Int → Image
opaque ofF32Raw : Word → Image
opaque addRaw : Image → Image → Image
opaque subRaw : Image → Image → Image
opaque mulRaw : Image → Image → Image
opaque divRaw : Image → Image → Image
opaque negRaw : Image → Image
opaque absRaw : Image → Image
opaque ltRaw : Image → Image → Bool
opaque isFiniteRaw : Image → Bool
opaque ceilIntRaw : Image → Int
opaque cosRaw : Image → Image
opaque sinRaw : Image → Image
opaque dftRaw : Nat → List (Image × Image) → Nat → Image × Image
opaque idftRaw : Nat → List (Image × Image) → Nat → Image × Image
opaque cdivRaw : Image × Image → Image × Image → Image × Image

/-- The images of a complex number's parts. -/
def images (z : Cx NumVal) : Image × Image := (z.re.image, z.im.image)

/-- The complex number with the given images. -/
def cx (p : Image × Image) : Cx NumVal := ⟨dec p.1, dec p.2⟩

/-- `NUM` (R11): any numerics with a bus image. -/
def num : Numerics NumVal where
  zero := dec zeroRaw
  one := dec oneRaw
  twoPi := dec twoPiRaw
  ofNat n := dec (ofNatRaw n)
  ofInt i := dec (ofIntRaw i)
  ofF32 w := dec (ofF32Raw w)
  add x y := dec (addRaw x.image y.image)
  sub x y := dec (subRaw x.image y.image)
  mul x y := dec (mulRaw x.image y.image)
  div x y := dec (divRaw x.image y.image)
  neg x := dec (negRaw x.image)
  abs x := dec (absRaw x.image)
  lt x y := ltRaw x.image y.image
  isFinite x := isFiniteRaw x.image
  ceilInt x := ceilIntRaw x.image
  cos x := dec (cosRaw x.image)
  sin x := dec (sinRaw x.image)
  dft N x k := cx (dftRaw N (x.map images) k)
  idft N x n := cx (idftRaw N (x.map images) n)
  cdiv a z := cx (cdivRaw (images a) (images z))
  ew := ew
  enc x := x.image
  dec := dec

/-- The free values of `Unspecified`: open constants. -/
opaque anyByte : Nat → Nat → Byte
opaque anyCx : Nat → Port → VReg → Nat → Image × Image
opaque anyNum : Nat → RealStore → Nat → Image
opaque anyWord : Nat → Word

/-- The free values of the machine. -/
def free : Unspecified NumVal where
  byte := anyByte
  cx d p j k := cx (anyCx d p j k)
  num d r n := dec (anyNum d r n)
  word := anyWord

/-- The instance the machine runs: any admissible one. -/
def params : Params NumVal where
  pMax := pMax
  recCap := recCap
  num := num
  map := map
  free := free

end Config
end Sys2Proof
end

