-- ==== Sys2Proof/Machine/State.lean ====
section
/-! DEFINITION. The machine's state as plain data: the engine's architectural state (10_state.md R20) over a number type, the
host's actions (20_memory.md R67) and bus accesses (R65), and `State`, which is the engine together with the host's pending
actions, the host's read data and the draw counter (log entries 5 to 7). The faults and refusals of a step. -/

namespace Sys2Proof.Machine

/-- The three faults of the engine (60_exceptions.md R240). They are not faults of the model: a command that raises one
has a next state (R247). -/
inductive FaultCode where
  | invalidParameter | insufficientData | illegalCommand
  deriving DecidableEq, Repr

/-- The whole architectural state of the engine (R20). Register slot 4 (`CMD`) and slot 15 hold nothing: they read 0
(R23, R28). A buffer lists the elements written since reset, by rising index; an element not listed is unspecified (R47). -/
structure Engine (ν : Type) where
  /-- Slot 0 (R24). -/
  ctrl : Word
  /-- Slot 1 (R25). -/
  status : Word
  /-- Slot 2 (R26). -/
  err : Word
  /-- Slot 3 (R27). -/
  errCmd : Word
  /-- Slot 5 (R29). -/
  period : Word
  /-- Slot 6 (R30). -/
  duty : Word
  /-- Slot 7 (R31). -/
  sRate : Word
  /-- Slot 8 (R32). -/
  recLen : Word
  /-- Slot 9 (R33). -/
  blk : Word
  /-- Slot 10 (R34). -/
  divFloor : Word
  /-- Slot 11 (R35). -/
  nBlk : Word
  /-- Slot 12 (R36). -/
  accCnt : Word
  /-- Slot 13 (R37). -/
  degenCnt : Word
  /-- Slot 14 (R38). -/
  peakIdx : Word
  /-- `DELAY_MS` (R39). -/
  delayMs : ν
  /-- `V0` (R40). -/
  v0 : List (Nat × Cx ν)
  /-- `V1` (R40). -/
  v1 : List (Nat × Cx ν)
  /-- `V2` (R40). -/
  v2 : List (Nat × Cx ν)
  /-- `V3` (R40). -/
  v3 : List (Nat × Cx ν)
  /-- `ACC` (R41). -/
  acc : List (Nat × ν)
  /-- `RES` (R42). -/
  res : List (Nat × ν)
  /-- `REC`, in bytes (R43, R61). -/
  recording : List Host.Cell
  /-- `CMDLATCH` (R44). -/
  cmdLatch : Word
  deriving DecidableEq, Repr

/-- The sixteen register slots, in the order of their numbers 0 to 15 (R23). -/
inductive Slot where
  | ctrl | status | err | errCmd | cmd | period | duty | sRate | recLen | blk | divFloor | nBlk | accCnt | degenCnt
  | peakIdx | reserved
  deriving DecidableEq, Repr

/-- The actions of the host (R67). -/
inductive HostAction (ν : Type) where
  | readCsr (i : Slot)
  | writeCsr (i : Slot) (w : Word)
  | readRec (i : Nat) (c : Channel)
  | writeRec (i : Nat) (c : Channel) (w : Word)
  | readV (j : VReg) (k : Nat)
  | writeV (j : VReg) (k : Nat) (z : Cx ν)
  | readAcc (n : Nat)
  | writeAcc (n : Nat) (x : ν)
  | readRes (n : Nat)
  | writeRes (n : Nat) (x : ν)
  | readDelayMs
  deriving DecidableEq, Repr

/-- An access on the host's bus: a byte address, a width in bytes, and the word to write, if it is a write (R63, R65). -/
structure BusAccess where
  addr : Nat
  bytes : Nat
  write : Option Word
  deriving DecidableEq, Repr

/-- What moves next (R18, R280): the host, by an action or through the bus; the engine, whose one move is to complete the
command in progress (R283); or the reset input. -/
inductive Event (ν : Type) where
  | host (a : HostAction ν)
  | bus (b : BusAccess)
  | engine
  | rst
  deriving DecidableEq, Repr

/-- The data of the host's most recent read. -/
inductive Reply (ν : Type) where
  | none
  | word (w : Word)
  | num (x : ν)
  | cx (z : Cx ν)
  deriving DecidableEq, Repr

/-- The machine: the engine at the configured number type, and beside it the model's own fields. -/
structure State extends Engine NumVal where
  /-- The moves that are scheduled, first one first; when none is left the engine moves (log entry 6). -/
  script : List (Event NumVal)
  /-- What the host's last read returned (log entry 7). -/
  reply : Reply NumVal
  /-- The draw counter of the free values (log entry 5). -/
  draws : Nat
  deriving DecidableEq, Repr

/-- Why the machine stops. -/
inductive Fault where
  /-- Raised by a host action whose index lies outside `REC`, a vector register, `ACC` or `RES`: R67 says such an action
  does not exist. Safe. No command raises it. -/
  | noSuchElement
  deriving DecidableEq, Repr

/-- Why the model gives no meaning. -/
inductive Refusal where
  /-- Raised by `exec` for a command that has no meaning yet. Safe. -/
  | notModelled (mnemonic : String)
  /-- Raised by a bus access that is not a 32-bit access at a multiple of 4: the interface defines no behaviour for it
  (R63, 93_implementation_defined.md U2). Safe. -/
  | unsupportedAccess
  /-- Raised by a bus access below `BASE`, which is not addressed to the engine (R65). Safe. -/
  | outsideInterface
  deriving DecidableEq, Repr

/-- The engine after hardware reset (R46, R280): every slot 0, `DELAY_MS = NUM.zero`, every buffer element unspecified. -/
def Engine.reset {ν : Type} (zero : ν) : Engine ν where
  ctrl := 0#32
  status := 0#32
  err := 0#32
  errCmd := 0#32
  period := 0#32
  duty := 0#32
  sRate := 0#32
  recLen := 0#32
  blk := 0#32
  divFloor := 0#32
  nBlk := 0#32
  accCnt := 0#32
  degenCnt := 0#32
  peakIdx := 0#32
  delayMs := zero
  v0 := []
  v1 := []
  v2 := []
  v3 := []
  acc := []
  res := []
  recording := []
  cmdLatch := 0#32

/-- The machine right after reset: the engine idle, nothing scheduled, nothing read, no draw made (R46, R47). -/
def State.reset : State where
  toEngine := Engine.reset Config.params.num.zero
  script := []
  reply := .none
  draws := 0

end Sys2Proof.Machine
end

