-- ==== Sys2Proof/Machine/Flags.lean ====
section
/-! DEFINITION. The flags: the five bits of `STATUS` (10_state.md R25), `ERR.CODE` (R26), the enables of `CTRL` (R24) and the
interrupt output (R48), and the host's write to each of these three registers. -/

namespace Sys2Proof.Machine

variable {ν : Type}

/-- A word with bit `n` set to `b` and its other bits kept. -/
def withBit (n : Nat) (b : Bool) (w : Word) : Word :=
  if b then w ||| BitVec.twoPow 32 n else w &&& ~~~(BitVec.twoPow 32 n)

namespace Engine

/-- `STATUS.BUSY`, bit 0 (R25). -/
def busy (e : Engine ν) : Bool := e.status.getLsbD 0
/-- `STATUS.DONE`, bit 1 (R25). -/
def done (e : Engine ν) : Bool := e.status.getLsbD 1
/-- `STATUS.REJ`, bit 2 (R25, R250). -/
def rej (e : Engine ν) : Bool := e.status.getLsbD 2
/-- `STATUS.WDEGEN`, bit 3 (R25, R244). -/
def wDegen (e : Engine ν) : Bool := e.status.getLsbD 3
/-- `STATUS.WNONFIN`, bit 4 (R25, R256). -/
def wNonFin (e : Engine ν) : Bool := e.status.getLsbD 4
/-- `ERR.CODE`, bits 3:0 (R26). -/
def code (e : Engine ν) : Nat := (e.err.extractLsb 3 0).toNat
/-- `CTRL.IE_DONE`, bit 0 (R24). -/
def ieDone (e : Engine ν) : Bool := e.ctrl.getLsbD 0
/-- `CTRL.IE_ERR`, bit 1 (R24). -/
def ieErr (e : Engine ν) : Bool := e.ctrl.getLsbD 1

/-- The interrupt output `irq` (R48, R251). -/
def irq (e : Engine ν) : Bool := (e.ieDone && e.done) || (e.ieErr && e.code != 0)

end Engine

/-- `STATUS` with `BUSY` as given. -/
def setBusy (b : Bool) (e : Engine ν) : Engine ν := { e with status := withBit 0 b e.status }
/-- `STATUS` with `DONE` as given. -/
def setDone (b : Bool) (e : Engine ν) : Engine ν := { e with status := withBit 1 b e.status }
/-- `STATUS.REJ <- 1`: a host write was dropped (R250). -/
def reject (e : Engine ν) : Engine ν := { e with status := withBit 2 true e.status }
/-- `STATUS.WDEGEN <- 1` if the condition holds; never cleared by a command (R173). -/
def warnDegen (b : Bool) (e : Engine ν) : Engine ν := { e with status := withBit 3 (e.wDegen || b) e.status }
/-- `STATUS.WNONFIN <- 1` if the condition holds; never cleared by a command (R144, R187). -/
def warnNonFin (b : Bool) (e : Engine ν) : Engine ν := { e with status := withBit 4 (e.wNonFin || b) e.status }

/-- The bits of `STATUS` that a host write of 1 clears: `DONE`, `REJ`, `WDEGEN`, `WNONFIN` (R25). -/
def w1cBits : Word := 0x0000001E#32

/-- A host write to `STATUS`: each write-1-to-clear bit whose written value is 1 is cleared (R23, R25). -/
def clearStatus (w : Word) (e : Engine ν) : Engine ν := { e with status := e.status &&& ~~~(w &&& w1cBits) }

/-- A host write to `ERR`, of any value: `CODE <- 0`, and the reserved bits read 0. This is the return from a fault:
nothing is restored and `ERRCMD` keeps its value (R26, R248). -/
def clearErr (e : Engine ν) : Engine ν := { e with err := 0#32 }

/-- A host write to `CTRL` without `SRST`: the enables are stored, reserved bits stay 0 (R23, R24). -/
def writeEnables (w : Word) (e : Engine ν) : Engine ν := { e with ctrl := w &&& 0x00000003#32 }

end Sys2Proof.Machine
end

