-- ==== Sys2Proof/Machine/Operands.lean ====
section
/-! DEFINITION. The operand forms: the binary32 format (00_scope.md R14), the validity of the parameter registers
(10_state.md R29 to R34), complex arithmetic over `NUM` (R16) and the block geometry (42_block_load.md R160). -/

namespace Sys2Proof.Machine

variable {ν : Type}

/-! ### The binary32 format (R14) -/

/-- Bits 30:23, the biased exponent. -/
def f32Exp (w : Word) : Nat := (w.extractLsb 30 23).toNat
/-- Bits 22:0, the fraction. -/
def f32Frac (w : Word) : Nat := (w.extractLsb 22 0).toNat
/-- Bit 31, the sign. -/
def f32Sign (w : Word) : Bool := w.getLsbD 31
/-- A pattern is finite iff its exponent is not 255. -/
def f32Finite (w : Word) : Bool := f32Exp w != 255

/-- The magnitude of a finite pattern in units of 2^-149, the least positive value: `f` for `e = 0`, and
`2^(e-1) * (2^23 + f)` for `1 <= e <= 254`. -/
def f32Magnitude (w : Word) : Nat :=
  if f32Exp w = 0 then f32Frac w else 2 ^ (f32Exp w - 1) * (2 ^ 23 + f32Frac w)

/-- The value of a finite pattern in units of 2^-149. -/
def f32Units (w : Word) : Int := if f32Sign w then -(f32Magnitude w : Int) else (f32Magnitude w : Int)

/-- `f32val` (R14): the rational value of a finite pattern. -/
def f32val (w : Word) : ℚ := (f32Units w : ℚ) / 2 ^ 149

/-! ### Validity of the parameter registers -/

namespace Engine

/-- `PERIOD` is valid: even, at least 2, at most `P_MAX` (R29). -/
def periodValid (H : Params ν) (e : Engine ν) : Bool :=
  decide (2 ≤ e.period.toNat) && decide (e.period.toNat % 2 = 0) && decide (e.period.toNat ≤ H.pMax)

/-- `DUTY` is valid: a finite pattern with `0 < d < 1` as an exact rational, here in units of 2^-149 (R30). -/
def dutyValid (e : Engine ν) : Bool :=
  f32Finite e.duty && decide (0 < f32Units e.duty) && decide (f32Units e.duty < 2 ^ 149)

/-- `SRATE` is valid: at least 1 (R31). -/
def sRateValid (e : Engine ν) : Bool := decide (1 ≤ e.sRate.toNat)

/-- `REC_LEN` is valid: at most `REC_CAP` (R32). -/
def recLenValid (H : Params ν) (e : Engine ν) : Bool := decide (e.recLen.toNat ≤ H.recCap)

/-- `DIV_FLOOR` is valid: a finite pattern whose value is not negative, so minus zero is valid (R34). -/
def divFloorValid (e : Engine ν) : Bool := f32Finite e.divFloor && decide (0 ≤ f32Units e.divFloor)

/-- `P = csr.PERIOD` as an integer (R10). -/
def P (e : Engine ν) : Nat := e.period.toNat

/-- `NF = P/2`, the Nyquist bin (R8). -/
def NF (e : Engine ν) : Nat := e.period.toNat / 2

end Engine

/-! ### Complex arithmetic (R16) -/

/-- `conj(a) = (ar, neg(ai))`. -/
def conj (N : Numerics ν) (z : Cx ν) : Cx ν := ⟨z.re, N.neg z.im⟩
/-- `magSq(a) = ar*ar + ai*ai`. -/
def magSq (N : Numerics ν) (z : Cx ν) : ν := N.add (N.mul z.re z.re) (N.mul z.im z.im)
/-- `cx(x) = (x, zero)`. -/
def ofReal (N : Numerics ν) (x : ν) : Cx ν := ⟨x, N.zero⟩
/-- `(zero, zero)`. -/
def zeroCx (N : Numerics ν) : Cx ν := ⟨N.zero, N.zero⟩
/-- `exp(-i*t) = conj(cis(t)) = (cos(t), neg(sin(t)))`. -/
def phasor (N : Numerics ν) (t : ν) : Cx ν := ⟨N.cos t, N.neg (N.sin t)⟩

/-! ### Block geometry (R160) -/

/-- The number of whole blocks after the warm-up of `2*P` pairs; 0 when `M < 2*P` (R160, 90_conflicts.md C6). -/
def numBlocks (M P : Nat) : Nat := if M < 2 * P then 0 else (M - 2 * P) / P

/-- The pair index of sample 0 of block `b` (R160). -/
def firstPair (P b : Nat) : Nat := 2 * P + b * P

/-- The channel's number in a byte address (R61). -/
def Channel.index : Channel → Nat
  | .ch0 => 0
  | .ch1 => 1

/-- The byte address of sample `i` of channel `c` in `REC`: `8*i + 4*c` (R61). -/
def sampleAddr (i : Nat) (c : Channel) : Nat := 8 * i + 4 * Channel.index c

end Sys2Proof.Machine
end

