-- ==== Sys2Proof/Machine/Ops.lean ====
section
/-! DEFINITION. The named operations over buffers, memory and registers: sparse storage in one canonical form, the reads and
writes of the pseudocode (00_scope.md R17), the fault entry (60_exceptions.md R247), the completion and the acceptance of
a command (70_reset_and_hazards.md R283), and the fetch of the command word. -/

namespace Sys2Proof.Machine

variable {ν α : Type}

/-! ### Sparse storage: pairs of an index and what was written there, indices strictly rising -/

/-- What was written at index `k`, if anything. -/
def lookup (k : Nat) : List (Nat × α) → Option α
  | [] => none
  | (i, x) :: rest => if k = i then some x else lookup k rest

/-- Write `x` at index `k`. -/
def store (k : Nat) (x : α) : List (Nat × α) → List (Nat × α)
  | [] => [(k, x)]
  | (i, y) :: rest =>
    if k < i then (k, x) :: (i, y) :: rest
    else if k = i then (k, x) :: rest
    else (i, y) :: store k x rest

/-- `for i in 0..n-1: [lo+i] <- f (lo+i)`, in rising order. -/
def storeRange (lo : Nat) (f : Nat → α) : Nat → List (Nat × α) → List (Nat × α)
  | 0, m => m
  | n + 1, m => store (lo + n) (f (lo + n)) (storeRange lo f n m)

/-- Make unspecified every element whose index meets `p`. -/
def forget (p : Nat → Bool) (m : List (Nat × α)) : List (Nat × α) := m.filter (fun c => !p c.1)

/-- The canonical form: indices strictly rising. An unlisted element is unspecified, which no written value equals. -/
def storageWf : List (Nat × α) → Bool
  | [] => true
  | [_] => true
  | (i, _) :: (j, y) :: rest => decide (i < j) && storageWf ((j, y) :: rest)

/-- The canonical form of the recording memory, a list of cells. -/
def Memory.wf (m : List Host.Cell) : Bool := storageWf m

/-! ### The recording memory `REC` (20_memory.md R61, R62) -/

/-- One byte of `REC`; a byte nothing has written since reset is a free value (R287, log entry 5). -/
def readByte (H : Params ν) (d : Nat) (e : Engine ν) (a : Nat) : Byte :=
  (lookup a e.recording).getD (H.free.byte d a)

/-- `MemRead(addr, 4)`: the little-endian word at `addr` (R17, R62). -/
def memRead (H : Params ν) (d : Nat) (e : Engine ν) (a : Nat) : Word :=
  readByte H d e (a + 3) ++ readByte H d e (a + 2) ++ readByte H d e (a + 1) ++ readByte H d e a

/-- `MemWrite(addr, 4, w)`, which only the host does: bits 7:0 at `addr` (R17, R62). -/
def memWrite (a : Nat) (w : Word) (e : Engine ν) : Engine ν :=
  { e with
    recording := store (a + 3) (w.extractLsb' 24 8) (store (a + 2) (w.extractLsb' 16 8)
      (store (a + 1) (w.extractLsb' 8 8) (store a (w.extractLsb' 0 8) e.recording))) }

/-! ### Vector registers, accumulator, result buffer -/

/-- The elements of vector register `j` written since reset. -/
def Engine.vreg (e : Engine ν) : VReg → List (Nat × Cx ν)
  | .v0 => e.v0
  | .v1 => e.v1
  | .v2 => e.v2
  | .v3 => e.v3

/-- The engine with the elements of register `j` as given. -/
def setVreg (j : VReg) (m : List (Nat × Cx ν)) (e : Engine ν) : Engine ν :=
  match j with
  | .v0 => { e with v0 := m }
  | .v1 => { e with v1 := m }
  | .v2 => { e with v2 := m }
  | .v3 => { e with v3 := m }

/-- `V[j][k]`; an element nothing has written since reset is a free value (R17, R47, log entry 5), and a command computes with
it (log entry 25). -/
def readV (H : Params ν) (d : Nat) (p : Port) (e : Engine ν) (j : VReg) (k : Nat) : Cx ν :=
  (lookup k (e.vreg j)).getD (H.free.cx d p j k)

/-- `V[j][0..n-1]`, all read before any write (R94). -/
def readVec (H : Params ν) (d : Nat) (p : Port) (e : Engine ν) (j : VReg) (n : Nat) : List (Cx ν) :=
  (List.range n).map (readV H d p e j)

/-- `for k in lo..lo+n-1: V[j][k] <- f k` (R17). -/
def writeVec (j : VReg) (lo n : Nat) (f : Nat → Cx ν) (e : Engine ν) : Engine ν :=
  setVreg j (storeRange lo f n (e.vreg j)) e

/-- `ACC[n]` (R17). -/
def readAcc (H : Params ν) (d : Nat) (e : Engine ν) (n : Nat) : ν := (lookup n e.acc).getD (H.free.num d .acc n)

/-- `for n in 0..cnt-1: ACC[n] <- f n` (R17). -/
def writeAcc (cnt : Nat) (f : Nat → ν) (e : Engine ν) : Engine ν := { e with acc := storeRange 0 f cnt e.acc }

/-- `RES[n]` (R17). -/
def readRes (H : Params ν) (d : Nat) (e : Engine ν) (n : Nat) : ν := (lookup n e.res).getD (H.free.num d .res n)

/-- `for n in 0..cnt-1: RES[n] <- f n` (R17). -/
def writeRes (cnt : Nat) (f : Nat → ν) (e : Engine ν) : Engine ν := { e with res := storeRange 0 f cnt e.res }

/-- Some value of `f 0 .. f (cnt-1)` is not finite (the test of R144 and R187). -/
def someNonFinite (N : Numerics ν) (cnt : Nat) (f : Nat → ν) : Bool :=
  (List.range cnt).any (fun n => !N.isFinite (f n))

/-! ### Fault entry, completion, acceptance -/

/-- The number of a fault in `ERR.CODE` (R26, R240). -/
def FaultCode.number : FaultCode → Word
  | .invalidParameter => 1#32
  | .insufficientData => 2#32
  | .illegalCommand => 3#32

/-- `raise F(w)` for the word `w` in `CMDLATCH` (R247): `ERR.CODE`, `ERRCMD` and `STATUS.BUSY` are written and nothing
else changes; control goes nowhere. -/
def raise (f : FaultCode) (e : Engine ν) : Engine ν :=
  setBusy false { e with err := f.number, errCmd := e.cmdLatch }

/-- Completion without a fault: `STATUS.BUSY <- 0`, `STATUS.DONE <- 1` (R283). -/
def finish (e : Engine ν) : Engine ν := setDone true (setBusy false e)

/-- The first check of a list that fails (R213: all checks, in the order listed, before any write). -/
def firstFault : List (Bool × FaultCode) → Option FaultCode
  | [] => none
  | (ok, f) :: rest => if ok then firstFault rest else some f

/-- A command: its checks, then either the fault entry or its effect and the completion (R283). -/
def perform (checks : List (Bool × FaultCode)) (effect : Engine ν → Engine ν) (e : Engine ν) : Engine ν :=
  match firstFault checks with
  | some f => raise f e
  | none => finish (effect e)

/-- An accepted write of `w` to `CMD`: the word is latched, `BUSY <- 1`, `DONE <- 0` (R28). -/
def accept (w : Word) (e : Engine ν) : Engine ν := setDone false (setBusy true { e with cmdLatch := w })

/-- The command word the completing step decodes (R96). -/
def fetch (e : Engine ν) : Word := e.cmdLatch

/-- Run the engine's part of a step in the machine, leaving the model's own fields alone. -/
def onEngine (f : Engine NumVal → Engine NumVal) (s : State) : Host.Outcome State Fault Refusal :=
  .next { s with toEngine := f s.toEngine }

/-- An illegal word completes with `IllegalCommand` and changes nothing else (R95, R243). -/
def execIllegal (s : State) : Host.Outcome State Fault Refusal := onEngine (raise .illegalCommand) s

end Sys2Proof.Machine
end

