-- ==== Sys2Proof/Machine/Accumulate.lean ====
section
/-! DEFINITION. The block-wise impulse-response accumulator: `ACLR` (44_accumulate.md R185), `ACCR` (R186) and `AVG`
(R187). -/

namespace Sys2Proof.Machine

variable {ν : Type}

/-- The effect of `ACLR`: `ACC[0..P-1] <- zero`, `ACC_CNT <- 0`, `DEGEN_CNT <- 0` (R185). -/
def aclrEffect (H : Params ν) (e : Engine ν) : Engine ν :=
  { writeAcc e.P (fun _ => H.num.zero) e with accCnt := 0#32, degenCnt := 0#32 }

/-- `ACLR` (R185). -/
def aclr (H : Params ν) (e : Engine ν) : Engine ν :=
  perform [(e.periodValid H, .invalidParameter)] (aclrEffect H) e

/-- The meaning of `ACLR` in the machine (R185). -/
def execAclr (s : State) : Host.Outcome State Fault Refusal := onEngine (aclr Config.params) s

/-- The effect of `ACCR va`: `ACC[n] <- ACC[n] + Re(V[va][n])` for `n = 0..P-1`, `ACC_CNT <- ACC_CNT + 1` (R186). -/
def accrEffect (H : Params ν) (d : Nat) (va : VReg) (e : Engine ν) : Engine ν :=
  { writeAcc e.P (fun n => H.num.add (readAcc H d e n) (readV H d .a e va n).re) e with accCnt := e.accCnt + 1#32 }

/-- `ACCR va`: a count already full is `IllegalCommand` (R186). -/
def accr (H : Params ν) (d : Nat) (va : VReg) (e : Engine ν) : Engine ν :=
  perform [(e.periodValid H, .invalidParameter), (e.accCnt != 0xFFFFFFFF#32, .illegalCommand)] (accrEffect H d va) e

/-- The meaning of `ACCR` in the machine (R186). -/
def execAccr (va : VReg) (s : State) : Host.Outcome State Fault Refusal :=
  onEngine (accr Config.params s.draws va) s

/-- `ACC[n] / ofNat(ACC_CNT)` (R187). -/
def meanOf (H : Params ν) (d : Nat) (e : Engine ν) (n : Nat) : ν :=
  H.num.div (readAcc H d e n) (H.num.ofNat e.accCnt.toNat)

/-- The effect of `AVG`: `RES[n] <- ACC[n] / ofNat(ACC_CNT)` for `n = 0..P-1`, and `WNONFIN` if one of them is not finite
(R187). -/
def avgEffect (H : Params ν) (d : Nat) (e : Engine ν) : Engine ν :=
  warnNonFin (someNonFinite H.num e.P (meanOf H d e)) (writeRes e.P (meanOf H d e) e)

/-- `AVG`: no block to average is `InsufficientData` (R187). -/
def avg (H : Params ν) (d : Nat) (e : Engine ν) : Engine ν :=
  perform [(e.periodValid H, .invalidParameter), (e.accCnt != 0#32, .insufficientData)] (avgEffect H d) e

/-- The meaning of `AVG` in the machine (R187). -/
def execAvg (s : State) : Host.Outcome State Fault Refusal := onEngine (avg Config.params s.draws) s

end Sys2Proof.Machine
end

