-- ==== Sys2Proof/Machine/BlockLoad.lean ====
section
/-! DEFINITION. The block loader: `LDBLK` (42_block_load.md R161). -/

namespace Sys2Proof.Machine

variable {ν : Type}

/-- Sample `n` of block `b` of channel `ch`: the word at `8*i + 4*ch` for pair `i = 2*P + b*P + n`, converted by
`NUM.ofF32` (R161, R162). -/
def blockSample (H : Params ν) (d : Nat) (e : Engine ν) (b : Nat) (ch : Channel) (n : Nat) : ν :=
  H.num.ofF32 (memRead H d e (sampleAddr (firstPair e.P b + n) ch))

/-- The effect of `LDBLK vd, ch` with block index `b`: real samples, zero imaginary parts (R161). -/
def ldblkEffect (H : Params ν) (d : Nat) (b : Nat) (vd : VReg) (ch : Channel) (e : Engine ν) : Engine ν :=
  writeVec vd 0 e.P (fun n => ofReal H.num (blockSample H d e b ch n)) e

/-- `LDBLK vd, ch` (R161). -/
def ldblk (H : Params ν) (d : Nat) (vd : VReg) (ch : Channel) (e : Engine ν) : Engine ν :=
  perform
    [(e.periodValid H, .invalidParameter), (e.recLenValid H, .invalidParameter),
      (decide (e.blk.toNat < numBlocks e.recLen.toNat e.P), .insufficientData)]
    (ldblkEffect H d e.blk.toNat vd ch) e

/-- The meaning of `LDBLK` in the machine (R161). -/
def execLdblk (vd : VReg) (ch : Channel) (s : State) : Host.Outcome State Fault Refusal :=
  onEngine (ldblk Config.params s.draws vd ch) s

end Sys2Proof.Machine
end

