-- ==== Sys2Proof/Machine/Divide.lean ====
section
/-! DEFINITION. The complex transfer-function divider: `CDIV` (43_divide.md R171). -/

namespace Sys2Proof.Machine

variable {ν : Type}

/-- A divisor is degenerate (R170): both parts are zero or not numbers, or `|z|^2 < floor^2`. -/
def degenerate (N : Numerics ν) (fl : ν) (z : Cx ν) : Bool :=
  (!N.lt N.zero (N.abs z.re) && !N.lt N.zero (N.abs z.im)) || N.lt (magSq N z) (N.mul fl fl)

/-- The bin is forced to zero: its divisor is degenerate or its quotient is not finite (R171, R172). -/
def binForced (N : Numerics ν) (fl : ν) (a z : Cx ν) : Bool :=
  degenerate N fl z || !(N.isFinite (N.cdiv a z).re && N.isFinite (N.cdiv a z).im)

/-- The quotient written for one bin (R171). -/
def binQuotient (N : Numerics ν) (fl : ν) (a z : Cx ν) : Cx ν :=
  if binForced N fl a z then zeroCx N else N.cdiv a z

/-- The number of forced bins among `0..P-1` (R171). -/
def forcedCount (N : Numerics ν) (fl : ν) (a z : Nat → Cx ν) (P : Nat) : Nat :=
  (List.range P).countP (fun k => binForced N fl (a k) (z k))

/-- `DEGEN_CNT <- min(DEGEN_CNT + forced, 0xFFFFFFFF)` (R171, R173). -/
def saturatingCount (w : Word) (n : Nat) : Word := BitVec.ofNat 32 (min (w.toNat + n) 0xFFFFFFFF)

/-- The effect of `CDIV vd, va, vb` (R171): both sources are read before any write. -/
def cdivEffect (H : Params ν) (d : Nat) (vd va vb : VReg) (e : Engine ν) : Engine ν :=
  let fl := H.num.ofF32 e.divFloor
  let a := readV H d .a e va
  let z := readV H d .b e vb
  let forced := forcedCount H.num fl a z e.P
  warnDegen (decide (0 < forced))
    { writeVec vd 0 e.P (fun k => binQuotient H.num fl (a k) (z k)) e with
      degenCnt := saturatingCount e.degenCnt forced }

/-- `CDIV vd, va, vb` (R171). -/
def cdiv (H : Params ν) (d : Nat) (vd va vb : VReg) (e : Engine ν) : Engine ν :=
  perform [(e.periodValid H, .invalidParameter), (e.divFloorValid, .invalidParameter)] (cdivEffect H d vd va vb) e

/-- The meaning of `CDIV` in the machine (R171). -/
def execCdiv (vd va vb : VReg) (s : State) : Host.Outcome State Fault Refusal :=
  onEngine (cdiv Config.params s.draws vd va vb) s

end Sys2Proof.Machine
end

