-- ==== Sys2Proof/Machine/Peak.lean ====
section
/-! DEFINITION. The peak detector: `PEAK` (45_peak.md R200). -/

namespace Sys2Proof.Machine

variable {ν : Type}

/-- One pass of the scan: the candidate is replaced only by a strictly greater magnitude (R200, R201). -/
def peakPass (N : Numerics ν) (x : Nat → ν) (best : Nat × ν) (k : Nat) : Nat × ν :=
  if N.lt best.2 (N.abs (x k)) then (k, N.abs (x k)) else best

/-- The scan over `k = 1..P-1` from the candidate 0 (R200). -/
def peakScan (N : Numerics ν) (x : Nat → ν) (P : Nat) : Nat × ν :=
  (List.range' 1 (P - 1)).foldl (peakPass N x) (0, N.abs (x 0))

/-- `idx`, the index of the peak among `0..P-1` (R200). -/
def peakIndex (N : Numerics ν) (x : Nat → ν) (P : Nat) : Nat := (peakScan N x P).1

/-- `ofNat(idx * 1000) / ofNat(SRATE)` (R202). -/
def delayOf (N : Numerics ν) (idx sRate : Nat) : ν := N.div (N.ofNat (idx * 1000)) (N.ofNat sRate)

/-- The effect of `PEAK`: `PEAK_IDX` and `DELAY_MS` are written (R200). -/
def peakEffect (H : Params ν) (d : Nat) (e : Engine ν) : Engine ν :=
  let idx := peakIndex H.num (readRes H d e) e.P
  { e with peakIdx := BitVec.ofNat 32 idx, delayMs := delayOf H.num idx e.sRate.toNat }

/-- `PEAK` (R200). -/
def peak (H : Params ν) (d : Nat) (e : Engine ν) : Engine ν :=
  perform [(e.periodValid H, .invalidParameter), (e.sRateValid, .invalidParameter)] (peakEffect H d) e

/-- The meaning of `PEAK` in the machine (R200). -/
def execPeak (s : State) : Host.Outcome State Fault Refusal := onEngine (peak Config.params s.draws) s

end Sys2Proof.Machine
end

