-- ==== Sys2Proof/Machine/Sweep.lean ====
section
/-! DEFINITION. The spectral phase sweep generator: `SWEEP` (41_sweep.md R142), `MIRROR` (R143) and `REALP` (R144). -/

namespace Sys2Proof.Machine

variable {ν : Type}

/-- `beta = (twoPi * d) / ofNat(P)` (R140). -/
def sweepBeta (N : Numerics ν) (P : Nat) (d : ν) : ν := N.div (N.mul N.twoPi d) (N.ofNat P)

/-- `rawAlpha = ceilInt( (beta * ofNat(NF*NF)) / twoPi )` (R140). -/
def sweepRawAlpha (N : Numerics ν) (P : Nat) (d : ν) : Int :=
  N.ceilInt (N.div (N.mul (sweepBeta N P d) (N.ofNat ((P / 2) * (P / 2)))) N.twoPi)

/-- `alpha = (ofInt(rawAlpha) * twoPi) / ofNat(NF) - beta * ofNat(NF)` (R140). -/
def sweepAlpha (N : Numerics ν) (P : Nat) (d : ν) : ν :=
  N.sub (N.div (N.mul (N.ofInt (sweepRawAlpha N P d)) N.twoPi) (N.ofNat (P / 2)))
    (N.mul (sweepBeta N P d) (N.ofNat (P / 2)))

/-- `phase(k) = alpha * ofNat(k) + beta * ofNat(k*k)` (R140). -/
def sweepPhase (N : Numerics ν) (P : Nat) (d : ν) (k : Nat) : ν :=
  N.add (N.mul (sweepAlpha N P d) (N.ofNat k)) (N.mul (sweepBeta N P d) (N.ofNat (k * k)))

/-- The half-spectrum bin `S[k] = exp(-i*phase(k))` (R142). -/
def sweepBin (N : Numerics ν) (P : Nat) (d : ν) (k : Nat) : Cx ν := phasor N (sweepPhase N P d k)

/-- The effect of `SWEEP vd`: the `NF + 1` bins `0..NF` are written (R142). -/
def sweepEffect (H : Params ν) (vd : VReg) (e : Engine ν) : Engine ν :=
  writeVec vd 0 (e.NF + 1) (sweepBin H.num e.P (H.num.ofF32 e.duty)) e

/-- `SWEEP vd` (R142). -/
def sweep (H : Params ν) (vd : VReg) (e : Engine ν) : Engine ν :=
  perform [(e.periodValid H, .invalidParameter), (e.dutyValid, .invalidParameter)] (sweepEffect H vd) e

/-- The meaning of `SWEEP` in the machine (R142). -/
def execSweep (vd : VReg) (s : State) : Host.Outcome State Fault Refusal :=
  onEngine (sweep Config.params vd) s

/-- The effect of `MIRROR vd`: `V[vd][k] <- conj(V[vd][P-k])` for `k = NF+1..P-1` (R143). -/
def mirrorEffect (H : Params ν) (d : Nat) (vd : VReg) (e : Engine ν) : Engine ν :=
  writeVec vd (e.NF + 1) (e.P - (e.NF + 1)) (fun k => conj H.num (readV H d .a e vd (e.P - k))) e

/-- `MIRROR vd` (R143). -/
def mirror (H : Params ν) (d : Nat) (vd : VReg) (e : Engine ν) : Engine ν :=
  perform [(e.periodValid H, .invalidParameter)] (mirrorEffect H d vd) e

/-- The meaning of `MIRROR` in the machine (R143). -/
def execMirror (vd : VReg) (s : State) : Host.Outcome State Fault Refusal :=
  onEngine (mirror Config.params s.draws vd) s

/-- The effect of `REALP va`: `RES[n] <- Re(V[va][n])` for `n = 0..P-1`, and `WNONFIN` if one of them is not finite
(R144). -/
def realpEffect (H : Params ν) (d : Nat) (va : VReg) (e : Engine ν) : Engine ν :=
  warnNonFin (someNonFinite H.num e.P (fun n => (readV H d .a e va n).re))
    (writeRes e.P (fun n => (readV H d .a e va n).re) e)

/-- `REALP va` (R144). -/
def realp (H : Params ν) (d : Nat) (va : VReg) (e : Engine ν) : Engine ν :=
  perform [(e.periodValid H, .invalidParameter)] (realpEffect H d va) e

/-- The meaning of `REALP` in the machine (R144). -/
def execRealp (va : VReg) (s : State) : Host.Outcome State Fault Refusal :=
  onEngine (realp Config.params s.draws va) s

end Sys2Proof.Machine
end

