-- ==== Sys2Proof/Machine/Transform.lean ====
section
/-! DEFINITION. The FFT/IFFT engine: `FFT` (40_transform.md R122) and `IFFT` (R123). -/

namespace Sys2Proof.Machine

variable {ν : Type}

/-- The effect of `FFT vd, va`: `V[vd][k] <- NUM.dft(P, V[va][0..P-1])[k]` for `k = 0..P-1` (R122). Where a source element was
never written the rule leaves the result undefined: the model transforms the free value and stores what results (DESIGN
CHOICE, log entry 25). -/
def fftEffect (H : Params ν) (d : Nat) (vd va : VReg) (e : Engine ν) : Engine ν :=
  writeVec vd 0 e.P (H.num.dft e.P (readVec H d .a e va e.P)) e

/-- `FFT vd, va` (R122). -/
def fft (H : Params ν) (d : Nat) (vd va : VReg) (e : Engine ν) : Engine ν :=
  perform [(e.periodValid H, .invalidParameter)] (fftEffect H d vd va) e

/-- The meaning of `FFT` in the machine (R122). -/
def execFft (vd va : VReg) (s : State) : Host.Outcome State Fault Refusal :=
  onEngine (fft Config.params s.draws vd va) s

/-- The effect of `IFFT vd, va`: `V[vd][n] <- NUM.idft(P, V[va][0..P-1])[n]` for `n = 0..P-1` (R123). Where a source element
was never written the result is undefined, as for `FFT`: the model transforms the free value and stores what results (DESIGN
CHOICE, log entry 25). -/
def ifftEffect (H : Params ν) (d : Nat) (vd va : VReg) (e : Engine ν) : Engine ν :=
  writeVec vd 0 e.P (H.num.idft e.P (readVec H d .a e va e.P)) e

/-- `IFFT vd, va` (R123). -/
def ifft (H : Params ν) (d : Nat) (vd va : VReg) (e : Engine ν) : Engine ν :=
  perform [(e.periodValid H, .invalidParameter)] (ifftEffect H d vd va) e

/-- The meaning of `IFFT` in the machine (R123). -/
def execIfft (vd va : VReg) (s : State) : Host.Outcome State Fault Refusal :=
  onEngine (ifft Config.params s.draws vd va) s

end Sys2Proof.Machine
end

