-- ==== Sys2Proof/Machine/Macro.lean ====
section
/-! DEFINITION. The sequencer: `NOP` (46_macro.md R210), `SYNTH` (R211) and `ESTIMATE` (R212). A macro performs the effects of
the primitives it names; their own checks are implied by the macro's (R211, R212), which is an obligation. -/

namespace Sys2Proof.Machine

variable {ν : Type}

/-- `NOP`: it completes, and changes nothing else (R210). -/
def nop (e : Engine ν) : Engine ν := perform [] id e

/-- The meaning of `NOP` in the machine (R210). -/
def execNop (s : State) : Host.Outcome State Fault Refusal := onEngine nop s

/-- The effect of `SYNTH`: `SWEEP V0; MIRROR V0; IFFT V0, V0; REALP V0` (R211). -/
def synthEffect (H : Params ν) (d : Nat) (e : Engine ν) : Engine ν :=
  realpEffect H d .v0 (ifftEffect H d .v0 .v0 (mirrorEffect H d .v0 (sweepEffect H .v0 e)))

/-- `SYNTH` (R211). -/
def synth (H : Params ν) (d : Nat) (e : Engine ν) : Engine ν :=
  perform [(e.periodValid H, .invalidParameter), (e.dutyValid, .invalidParameter)] (synthEffect H d) e

/-- The meaning of `SYNTH` in the machine (R211). -/
def execSynth (s : State) : Host.Outcome State Fault Refusal := onEngine (synth Config.params s.draws) s

/-- One pass of the loop of `ESTIMATE`, for block `b` (R212). -/
def estimateBlock (H : Params ν) (d : Nat) (e : Engine ν) (b : Nat) : Engine ν :=
  accrEffect H d .v2
    (ifftEffect H d .v2 .v2
      (cdivEffect H d .v2 .v1 .v0
        (fftEffect H d .v1 .v1
          (fftEffect H d .v0 .v0
            (ldblkEffect H d b .v1 .ch1
              (ldblkEffect H d b .v0 .ch0 e))))))

/-- The passes over the blocks listed, in the order listed (R212, R188). -/
def estimateBlocks (H : Params ν) (d : Nat) (bs : List Nat) (e : Engine ν) : Engine ν :=
  bs.foldl (estimateBlock H d) e

/-- The number of blocks `ESTIMATE` analyses (R160). -/
def Engine.blocks (e : Engine ν) : Nat := numBlocks e.recLen.toNat e.P

/-- The effect of `ESTIMATE` with the blocks taken in the order `bs`: `NBLK`, `ACLR`, the passes, `AVG`, `PEAK` (R212). -/
def estimateOrder (H : Params ν) (d : Nat) (bs : List Nat) (e : Engine ν) : Engine ν :=
  peakEffect H d (avgEffect H d (estimateBlocks H d bs (aclrEffect H { e with nBlk := BitVec.ofNat 32 e.blocks })))

/-- The effect of `ESTIMATE`: the blocks in ascending order (R212, R188, R69). -/
def estimateEffect (H : Params ν) (d : Nat) (e : Engine ν) : Engine ν :=
  estimateOrder H d (List.range e.blocks) e

/-- `ESTIMATE` (R212). -/
def estimate (H : Params ν) (d : Nat) (e : Engine ν) : Engine ν :=
  perform
    [(e.periodValid H, .invalidParameter), (e.sRateValid, .invalidParameter), (e.recLenValid H, .invalidParameter),
      (e.divFloorValid, .invalidParameter), (decide (1 ≤ e.blocks), .insufficientData)]
    (estimateEffect H d) e

/-- The meaning of `ESTIMATE` in the machine (R212). -/
def execEstimate (s : State) : Host.Outcome State Fault Refusal := onEngine (estimate Config.params s.draws) s

end Sys2Proof.Machine
end

