-- ==== Sys2Proof/Machine/Effects.lean ====
section
/-! DEFINITION. What each command reads and writes: the table of 10_state.md R49, over the pieces of state a command can name.
Soft reset while busy (70_reset_and_hazards.md R281) uses the write sets. The read sets serve the statements. `command` runs a
command on the engine at any number type; the machine's `exec` is it at `Config.params` (`exec_eq_command`). -/

namespace Sys2Proof.Machine

variable {ν : Type}

/-- A piece of the engine's state: a register slot, `DELAY_MS`, an element of a buffer, a byte of `REC` (R20, R60). -/
inductive Piece where
  | csr (i : Slot)
  | delayMs
  | vec (j : VReg) (k : Nat)
  | acc (n : Nat)
  | res (n : Nat)
  | byte (a : Nat)
  deriving DecidableEq, Repr

/-- `k` is one of `lo .. lo+n-1`. -/
def within (lo n k : Nat) : Bool := decide (lo ≤ k) && decide (k < lo + n)

/-- The write set of a command that does not fault, for the period `P` (R49). The bits of `STATUS` are told apart in the
statements; here the slot as a whole is written by every command. -/
def mayWrite (P : Nat) : Instr → Piece → Bool
  | _, .csr .status => true
  | .ldblk vd _, .vec j k => j == vd && within 0 P k
  | .fft vd _, .vec j k => j == vd && within 0 P k
  | .ifft vd _, .vec j k => j == vd && within 0 P k
  | .sweep vd, .vec j k => j == vd && within 0 (P / 2 + 1) k
  | .mirror vd, .vec j k => j == vd && within (P / 2 + 1) (P - (P / 2 + 1)) k
  | .realp _, .res n => within 0 P n
  | .cdiv vd _ _, .vec j k => j == vd && within 0 P k
  | .cdiv _ _ _, .csr i => i == .degenCnt
  | .aclr, .acc n => within 0 P n
  | .aclr, .csr i => i == .accCnt || i == .degenCnt
  | .accr _, .acc n => within 0 P n
  | .accr _, .csr i => i == .accCnt
  | .avg, .res n => within 0 P n
  | .peak, .csr i => i == .peakIdx
  | .peak, .delayMs => true
  | .synth, .vec j k => j == .v0 && within 0 P k
  | .synth, .res n => within 0 P n
  | .estimate, .vec j k => j != .v3 && within 0 P k
  | .estimate, .acc n => within 0 P n
  | .estimate, .res n => within 0 P n
  | .estimate, .csr i => i == .nBlk || i == .accCnt || i == .degenCnt || i == .peakIdx
  | .estimate, .delayMs => true
  | _, _ => false

/-- The byte `a` belongs to a sample of channel `ch` of a pair `i` with `lo <= i < lo+n` (R61). -/
def sampleByte (lo n : Nat) (ch : Channel) (a : Nat) : Bool :=
  within lo n (a / 8) && (a % 8 / 4 == Channel.index ch)

/-- The read set of a command in state `e` (R49), for a command that passes its checks. One entry is added to R49's table:
`CDIV` reads `DEGEN_CNT`, which it increments (R173; DEDUCED, log entry 26). -/
def mayRead (e : Engine ν) : Instr → Piece → Bool
  | .nop, _ => false
  | _, .csr .period => true
  | .ldblk _ _, .csr i => i == .recLen || i == .blk
  | .ldblk _ ch, .byte a => sampleByte (firstPair e.P e.blk.toNat) e.P ch a
  | .fft _ va, .vec j k => j == va && within 0 e.P k
  | .ifft _ va, .vec j k => j == va && within 0 e.P k
  | .sweep _, .csr i => i == .duty
  | .mirror vd, .vec j k => j == vd && within 1 (e.NF - 1) k
  | .realp va, .vec j k => j == va && within 0 e.P k
  | .cdiv _ va vb, .vec j k => (j == va || j == vb) && within 0 e.P k
  | .cdiv _ _ _, .csr i => i == .divFloor || i == .degenCnt
  | .accr va, .vec j k => j == va && within 0 e.P k
  | .accr _, .acc n => within 0 e.P n
  | .accr _, .csr i => i == .accCnt
  | .avg, .acc n => within 0 e.P n
  | .avg, .csr i => i == .accCnt
  | .peak, .res n => within 0 e.P n
  | .peak, .csr i => i == .sRate
  | .synth, .csr i => i == .duty
  | .estimate, .csr i => i == .sRate || i == .recLen || i == .divFloor
  | .estimate, .byte a => within (2 * e.P) (e.blocks * e.P) (a / 8)
  | _, _ => false

/-- A command on the engine, at any number type: its whole rule, faults and completion included (R96). -/
def command (H : Params ν) (d : Nat) (i : Instr) (e : Engine ν) : Engine ν :=
  match i with
  | .nop => nop e
  | .ldblk vd ch => ldblk H d vd ch e
  | .fft vd va => fft H d vd va e
  | .ifft vd va => ifft H d vd va e
  | .sweep vd => sweep H vd e
  | .mirror vd => mirror H d vd e
  | .cdiv vd va vb => cdiv H d vd va vb e
  | .aclr => aclr H e
  | .accr va => accr H d va e
  | .avg => avg H d e
  | .realp va => realp H d va e
  | .peak => peak H d e
  | .synth => synth H d e
  | .estimate => estimate H d e

/-- The completing step of the engine, at any number type: decode `CMDLATCH`, then the command or `IllegalCommand`
(R96, R283). -/
def completeEngine (H : Params ν) (d : Nat) (e : Engine ν) : Engine ν :=
  match decode (fetch e) with
  | .ok i => command H d i e
  | .error _ => raise .illegalCommand e

end Sys2Proof.Machine
end

