-- ==== Sys2Proof/Machine/HostPort.lean ====
section
/-! DEFINITION. The host's side: hardware reset (70_reset_and_hazards.md R280), soft reset (R281), and the effect and the reply
of every host action, idle and busy (20_memory.md R67, R284, R285). -/

namespace Sys2Proof.Machine

variable {ν : Type}

/-! ### Reset -/

/-- Hardware reset: every register at its reset value, every buffer element unspecified (R280, R46, R47). -/
def hardReset (H : Params ν) (_ : Engine ν) : Engine ν := Engine.reset H.num.zero

/-- A piece that the command in progress could write, so that discarding the command leaves it unspecified: the write
set of R49 for the latched word and the period, none when the engine is idle or the word is illegal (R281). -/
def discarded (e : Engine ν) (p : Piece) : Bool :=
  e.busy &&
    match decode (fetch e) with
    | .ok i => mayWrite e.P i p
    | .error _ => false

/-- Soft reset: the registers as after hardware reset; the buffers keep their contents but for what a discarded command
could write; `REC` is kept (R281). -/
def softReset (H : Params ν) (e : Engine ν) : Engine ν :=
  { Engine.reset H.num.zero with
    v0 := forget (fun k => discarded e (.vec .v0 k)) e.v0
    v1 := forget (fun k => discarded e (.vec .v1 k)) e.v1
    v2 := forget (fun k => discarded e (.vec .v2 k)) e.v2
    v3 := forget (fun k => discarded e (.vec .v3 k)) e.v3
    acc := forget (fun n => discarded e (.acc n)) e.acc
    res := forget (fun n => discarded e (.res n)) e.res
    recording := e.recording }

/-! ### The register slots (R23, R65) -/

/-- The number of a slot (R23). -/
def Slot.number : Slot → Nat
  | .ctrl => 0
  | .status => 1
  | .err => 2
  | .errCmd => 3
  | .cmd => 4
  | .period => 5
  | .duty => 6
  | .sRate => 7
  | .recLen => 8
  | .blk => 9
  | .divFloor => 10
  | .nBlk => 11
  | .accCnt => 12
  | .degenCnt => 13
  | .peakIdx => 14
  | .reserved => 15

/-- The slot with number `n`, for `n` from 0 to 15 (R23). -/
def slotOfNat (n : Nat) : Slot :=
  match n with
  | 0 => .ctrl
  | 1 => .status
  | 2 => .err
  | 3 => .errCmd
  | 4 => .cmd
  | 5 => .period
  | 6 => .duty
  | 7 => .sRate
  | 8 => .recLen
  | 9 => .blk
  | 10 => .divFloor
  | 11 => .nBlk
  | 12 => .accCnt
  | 13 => .degenCnt
  | 14 => .peakIdx
  | _ => .reserved

/-- `x[i]` as the host reads it: slot 4 (`CMD`) and slot 15 read 0 (R23, R28). -/
def readSlot (e : Engine ν) (i : Slot) : Word :=
  match i with
  | .ctrl => e.ctrl
  | .status => e.status
  | .err => e.err
  | .errCmd => e.errCmd
  | .cmd => 0#32
  | .period => e.period
  | .duty => e.duty
  | .sRate => e.sRate
  | .recLen => e.recLen
  | .blk => e.blk
  | .divFloor => e.divFloor
  | .nBlk => e.nBlk
  | .accCnt => e.accCnt
  | .degenCnt => e.degenCnt
  | .peakIdx => e.peakIdx
  | .reserved => 0#32

/-- The slots a busy read answers with an unspecified word: `NBLK`, `ACC_CNT`, `DEGEN_CNT`, `PEAK_IDX` (R67, R285). -/
def resultSlot (i : Slot) : Bool := i == .nBlk || i == .accCnt || i == .degenCnt || i == .peakIdx

/-- A write dropped while busy, with `REJ` set (R284). -/
def whenIdle (f : Engine ν → Engine ν) (e : Engine ν) : Engine ν := if e.busy then reject e else f e

/-- A write to `CTRL`: with bit 31 (`SRST`) set it is the soft reset and its other bits are ignored (R24, R281). -/
def writeCtrl (H : Params ν) (w : Word) (e : Engine ν) : Engine ν :=
  if w.getLsbD 31 then softReset H e else writeEnables w e

/-- A write to `CMD`: accepted if the engine is idle and no fault is outstanding, else dropped with `REJ` (R28, R249). -/
def writeCmd (w : Word) (e : Engine ν) : Engine ν := if !e.busy && e.code == 0 then accept w e else reject e

/-- `HostWriteCsr(i, w)` (R67): read-only slots and slot 15 ignore it without `REJ` (R23). -/
def writeSlot (H : Params ν) (i : Slot) (w : Word) (e : Engine ν) : Engine ν :=
  match i with
  | .ctrl => writeCtrl H w e
  | .status => clearStatus w e
  | .err => clearErr e
  | .errCmd => e
  | .cmd => writeCmd w e
  | .period => whenIdle (fun e => { e with period := w }) e
  | .duty => whenIdle (fun e => { e with duty := w }) e
  | .sRate => whenIdle (fun e => { e with sRate := w }) e
  | .recLen => whenIdle (fun e => { e with recLen := w }) e
  | .blk => whenIdle (fun e => { e with blk := w }) e
  | .divFloor => whenIdle (fun e => { e with divFloor := w }) e
  | .nBlk => e
  | .accCnt => e
  | .degenCnt => e
  | .peakIdx => e
  | .reserved => e

/-! ### The actions -/

/-- The action exists: its index is in range (R67: indices outside the stated ranges are not actions of the host). -/
def actionExists (H : Params ν) : HostAction ν → Bool
  | .readCsr _ => true
  | .writeCsr _ _ => true
  | .readRec i _ => decide (i < H.recCap)
  | .writeRec i _ _ => decide (i < H.recCap)
  | .readV _ k => decide (k < H.pMax)
  | .writeV _ k _ => decide (k < H.pMax)
  | .readAcc n => decide (n < H.pMax)
  | .writeAcc n _ => decide (n < H.pMax)
  | .readRes n => decide (n < H.pMax)
  | .writeRes n _ => decide (n < H.pMax)
  | .readDelayMs => true

/-- The effect of an action on the engine (R67). Reads have none (R64). -/
def actionEffect (H : Params ν) (a : HostAction ν) (e : Engine ν) : Engine ν :=
  match a with
  | .readCsr _ => e
  | .writeCsr i w => writeSlot H i w e
  | .readRec _ _ => e
  | .writeRec i c w => whenIdle (memWrite (sampleAddr i c) w) e
  | .readV _ _ => e
  | .writeV j k z => whenIdle (fun e => setVreg j (store k z (e.vreg j)) e) e
  | .readAcc _ => e
  | .writeAcc n x => whenIdle (fun e => { e with acc := store n x e.acc }) e
  | .readRes _ => e
  | .writeRes n x => whenIdle (fun e => { e with res := store n x e.res }) e
  | .readDelayMs => e

/-- What an action returns; a write returns nothing (R67). While busy the results and buffers answer with a fresh free
value (R285, 93_implementation_defined.md U3, log entry 5). -/
def actionReply (H : Params ν) (d : Nat) (e : Engine ν) : HostAction ν → Reply ν
  | .readCsr i => .word (if e.busy && resultSlot i then H.free.word d else readSlot e i)
  | .writeCsr _ _ => .none
  | .readRec i c => .word (memRead H d e (sampleAddr i c))
  | .writeRec _ _ _ => .none
  | .readV j k => .cx (if e.busy then H.free.cx d .host j k else readV H d .host e j k)
  | .writeV _ _ _ => .none
  | .readAcc n => .num (if e.busy then H.free.num d .acc n else readAcc H d e n)
  | .writeAcc _ _ => .none
  | .readRes n => .num (if e.busy then H.free.num d .res n else readRes H d e n)
  | .writeRes _ _ => .none
  | .readDelayMs => .num (if e.busy then H.free.num d .delayMs 0 else e.delayMs)

/-- The host's read data after an action: a read replaces it, a write leaves it. -/
def replyAfter (r old : Reply ν) : Reply ν :=
  match r with
  | .none => old
  | r => r

/-- A host action in the machine: one atomic step of the host (R67). -/
def hostAct (a : HostAction NumVal) (s : State) : Host.Outcome State Fault Refusal :=
  if actionExists Config.params a then
    .next { s with
      toEngine := actionEffect Config.params a s.toEngine
      reply := replyAfter (actionReply Config.params s.draws s.toEngine a) s.reply }
  else .fault .noSuchElement

end Sys2Proof.Machine
end

