-- ==== Sys2Proof/Machine/Bus.lean ====
section
/-! DEFINITION. The address map and the element windows (20_memory.md R65, R66): the bus as one realisation of the host actions
of R67. -/

namespace Sys2Proof.Machine

variable {ν : Type}

/-- What a word-aligned offset from `BASE` addresses (R65). `t` is the word of the element's bus image, least significant
first (R62, R66). -/
inductive Target where
  | csr (i : Slot)
  | delayMs (t : Nat)
  | res (n t : Nat)
  | acc (n t : Nat)
  | vec (j : VReg) (k : Nat) (imag : Bool) (t : Nat)
  | sample (i : Nat) (c : Channel)
  | hole
  deriving DecidableEq, Repr

/-- The register with number `n`. -/
def vregOfNat (n : Nat) : VReg :=
  match n with
  | 0 => .v0
  | 1 => .v1
  | 2 => .v2
  | _ => .v3

/-- The number of a vector register in the map (R65). -/
def VReg.index : VReg → Nat
  | .v0 => 0
  | .v1 => 1
  | .v2 => 2
  | .v3 => 3

/-- The row of R65's table that covers offset `o`, and the element and word in it. -/
def locate (H : Params ν) (o : Nat) : Target :=
  let ew := H.num.ew
  let szr := 4 * ew * H.pMax
  let szc := 2 * szr
  if o < 64 then .csr (slotOfNat (o / 4))
  else if within 0x40 (4 * ew) o then .delayMs ((o - 0x40) / 4)
  else if within H.map.offRes szr o then .res ((o - H.map.offRes) / (4 * ew)) ((o - H.map.offRes) % (4 * ew) / 4)
  else if within H.map.offAcc szr o then .acc ((o - H.map.offAcc) / (4 * ew)) ((o - H.map.offAcc) % (4 * ew) / 4)
  else if within H.map.offV (4 * szc) o then
    let r := o - H.map.offV
    .vec (vregOfNat (r / szc)) (r % szc / (8 * ew)) (decide (4 * ew ≤ r % szc % (8 * ew)))
      (r % szc % (8 * ew) % (4 * ew) / 4)
  else if within H.map.offRec (8 * H.recCap) o then
    .sample ((o - H.map.offRec) / 8) (if (o - H.map.offRec) % 8 < 4 then .ch0 else .ch1)
  else .hole

/-- Word `t` of the bus image of a number: bits `32*t+31 : 32*t` (R66). -/
def sliceOf (N : Numerics ν) (t : Nat) (x : ν) : Word := (N.enc x).extractLsb' (32 * t) 32

/-- The bus image `b` with word `t` replaced by `w` (R66). -/
def spliceImage {n : Nat} (t : Nat) (w : Word) (b : BitVec n) : BitVec n :=
  (b &&& ~~~((BitVec.allOnes 32).setWidth n <<< (32 * t))) ||| (w.setWidth n <<< (32 * t))

/-- The number after a bus write of word `t` of its image: `NUM.dec` of the new image (R66). -/
def splice (N : Numerics ν) (t : Nat) (w : Word) (x : ν) : ν := N.dec (spliceImage t w (N.enc x))

/-- A part of a complex number. -/
def partOf (imag : Bool) (z : Cx ν) : ν := if imag then z.im else z.re

/-- A complex number with one part replaced. -/
def withPart (imag : Bool) (x : ν) (z : Cx ν) : Cx ν := if imag then ⟨z.re, x⟩ else ⟨x, z.im⟩

/-- What a bus read of a target returns. A hole reads 0; while busy an element window answers with a free value
(R65, R66, R285). -/
def busRead (H : Params ν) (d : Nat) (e : Engine ν) : Target → Word
  | .csr i => if e.busy && resultSlot i then H.free.word d else readSlot e i
  | .delayMs t => if e.busy then H.free.word d else sliceOf H.num t e.delayMs
  | .res n t => if e.busy then H.free.word d else sliceOf H.num t (readRes H d e n)
  | .acc n t => if e.busy then H.free.word d else sliceOf H.num t (readAcc H d e n)
  | .vec j k imag t => if e.busy then H.free.word d else sliceOf H.num t (partOf imag (readV H d .host e j k))
  | .sample i c => memRead H d e (sampleAddr i c)
  | .hole => 0#32

/-- The host action a bus write of `w` to a target is (R66, R67): none for a hole, and none for `DELAY_MS`, which has no
host write (R67) and which only `PEAK` writes (R39; DEDUCED against R66, log entry 12). -/
def busWrite (H : Params ν) (d : Nat) (w : Word) (e : Engine ν) : Target → Option (HostAction ν)
  | .csr i => some (.writeCsr i w)
  | .delayMs _ => none
  | .res n t => some (.writeRes n (splice H.num t w (readRes H d e n)))
  | .acc n t => some (.writeAcc n (splice H.num t w (readAcc H d e n)))
  | .vec j k imag t =>
    let z := readV H d .host e j k
    some (.writeV j k (withPart imag (splice H.num t w (partOf imag z)) z))
  | .sample i c => some (.writeRec i c w)
  | .hole => none

/-- What a bus write of `w` to a target does to the engine: the host action it is, if there is one. A hole and the read-only
`DELAY_MS` ignore it, idle and busy, without `REJ` (R65, R66, R67; R23; log entry 12). -/
def busEffect (H : Params ν) (d : Nat) (w : Word) (t : Target) (e : Engine ν) : Engine ν :=
  match busWrite H d w e t with
  | none => e
  | some a => actionEffect H a e

/-- What a bus access addresses (R65). -/
def busTarget (b : BusAccess) : Target := locate Config.params (b.addr - Config.params.map.base)

/-- A bus access in the machine (R63, R65). -/
def busAct (b : BusAccess) (s : State) : Host.Outcome State Fault Refusal :=
  if b.bytes ≠ 4 ∨ b.addr % 4 ≠ 0 then .refused .unsupportedAccess
  else if b.addr < Config.params.map.base then .refused .outsideInterface
  else
    match b.write with
    | none => .next { s with reply := .word (busRead Config.params s.draws s.toEngine (busTarget b)) }
    | some w => .next { s with toEngine := busEffect Config.params s.draws w (busTarget b) s.toEngine }

end Sys2Proof.Machine
end

