-- ==== Sys2Proof/Machine/Dispatch.lean ====
section
/-! DEFINITION. The meaning of every command: one arm per constructor (30_encoding.md R96, "perform the rule named in row.rule"). -/

namespace Sys2Proof.Machine

def exec (i : Instr) (s : State) : Host.Outcome State Fault Refusal :=
  match i with
  | .nop => Sys2Proof.Machine.execNop s
  | .ldblk vd ch => Sys2Proof.Machine.execLdblk vd ch s
  | .fft vd va => Sys2Proof.Machine.execFft vd va s
  | .ifft vd va => Sys2Proof.Machine.execIfft vd va s
  | .sweep vd => Sys2Proof.Machine.execSweep vd s
  | .mirror vd => Sys2Proof.Machine.execMirror vd s
  | .cdiv vd va vb => Sys2Proof.Machine.execCdiv vd va vb s
  | .aclr => Sys2Proof.Machine.execAclr s
  | .accr va => Sys2Proof.Machine.execAccr va s
  | .avg => Sys2Proof.Machine.execAvg s
  | .realp va => Sys2Proof.Machine.execRealp va s
  | .peak => Sys2Proof.Machine.execPeak s
  | .synth => Sys2Proof.Machine.execSynth s
  | .estimate => Sys2Proof.Machine.execEstimate s

end Sys2Proof.Machine
end

