-- ==== Sys2Proof/Machine/Program.lean ====
section
/-! DEFINITION. Host programs in the notation of 30_encoding.md R99: the schedule of events a program expands to, and its
encoding as a list of word writes under 20_memory.md R65. -/

namespace Sys2Proof.Machine

/-- A line of a host program (R99). -/
inductive Line where
  /-- `WR name, value`. -/
  | wr (i : Slot) (value : Word)
  /-- `RD name`. -/
  | rd (i : Slot)
  /-- A bare mnemonic line: the command word is written to `CMD`, then `WAIT`. -/
  | cmd (c : Instr)
  /-- A command word that need not be legal, then `WAIT`. -/
  | word (w : Word)
  /-- `WAIT`: read `STATUS` until `BUSY` reads 0. -/
  | wait
  /-- `REC[i] = (a, b)`, binary32 patterns. -/
  | pair (i : Nat) (a b : Word)
  deriving DecidableEq, Repr

/-- `WAIT` as a schedule: the engine moves, then the host's poll of `STATUS` reads `BUSY = 0` (log entry 6). -/
def waitEvents {ν : Type} : List (Event ν) := [.engine, .host (.readCsr .status)]

/-- The events of a line (R99). -/
def Line.events {ν : Type} : Line → List (Event ν)
  | .wr i v => [.host (.writeCsr i v)]
  | .rd i => [.host (.readCsr i)]
  | .cmd c => .host (.writeCsr .cmd (encode c)) :: waitEvents
  | .word w => .host (.writeCsr .cmd w) :: waitEvents
  | .wait => waitEvents
  | .pair i a b => [.host (.writeRec i .ch0 a), .host (.writeRec i .ch1 b)]

/-- The schedule of a program (R99). -/
def programEvents {ν : Type} (p : List Line) : List (Event ν) := p.flatMap Line.events

/-- The word writes of a line as (offset, data) (R99, R65). -/
def Line.writes (m : AddressMap) : Line → List (Nat × Word)
  | .wr i v => [(4 * i.number, v)]
  | .rd _ => []
  | .cmd c => [(0x10, encode c)]
  | .word w => [(0x10, w)]
  | .wait => []
  | .pair i a b => [(m.offRec + 8 * i, a), (m.offRec + 8 * i + 4, b)]

/-- The encoding of a program (R99). -/
def programWrites (m : AddressMap) (p : List Line) : List (Nat × Word) := p.flatMap (Line.writes m)

end Sys2Proof.Machine
end

