-- ==== Sys2Proof/Machine/Step.lean ====
section
/-! DEFINITION. One step of the machine: the move at the head of the script, or the engine's move when nothing is scheduled
(00_scope.md R18, 70_reset_and_hazards.md R283, R291). -/

namespace Sys2Proof.Machine

/-- The engine's move: enabled whenever `BUSY = 1`, it completes the command in `CMDLATCH` (R283); idle, nothing
happens. -/
def engineMove (s : State) : Host.Outcome State Fault Refusal :=
  if s.busy then
    match decode (fetch s.toEngine) with
    | .ok i => exec i s
    | .error _ => execIllegal s
  else .next s

/-- One step. The draw counter advances in every step that is scheduled or completes a command (log entry 5). -/
def step (s : State) : Host.Outcome State Fault Refusal :=
  match s.script with
  | [] => if s.busy then engineMove { s with draws := s.draws + 1 } else .next s
  | .engine :: rest => engineMove { s with script := rest, draws := s.draws + 1 }
  | .host a :: rest => hostAct a { s with script := rest, draws := s.draws + 1 }
  | .bus b :: rest => busAct b { s with script := rest, draws := s.draws + 1 }
  | .rst :: rest =>
    .next { s with toEngine := hardReset Config.params s.toEngine, script := rest, draws := s.draws + 1 }

/-- The machine with the command word `w` accepted (R28: latched, `BUSY <- 1`, `DONE <- 0`) and the engine to move next,
so that the very next step decodes and performs exactly it (log entry 8). -/
def State.withFetchWord (s : State) (nbits w : Nat) : State :=
  { s with
    toEngine := accept (BitVec.ofNat 32 (w % 2 ^ nbits)) s.toEngine
    script := .engine :: s.script }

end Sys2Proof.Machine
end

