-- ==== Sys2Proof/Machine/Binary64.lean ====
section
/-! DEFINITION. The recommended hardware instance `NUM_B64` (00_scope.md R13): IEEE 754 binary64 with correctly rounded `add`,
`sub`, `mul`, `div`, `ofNat`, `ofInt`, an exact `ofF32`, the quiet `lt`, and the interchange encoding on the bus. What R13
leaves to the implementation is the record `B64Library`. The machine's step does not use this file; it is one instance of
the generic engine. -/

namespace Sys2Proof.Machine

/-- A binary64 datum in its interchange encoding (R13). -/
abbrev B64 := BitVec 64

namespace B64

/-- Bit 63. -/
def sign (x : B64) : Bool := x.getLsbD 63
/-- Bits 62:52. -/
def expo (x : B64) : Nat := (x.extractLsb 62 52).toNat
/-- Bits 51:0. -/
def frac (x : B64) : Nat := (x.extractLsb 51 0).toNat
/-- An exponent of 2047 with a fraction. -/
def isNaN (x : B64) : Bool := expo x == 2047 && frac x != 0
/-- An exponent of 2047 without a fraction. -/
def isInf (x : B64) : Bool := expo x == 2047 && frac x == 0
/-- Any other exponent. -/
def finite (x : B64) : Bool := expo x != 2047
/-- A zero of either sign. -/
def isZero (x : B64) : Bool := expo x == 0 && frac x == 0

/-- The sign as bit 63. -/
def signBit (s : Bool) : B64 := if s then 0x8000000000000000#64 else 0#64
/-- The infinity of a sign. -/
def inf (s : Bool) : B64 := signBit s ||| 0x7FF0000000000000#64
/-- The quiet NaN of a sign and a payload: an exponent of 2047 and bit 51 set. -/
def quietNaN (s : Bool) (payload : BitVec 51) : B64 := signBit s ||| 0x7FF8000000000000#64 ||| payload.setWidth 64
/-- The magnitude of a finite datum: `frac * 2^-1074` for exponent 0, else `2^(expo-1075) * (2^52 + frac)`. -/
def magnitude (x : B64) : ℚ :=
  if expo x = 0 then (frac x : ℚ) / 2 ^ 1074 else ((2 ^ 52 + frac x : Nat) : ℚ) * 2 ^ expo x / 2 ^ 1075
/-- The value of a finite datum. -/
def value (x : B64) : ℚ := if sign x then -magnitude x else magnitude x

/-- The integer nearest `n / d`, ties to even. -/
def nearestEven (n d : Nat) : Nat :=
  let q := n / d
  let r := n % d
  if 2 * r < d then q else if 2 * r > d then q + 1 else q + q % 2

/-- The exponent `e` of the last place for the positive rational `n / d`: the least `e >= -1074` for which
`n/d < 2^(e+53)`. -/
def lastPlace (n d : Nat) : Int :=
  let e : Int := (n.log2 : Int) - (d.log2 : Int) - 52
  let small := if 0 ≤ e then n < d * 2 ^ (52 + e.toNat) else n * 2 ^ (-e).toNat < d * 2 ^ 52
  max (-1074) (if small then e - 1 else e)

/-- The datum nearest the positive rational `n / d`, ties to even, with the given sign; a value too large is an infinity. -/
def roundMagnitude (s : Bool) (n d : Nat) : B64 :=
  let e := lastPlace n d
  let m := if 0 ≤ e then nearestEven n (d * 2 ^ e.toNat) else nearestEven (n * 2 ^ (-e).toNat) d
  let bits := (e + 1074).toNat * 2 ^ 52 + m
  if 0x7FF0000000000000 ≤ bits then inf s else signBit s ||| BitVec.ofNat 64 bits

/-- Round to nearest, ties to even; `zeroSign` is the sign of an exact zero. -/
def round (zeroSign : Bool) (q : ℚ) : B64 :=
  if q = 0 then signBit zeroSign else roundMagnitude (decide (q < 0)) q.num.natAbs q.den

/-- Negation: the sign bit is flipped. -/
def neg (x : B64) : B64 := x ^^^ 0x8000000000000000#64
/-- Absolute value: the sign bit is cleared. -/
def abs (x : B64) : B64 := x &&& 0x7FFFFFFFFFFFFFFF#64

/-- Addition; `nan` is the result of an invalid operation or of a NaN operand. An exact zero sum is plus zero unless both
operands are minus zero. -/
def add (nan x y : B64) : B64 :=
  if isNaN x || isNaN y then nan
  else if isInf x then (if isInf y && sign x != sign y then nan else x)
  else if isInf y then y
  else round (sign x && sign y) (value x + value y)

/-- Subtraction. -/
def sub (nan x y : B64) : B64 := if isNaN y then nan else add nan x (neg y)

/-- Multiplication. -/
def mul (nan x y : B64) : B64 :=
  if isNaN x || isNaN y then nan
  else if isInf x || isInf y then (if isZero x || isZero y then nan else inf (sign x != sign y))
  else round (sign x != sign y) (value x * value y)

/-- Division. -/
def div (nan x y : B64) : B64 :=
  if isNaN x || isNaN y then nan
  else if isInf x then (if isInf y then nan else inf (sign x != sign y))
  else if isInf y then signBit (sign x != sign y)
  else if isZero y then (if isZero x then nan else inf (sign x != sign y))
  else round (sign x != sign y) (value x / value y)

/-- The quiet less-than: false whenever an operand is a NaN (R11). -/
def lt (x y : B64) : Bool :=
  if isNaN x || isNaN y then false
  else if isInf x then sign x && !(isInf y && sign y)
  else if isInf y then !sign y
  else decide (value x < value y)

/-- The binary64 datum of a binary32 pattern: exact for a finite pattern (R162), an infinity for an infinity, `nan` for a
NaN. -/
def ofF32 (nan : B64) (w : Word) : B64 :=
  if f32Finite w then round (f32Sign w) (f32val w)
  else if f32Frac w = 0 then inf (f32Sign w) else nan

end B64

/-- What R13 leaves open: the library functions, the sign and the payload of the quiet NaN an operation returns, and `ceilInt`
of a datum that is not finite. -/
structure B64Library where
  cos : B64 → B64
  sin : B64 → B64
  dft : Nat → List (Cx B64) → Nat → Cx B64
  idft : Nat → List (Cx B64) → Nat → Cx B64
  cdiv : Cx B64 → Cx B64 → Cx B64
  nanSign : Bool
  nanPayload : BitVec 51
  ceilNonFinite : B64 → Int

/-- The NaN an operation returns: whatever its sign and payload, a quiet NaN (PRESUMED, IEEE 754, log entry 11). -/
def B64Library.nan (L : B64Library) : B64 := B64.quietNaN L.nanSign L.nanPayload

/-- `NUM_B64` (R13). `twoPi` is the binary64 datum nearest `2*pi` (PRESUMED, log entry 11). -/
def b64Num (L : B64Library) : Numerics B64 where
  zero := 0#64
  one := B64.round false 1
  twoPi := 0x401921FB54442D18#64
  ofNat n := B64.round false n
  ofInt i := B64.round false i
  ofF32 := B64.ofF32 L.nan
  add := B64.add L.nan
  sub := B64.sub L.nan
  mul := B64.mul L.nan
  div := B64.div L.nan
  neg := B64.neg
  abs := B64.abs
  lt := B64.lt
  isFinite := B64.finite
  ceilInt x := if B64.finite x then ⌈B64.value x⌉ else L.ceilNonFinite x
  cos := L.cos
  sin := L.sin
  dft := L.dft
  idft := L.idft
  cdiv := L.cdiv
  ew := 2
  enc x := x
  dec x := x

end Sys2Proof.Machine
end

