-- ==== Sys2Proof/Machine/Exact.lean ====
section
/-! DEFINITION. The reference instance `NUM_EXACT` (00_scope.md R12): the real numbers, every field its reference meaning (R11,
R120, R121, R171). It is no part of the machine's step; the statements about exact results are made in it. -/

namespace Sys2Proof.Machine

/-- A pair as a complex number. -/
def toC (z : Cx ℝ) : ℂ := ⟨z.re, z.im⟩

/-- A complex number as a pair. -/
def ofC (z : ℂ) : Cx ℝ := ⟨z.re, z.im⟩

/-- The kernel `exp(c * 2*pi*i*n*k/N)` with `c = -1` (forward) or `c = 1` (inverse). -/
noncomputable def kernel (c : ℂ) (N n k : Nat) : ℂ :=
  Complex.exp (c * (2 * Real.pi * Complex.I * n * k / N))

/-- Element `n` of a listed sequence as a complex number. -/
def element (x : List (Cx ℝ)) (n : Nat) : ℂ := toC (x.getD n ⟨0, 0⟩)

/-- The forward transform (R120): no scale factor. -/
noncomputable def exactDft (N : Nat) (x : List (Cx ℝ)) (k : Nat) : Cx ℝ :=
  ofC (∑ n ∈ Finset.range N, element x n * kernel (-1) N n k)

/-- The inverse transform (R121): the factor `1/N`. -/
noncomputable def exactIdft (N : Nat) (X : List (Cx ℝ)) (n : Nat) : Cx ℝ :=
  ofC ((1 / (N : ℂ)) * ∑ k ∈ Finset.range N, element X k * kernel 1 N n k)

/-- `NUM_EXACT` (R12). `undef` answers `ofF32` of a non-finite pattern, which has no real value: a claim holds for every
`undef`, or assumes finite patterns (R12, 93_implementation_defined.md U12). `enc` is not needed: it is 0 bits wide. R11 and
R171 give `div` and `cdiv` no value for a zero divisor: here it is 0, Lean's convention, which no command reads, since every
command divides by something positive or tests the divisor first (DESIGN CHOICE, log entry 24). -/
noncomputable def exactNum (undef : Word → ℝ) : Numerics ℝ where
  zero := 0
  one := 1
  twoPi := 2 * Real.pi
  ofNat n := n
  ofInt i := i
  ofF32 w := if f32Finite w then ((f32val w : ℚ) : ℝ) else undef w
  add x y := x + y
  sub x y := x - y
  mul x y := x * y
  div x y := x / y
  neg x := -x
  abs x := |x|
  lt x y := decide (x < y)
  isFinite _ := true
  ceilInt x := ⌈x⌉
  cos := Real.cos
  sin := Real.sin
  dft := exactDft
  idft := exactIdft
  cdiv a z := ⟨(a.re * z.re + a.im * z.im) / (z.re * z.re + z.im * z.im),
    (a.im * z.re - a.re * z.im) / (z.re * z.re + z.im * z.im)⟩
  ew := 0
  enc _ := 0#0
  dec _ := 0

/-! ### The shift property (R127) -/

/-- A sequence of length `N` shifted circularly by `s`, to either side: element `n` is `x[(n - s) mod N]`. -/
def circularShift {α : Type} (N : Nat) (s : ℤ) (x : Nat → α) (n : Nat) : α := x (((n : ℤ) - s) % (N : ℤ)).toNat

/-- The phase by which a circular shift by `s` multiplies bin `k`: `exp(-2*pi*i*s*k/N)`. -/
noncomputable def shiftPhase (N : Nat) (s : ℤ) (k : Nat) : ℂ := Complex.exp (-(2 * Real.pi * Complex.I * s * k / N))

/-- Bin `k` of the quotient `dft(y)/dft(x)` of a sequence `x` and its circular shift `y`. -/
def shiftQuotient {ν : Type} (num : Numerics ν) (N : Nat) (s : ℤ) (x : Nat → Cx ν) (k : Nat) : Cx ν :=
  num.cdiv (num.dft N ((List.range N).map (circularShift N s x)) k) (num.dft N ((List.range N).map x) k)

/-- The impulse that the delay estimator looks for: where no bin of `x` is zero, the inverse transform of the quotient is 1 at
`s mod N` and 0 elsewhere. -/
def ShiftImpulse (num : Numerics ℝ) (N : Nat) (s : ℤ) (x : Nat → Cx ℝ) : Prop :=
  (∀ k < N, num.dft N ((List.range N).map x) k ≠ ⟨0, 0⟩) → ∀ n < N,
    num.idft N ((List.range N).map (shiftQuotient num N s x)) n = if (n : ℤ) = s % (N : ℤ) then ⟨1, 0⟩ else ⟨0, 0⟩

/-- `NUM_EXACT` with the opposite sign convention in both transforms: `exp(+...)` forward and `exp(-...)` inverse. -/
noncomputable def oppositeNum (undef : Word → ℝ) : Numerics ℝ :=
  { exactNum undef with
    dft := fun N x k => ofC (∑ n ∈ Finset.range N, element x n * kernel 1 N n k)
    idft := fun N X n => ofC ((1 / (N : ℂ)) * ∑ k ∈ Finset.range N, element X k * kernel (-1) N n k) }

/-- An instance of the hardware whose numerics are `NUM_EXACT`. -/
def IsExact (H : Params ℝ) : Prop := ∃ undef, H.num = exactNum undef

end Sys2Proof.Machine
end

