-- ==== Sys2Proof/Safety.lean ====
section
/-! DEFINITION. The terms the statements use: valid parameters as the rules word them, what a completion and a fault entry leave,
frames, the invariant of the machine, the closed forms of `SYNTH` and `ESTIMATE`, and the named tolerance properties of
00_scope.md R15. -/

namespace Sys2Proof.Machine

variable {ν : Type}

/-! ### Valid parameters, in the words of R29 to R34 -/

/-- `P >= 2`, `P mod 2 = 0` and `P <= P_MAX` (R29). -/
def PeriodOk (H : Params ν) (e : Engine ν) : Prop := 2 ≤ e.P ∧ e.P % 2 = 0 ∧ e.P ≤ H.pMax
/-- The pattern is finite and `0 < f32val(DUTY) < 1` (R30). -/
def DutyOk (e : Engine ν) : Prop := f32Finite e.duty = true ∧ 0 < f32val e.duty ∧ f32val e.duty < 1
/-- `SRATE >= 1` (R31). -/
def SRateOk (e : Engine ν) : Prop := 1 ≤ e.sRate.toNat
/-- `M <= REC_CAP` (R32). -/
def RecLenOk (H : Params ν) (e : Engine ν) : Prop := e.recLen.toNat ≤ H.recCap
/-- The pattern is finite and `f32val(DIV_FLOOR) >= 0` (R34). -/
def DivFloorOk (e : Engine ν) : Prop := f32Finite e.divFloor = true ∧ 0 ≤ f32val e.divFloor
/-- The recording is sufficient: `M >= 3*P` (R160). -/
def Sufficient (e : Engine ν) : Prop := 3 * e.P ≤ e.recLen.toNat
/-- All that `ESTIMATE` checks (R212). -/
def EstimateOk (H : Params ν) (e : Engine ν) : Prop :=
  PeriodOk H e ∧ SRateOk e ∧ RecLenOk H e ∧ DivFloorOk e ∧ Sufficient e

/-! ### What a step leaves -/

/-- The piece `p` holds in `t` what it held in `e`. An element of a buffer is compared with its being written or not. -/
def SamePiece (e t : Engine ν) : Piece → Prop
  | .csr i => readSlot t i = readSlot e i
  | .delayMs => t.delayMs = e.delayMs
  | .vec j k => lookup k (t.vreg j) = lookup k (e.vreg j)
  | .acc n => lookup n t.acc = lookup n e.acc
  | .res n => lookup n t.res = lookup n e.res
  | .byte a => lookup a t.recording = lookup a e.recording

/-- Everything but `STATUS` and the pieces of `W` is unchanged: every register, every element, every byte of `REC`, and
`CMDLATCH`. -/
structure Frame (W : Piece → Prop) (e t : Engine ν) : Prop where
  pieces : ∀ p, p ≠ .csr .status → ¬W p → SamePiece e t p
  latch : t.cmdLatch = e.cmdLatch

/-- `STATUS` after a completion without a fault: `BUSY = 0`, `DONE = 1`, the two warnings set if `wd`, `wn` say so and
kept otherwise, every other bit kept (R283, R25, R45). -/
structure StatusAfter (wd wn : Bool) (e t : Engine ν) : Prop where
  busy : t.busy = false
  done : t.done = true
  rej : t.rej = e.rej
  wDegen : t.wDegen = (e.wDegen || wd)
  wNonFin : t.wNonFin = (e.wNonFin || wn)
  reserved : ∀ n, 5 ≤ n → t.status.getLsbD n = e.status.getLsbD n

/-- The fault entry of R247: `ERR.CODE`, `ERRCMD` and `BUSY` are written and nothing else changes. -/
structure FaultEntry (f : FaultCode) (e t : Engine ν) : Prop where
  err : t.err = f.number
  errCmd : t.errCmd = e.cmdLatch
  busy : t.busy = false
  status : ∀ n, 1 ≤ n → t.status.getLsbD n = e.status.getLsbD n
  frame : Frame (fun p => p = .csr .err ∨ p = .csr .errCmd) e t

/-- The model's own fields are unchanged. -/
def SameModel (s t : State) : Prop := t.script = s.script ∧ t.reply = s.reply ∧ t.draws = s.draws

/-- The state after `n` steps, if none of them stops the machine. -/
def runSteps : Nat → State → Option State
  | 0, s => some s
  | n + 1, s =>
    match step s with
    | .next t => runSteps n t
    | .fault _ => none
    | .refused _ => none

/-- The checks each command makes, in order: the table of R245. -/
def checksOf (H : Params ν) (e : Engine ν) : Instr → List (Bool × FaultCode)
  | .nop => []
  | .ldblk _ _ =>
    [(e.periodValid H, .invalidParameter), (e.recLenValid H, .invalidParameter),
      (decide (e.blk.toNat < e.blocks), .insufficientData)]
  | .fft _ _ => [(e.periodValid H, .invalidParameter)]
  | .ifft _ _ => [(e.periodValid H, .invalidParameter)]
  | .sweep _ => [(e.periodValid H, .invalidParameter), (e.dutyValid, .invalidParameter)]
  | .mirror _ => [(e.periodValid H, .invalidParameter)]
  | .cdiv _ _ _ => [(e.periodValid H, .invalidParameter), (e.divFloorValid, .invalidParameter)]
  | .aclr => [(e.periodValid H, .invalidParameter)]
  | .accr _ => [(e.periodValid H, .invalidParameter), (e.accCnt != 0xFFFFFFFF#32, .illegalCommand)]
  | .avg => [(e.periodValid H, .invalidParameter), (e.accCnt != 0#32, .insufficientData)]
  | .realp _ => [(e.periodValid H, .invalidParameter)]
  | .peak => [(e.periodValid H, .invalidParameter), (e.sRateValid, .invalidParameter)]
  | .synth => [(e.periodValid H, .invalidParameter), (e.dutyValid, .invalidParameter)]
  | .estimate =>
    [(e.periodValid H, .invalidParameter), (e.sRateValid, .invalidParameter), (e.recLenValid H, .invalidParameter),
      (e.divFloorValid, .invalidParameter), (decide (1 ≤ e.blocks), .insufficientData)]

/-- The fault the command raises in state `e`, if any. -/
def faultOf (H : Params ν) (e : Engine ν) (i : Instr) : Option FaultCode := firstFault (checksOf H e i)

/-! ### The invariant -/

/-- Every listed index is below `n`. -/
def indicesBelow {α : Type} (n : Nat) (m : List (Nat × α)) : Prop := ∀ c ∈ m, c.1 < n

/-- A buffer of `n` elements in canonical form. -/
def bufferOk {α : Type} (n : Nat) (m : List (Nat × α)) : Prop := storageWf m = true ∧ indicesBelow n m

/-- What every step keeps: buffers canonical and inside their capacities (R40 to R43, R61), reserved bits 0 (R23 to R26),
`ERR.CODE` one of 0 to 3 (R26), no outstanding fault and no `DONE` while busy (R28, R249), no `DONE` while a fault is
outstanding (R25, R247), and the ranges of `NBLK` (R35) and `PEAK_IDX` (R38). -/
structure Inv (H : Params ν) (e : Engine ν) : Prop where
  v : ∀ j, bufferOk H.pMax (e.vreg j)
  acc : bufferOk H.pMax e.acc
  res : bufferOk H.pMax e.res
  recording : bufferOk (8 * H.recCap) e.recording
  ctrlReserved : ∀ n, 2 ≤ n → e.ctrl.getLsbD n = false
  statusReserved : ∀ n, 5 ≤ n → e.status.getLsbD n = false
  errRange : e.err.toNat ≤ 3
  busyClear : e.busy = true → e.done = false ∧ e.err = 0#32
  doneClear : e.done = true → e.err = 0#32
  nBlkRange : e.nBlk.toNat ≤ H.recCap
  peakRange : e.peakIdx.toNat < H.pMax

/-! ### Closed forms of the macros (R211, R212) -/

/-- Bin `k` of the chirp's full spectrum: the half-spectrum of R142 and its mirror (R143). -/
def chirpBin (N : Numerics ν) (P : Nat) (d : ν) (k : Nat) : Cx ν :=
  if k ≤ P / 2 then sweepBin N P d k else conj N (sweepBin N P d (P - k))

/-- Sample `n` of the inverse transform of the chirp's spectrum. -/
def chirpSample (N : Numerics ν) (P : Nat) (d : ν) (n : Nat) : Cx ν :=
  N.idft P ((List.range P).map (chirpBin N P d)) n

/-- Bin `k` of `In[b]` (`ch0`) or `Out[b]` (`ch1`) (R161, R122). -/
def blockBin (H : Params ν) (d : Nat) (e : Engine ν) (b : Nat) (c : Channel) (k : Nat) : Cx ν :=
  H.num.dft e.P ((List.range e.P).map (fun n => ofReal H.num (blockSample H d e b c n))) k

/-- Bin `k` of `H[b] = Out[b]/In[b]` (R171). -/
def transferBin (H : Params ν) (d : Nat) (e : Engine ν) (b k : Nat) : Cx ν :=
  binQuotient H.num (H.num.ofF32 e.divFloor) (blockBin H d e b .ch1 k) (blockBin H d e b .ch0 k)

/-- The bins of block `b` that are forced to zero (R171). -/
def blockForced (H : Params ν) (d : Nat) (e : Engine ν) (b : Nat) : Nat :=
  forcedCount H.num (H.num.ofF32 e.divFloor) (blockBin H d e b .ch1) (blockBin H d e b .ch0) e.P

/-- Sample `n` of the inverse transform of `H[b]` (R123). -/
def responseSample (H : Params ν) (d : Nat) (e : Engine ν) (b n : Nat) : Cx ν :=
  H.num.idft e.P ((List.range e.P).map (transferBin H d e b)) n

/-- The sum over the blocks in ascending order, the running sum on the left (R186, R188). -/
def responseSum (H : Params ν) (d : Nat) (e : Engine ν) (n : Nat) : ν :=
  (List.range e.blocks).foldl (fun x b => H.num.add x (responseSample H d e b n).re) H.num.zero

/-- The averaged impulse response `h[n]` (R187). -/
def averagedResponse (H : Params ν) (d : Nat) (e : Engine ν) (n : Nat) : ν :=
  H.num.div (responseSum H d e n) (H.num.ofNat e.blocks)

/-- The bins forced to zero over all blocks (R173). -/
def totalForced (H : Params ν) (d : Nat) (e : Engine ν) : Nat := ((List.range e.blocks).map (blockForced H d e)).sum

/-! ### The properties a `NUM` may be asked for by name (R15), for a reading `val` of its numbers as reals

The source gives "floating-point tolerance" no form and, but for one number, no size (91_not_in_source.md N7,
93_implementation_defined.md U8), and R15 does not say for which periods. The forms below are the model's, and so is it that
they are asked for the periods the hardware admits, every even one from 2 to the `P_MAX` of an instance (R124, D6), here
`pMax` (DESIGN CHOICE, log entry 3). -/

/-- The complex number a pair denotes. -/
def readC (val : ν → ℝ) (z : Cx ν) : ℂ := ⟨val z.re, val z.im⟩

/-- `RoundTrip`: `inverse(forward(x)) == x` up to a tolerance (R15, R126). The form is the model's choice (log entry 3): an
absolute bound `eps` on each element, asked of the sequences whose elements all meet `dom`, so that a claim about a float
`NUM` can leave out NaNs, infinities and values too large for any `eps`; and for every even length up to `pMax`. -/
def RoundTrip (N : Numerics ν) (pMax : Nat) (val : ν → ℝ) (dom : Cx ν → Prop) (eps : ℝ) : Prop :=
  ∀ (P : Nat) (x : Nat → Cx ν), 2 ≤ P → P ≤ pMax → P % 2 = 0 → (∀ n < P, dom (x n)) → ∀ n < P,
    ‖readC val (N.idft P ((List.range P).map (N.dft P ((List.range P).map x))) n) - readC val (x n)‖ ≤ eps

/-- The forward transform of the synthesized signal (R146): its samples as reals, their imaginary parts zero. -/
def chirpForward (N : Numerics ν) (P : Nat) (d : ν) (k : Nat) : Cx ν :=
  N.dft P ((List.range P).map (fun n => ofReal N (chirpSample N P d n).re)) k

/-- `Flatness`: the magnitude of the forward transform of the synthesized signal is 1 within `eps` at every bin `0..NF`
(R15). That the bound is absolute, and asked for every even period up to `pMax`, is the model's choice (log entry 3). -/
def Flatness (N : Numerics ν) (pMax : Nat) (val : ν → ℝ) (eps : ℝ) : Prop :=
  ∀ (P : Nat) (w : Word), 2 ≤ P → P ≤ pMax → P % 2 = 0 → f32Finite w = true → 0 < f32val w → f32val w < 1 →
    ∀ k ≤ P / 2, |‖readC val (chirpForward N P (N.ofF32 w) k)‖ - 1| ≤ eps

/-- Forward-transforming the synthesized signal reproduces the constructed spectrum within the relative tolerance `eps` (R15).
That the tolerance is relative to each bin, phase and magnitude together, and asked for every even period up to `pMax`, is the
model's choice (log entry 3). -/
def SpectrumWithin (N : Numerics ν) (pMax : Nat) (val : ν → ℝ) (eps : ℝ) : Prop :=
  ∀ (P : Nat) (w : Word), 2 ≤ P → P ≤ pMax → P % 2 = 0 → f32Finite w = true → 0 < f32val w → f32val w < 1 →
    ∀ k < P, ‖readC val (chirpForward N P (N.ofF32 w) k) - readC val (chirpBin N P (N.ofF32 w) k)‖ ≤
      eps * ‖readC val (chirpBin N P (N.ofF32 w) k)‖

/-- `SpectrumRoundTrip`: the tolerance is 1e-6 relative (R15). -/
def SpectrumRoundTrip (N : Numerics ν) (pMax : Nat) (val : ν → ℝ) : Prop := SpectrumWithin N pMax val (1 / 10 ^ 6)

/-- The piece holds a value: a register always does, an element or a byte once it is written (R47). -/
def Held (e : Engine ν) : Piece → Prop
  | .csr _ => True
  | .delayMs => True
  | .vec j k => (lookup k (e.vreg j)).isSome = true
  | .acc n => (lookup n e.acc).isSome = true
  | .res n => (lookup n e.res).isSome = true
  | .byte a => (lookup a e.recording).isSome = true

/-- `Deterministic`, in the stronger reading, bit-identical (R15): two calls of a command at any two times, by engines that
agree on all the command reads and hold a value in all of it, raise the same fault or none, leave the same values in all the
command writes, and set the same warnings. -/
def Deterministic (H : Params ν) : Prop :=
  ∀ (i : Instr) (d1 d2 : Nat) (e1 e2 : Engine ν), e1.cmdLatch = e2.cmdLatch →
    (∀ p, mayRead e1 i p = true → Held e1 p ∧ SamePiece e1 e2 p) →
    let t1 := command H d1 i e1
    let t2 := command H d2 i e2
    faultOf H e1 i = faultOf H e2 i ∧
    (∀ f, faultOf H e1 i = some f → FaultEntry f e1 t1 ∧ FaultEntry f e2 t2) ∧
    (faultOf H e1 i = none →
      (∀ p, p ≠ .csr .status → mayWrite e1.P i p = true → SamePiece t1 t2 p) ∧
      ∃ wd wn, StatusAfter wd wn e1 t1 ∧ StatusAfter wd wn e2 t2)

end Sys2Proof.Machine
end

