-- ==== Sys2Proof/Certificates/Slice0/Obligations.lean ====
section
/-! DEFINITION. The statements for the provers. The first part is about the machine, at the configured instance; the second about
the engine at any number type; the third about results in `NUM_EXACT`. -/

open Sys2Proof Sys2Proof.Machine

/-! ### Encoding -/

/-- Decode and encode agree on every command, every operand at every value (R91 to R97). -/
def Obligations.DecodeOfEncode : Prop := ∀ i : Instr, decode (encode i) = .ok i

/-- Every word that decodes is the word of the command it decodes to: no two words mean one command (R95: "no hint
encodings"). -/
def Obligations.EncodeOfDecode : Prop := ∀ (w : Word) (i : Instr), decode w = .ok i → encode i = w

/-- R95's definition of a legal word and R96's procedure agree. -/
def Obligations.LegalWordsDecode : Prop := ∀ w : Word, WellFormed.legal w = true ↔ ∃ i, decode w = .ok i

/-- Words written out bit by bit from R91 to R93, one of each format. -/
def Obligations.WrittenWordsDecode : Prop :=
  decode 0b00000000000000000000000000000000#32 = .ok .nop ∧
  decode 0b00000000000000000100000100000001#32 = .ok (.ldblk .v1 .ch1) ∧
  decode 0b00000000000000000000011000000010#32 = .ok (.fft .v2 .v1) ∧
  decode 0b00000000000000000000001100000100#32 = .ok (.sweep .v3) ∧
  decode 0b00000000000000000010010000000110#32 = .ok (.cdiv .v0 .v1 .v2) ∧
  decode 0b00000000000000000000100000001000#32 = .ok (.accr .v2) ∧
  decode 0b00000000000000000000000000010001#32 = .ok .estimate ∧
  decode 0b00000000000000000001000000000010#32 = .error .strayBits ∧
  decode 0b00000000000000000000000000001100#32 = .error .undefinedOpcode

/-! ### The step -/

/-- A step runs the decoded command: when the engine is busy and it is its move, by the script or because nothing is
scheduled, the step is `exec` of what `CMDLATCH` decodes to (R96, R283). That the move is taken off the script and the draw
counter advanced is the model's (log entries 5 and 6). -/
def Obligations.StepRunsDecodedCommand : Prop :=
  ∀ (s : State) (i : Instr) (rest : List (Event NumVal)),
    s.script = .engine :: rest ∨ (s.script = [] ∧ rest = []) → s.busy = true → decode s.cmdLatch = .ok i →
    step s = exec i { s with script := rest, draws := s.draws + 1 }

/-- After reset the engine is idle and stays so until the host writes `CMD`: with nothing scheduled an idle machine does not
move, and a scheduled move of an idle engine changes nothing of it (R46, R280). The schedule is the model's (log entry 6). -/
def Obligations.IdleEngineStays : Prop :=
  ∀ s : State, s.busy = false →
    (s.script = [] → step s = .next s) ∧
    (∀ rest, s.script = .engine :: rest → ∃ t, step s = .next t ∧ t.toEngine = s.toEngine ∧ t.script = rest)

/-- An accepted command always completes: a run as long as the script and one step more, if no host access in it stops the
machine, ends with nothing scheduled and the engine idle (R291). The schedule, and that the engine moves when nothing is
scheduled, are the model's (log entry 6). -/
def Obligations.AcceptedCommandCompletes : Prop :=
  ∀ s t : State, runSteps (s.script.length + 1) s = some t → t.script = [] ∧ t.busy = false

/-! ### Reset and the invariant -/

/-- Reset (R46, R47, R280), at the initial state and after the reset input, idle or busy: every slot reads 0, the engine is
idle, `DELAY_MS = NUM.zero`, `irq = 0`, no element and no byte holds a value; and an idle engine stays as it is while
nothing else moves. `CMDLATCH` is of no consequence and not mentioned. That the reset input leaves the rest of the
schedule is the model's choice (log entry 22). -/
def Obligations.ResetValues : Prop :=
  (∀ t : State, (t = State.reset ∨ ∃ (s : State) (rest : List (Event NumVal)), s.script = .rst :: rest ∧ step s = .next t) →
    (∀ i, readSlot t.toEngine i = 0#32) ∧ t.busy = false ∧ t.delayMs = Config.num.zero ∧ t.irq = false ∧
    (∀ j k, lookup k (t.vreg j) = none) ∧ (∀ n, lookup n t.acc = none) ∧ (∀ n, lookup n t.res = none) ∧
    (∀ a, lookup a t.recording = none) ∧ (t.script = [] → step t = .next t)) ∧
  ∀ (s : State) (rest : List (Event NumVal)), s.script = .rst :: rest → ∃ t, step s = .next t ∧ t.script = rest

/-- The invariant holds at reset. -/
def Obligations.ResetMeetsInvariant : Prop := Inv Config.params State.reset.toEngine

/-- Every step keeps the invariant: buffers canonical and within capacity, reserved bits 0, `ERR.CODE` at most 3, no
outstanding fault and no `DONE` while busy, `NBLK` and `PEAK_IDX` in range. -/
def Obligations.StepKeepsInvariant : Prop :=
  ∀ s t : State, Inv Config.params s.toEngine → step s = .next t → Inv Config.params t.toEngine

/-! ### Faults -/

/-- The table of R245 with the priority of R246: a command faults exactly when one of its checks fails, with the fault of
the first that fails, and the fault entry is R247's; otherwise it completes and leaves `ERR` and `ERRCMD` alone. An
illegal word faults with `IllegalCommand` before any check, whatever the registers hold (R95, R243), whether the engine's
move is scheduled or comes because nothing is (the schedule is the model's, log entry 6). -/
def Obligations.FaultTable : Prop :=
  ∀ (i : Instr) (s : State),
    (∀ f, faultOf Config.params s.toEngine i = some f →
      ∃ t, exec i s = .next t ∧ FaultEntry f s.toEngine t.toEngine ∧ SameModel s t) ∧
    (faultOf Config.params s.toEngine i = none →
      ∃ t, exec i s = .next t ∧ t.busy = false ∧ t.done = true ∧ t.err = s.err ∧ t.errCmd = s.errCmd ∧ SameModel s t) ∧
    (∀ rest, s.script = .engine :: rest ∨ (s.script = [] ∧ rest = []) → s.busy = true →
      WellFormed.legal s.cmdLatch = false →
      ∃ t, step s = .next t ∧ FaultEntry .illegalCommand s.toEngine t.toEngine ∧ t.script = rest ∧ t.reply = s.reply)

/-- The inner commands of the macros cannot fault: at every point where `SYNTH` or `ESTIMATE` performs a primitive, that
primitive's own checks pass on the state as it then stands (R211, R212). In the loop these are the states inside one pass:
`x` before it, `x1` to `x6` after `LDBLK V0`, `LDBLK V1`, `FFT V0`, `FFT V1`, `CDIV`, `IFFT`. `LDBLK` is asked with `BLK`
holding the block index. -/
def Obligations.MacroStepsCannotFault : Prop :=
  ∀ {ν : Type} (H : Params ν) (d : Nat) (e : Engine ν),
    (faultOf H e .synth = none →
      faultOf H e (.sweep .v0) = none ∧
      faultOf H (sweepEffect H .v0 e) (.mirror .v0) = none ∧
      faultOf H (mirrorEffect H d .v0 (sweepEffect H .v0 e)) (.ifft .v0 .v0) = none ∧
      faultOf H (ifftEffect H d .v0 .v0 (mirrorEffect H d .v0 (sweepEffect H .v0 e))) (.realp .v0) = none) ∧
    (faultOf H e .estimate = none →
      faultOf H { e with nBlk := BitVec.ofNat 32 e.blocks } .aclr = none ∧
      (∀ b < e.blocks, ∀ x x1 x2 x3 x4 x5 x6,
        x = estimateBlocks H d (List.range b) (aclrEffect H { e with nBlk := BitVec.ofNat 32 e.blocks }) →
        x1 = ldblkEffect H d b .v0 .ch0 x → x2 = ldblkEffect H d b .v1 .ch1 x1 → x3 = fftEffect H d .v0 .v0 x2 →
        x4 = fftEffect H d .v1 .v1 x3 → x5 = cdivEffect H d .v2 .v1 .v0 x4 → x6 = ifftEffect H d .v2 .v2 x5 →
        faultOf H { x with blk := BitVec.ofNat 32 b } (.ldblk .v0 .ch0) = none ∧
        faultOf H { x1 with blk := BitVec.ofNat 32 b } (.ldblk .v1 .ch1) = none ∧
        faultOf H x2 (.fft .v0 .v0) = none ∧ faultOf H x3 (.fft .v1 .v1) = none ∧
        faultOf H x4 (.cdiv .v2 .v1 .v0) = none ∧ faultOf H x5 (.ifft .v2 .v2) = none ∧
        faultOf H x6 (.accr .v2) = none ∧ estimateBlock H d x b = accrEffect H d .v2 x6) ∧
      ∀ y, y = estimateBlocks H d (List.range e.blocks) (aclrEffect H { e with nBlk := BitVec.ofNat 32 e.blocks }) →
        faultOf H y .avg = none ∧ faultOf H (avgEffect H d y) .peak = none)

/-! ### The commands: encoding, result, flags, faults, frame -/

/-- `NOP` (R210). -/
def Obligations.NopCompletes : Prop :=
  encode .nop = 0x00000000#32 ∧
  ∀ s : State, ∃ t, exec .nop s = .next t ∧ StatusAfter false false s.toEngine t.toEngine ∧
    Frame (fun _ => False) s.toEngine t.toEngine ∧ SameModel s t

/-- `LDBLK vd, ch` (R161). `exec` answers, from every state, the next state that `command` gives at the machine's instance;
what that state is, is said for every instance, the machine's own among them, because an instance whose `REC_CAP` is below 6
(R7) has room for no block. -/
def Obligations.LdblkLoadsBlock : Prop :=
  ∀ (vd : VReg) (ch : Channel),
    encode (.ldblk vd ch) = 0x00000001#32 ||| Encode.vregNumber vd <<< 8 ||| Encode.channelNumber ch <<< 14 ∧
    (∀ s : State, exec (.ldblk vd ch) s =
      .next { s with toEngine := command Config.params s.draws (.ldblk vd ch) s.toEngine }) ∧
    ∀ {ν : Type} (H : Params ν) (d : Nat) (e : Engine ν),
      let t := command H d (.ldblk vd ch) e
      (PeriodOk H e → RecLenOk H e → e.blk.toNat < numBlocks e.recLen.toNat e.P →
        (∀ n < e.P, lookup n (t.vreg vd) =
          some ⟨H.num.ofF32 (memRead H d e
            (8 * (2 * e.P + e.blk.toNat * e.P + n) + 4 * (match ch with | .ch0 => 0 | .ch1 => 1))), H.num.zero⟩) ∧
        StatusAfter false false e t ∧ Frame (fun p => ∃ n < e.P, p = .vec vd n) e t) ∧
      (¬(PeriodOk H e ∧ RecLenOk H e) → FaultEntry .invalidParameter e t) ∧
      (PeriodOk H e → RecLenOk H e → numBlocks e.recLen.toNat e.P ≤ e.blk.toNat → FaultEntry .insufficientData e t)

/-- `FFT vd, va` (R122). -/
def Obligations.FftTransforms : Prop :=
  ∀ (vd va : VReg) (s : State),
    encode (.fft vd va) = 0x00000002#32 ||| Encode.vregNumber vd <<< 8 ||| Encode.vregNumber va <<< 10 ∧
    (PeriodOk Config.params s.toEngine →
      ∃ t, exec (.fft vd va) s = .next t ∧
        (∀ k < s.P, lookup k (t.vreg vd) =
          some (Config.num.dft s.P ((List.range s.P).map (readV Config.params s.draws .a s.toEngine va)) k)) ∧
        StatusAfter false false s.toEngine t.toEngine ∧
        Frame (fun p => ∃ k < s.P, p = .vec vd k) s.toEngine t.toEngine ∧ SameModel s t) ∧
    (¬PeriodOk Config.params s.toEngine →
      ∃ t, exec (.fft vd va) s = .next t ∧ FaultEntry .invalidParameter s.toEngine t.toEngine ∧ SameModel s t)

/-- `IFFT vd, va` (R123). -/
def Obligations.IfftTransforms : Prop :=
  ∀ (vd va : VReg) (s : State),
    encode (.ifft vd va) = 0x00000003#32 ||| Encode.vregNumber vd <<< 8 ||| Encode.vregNumber va <<< 10 ∧
    (PeriodOk Config.params s.toEngine →
      ∃ t, exec (.ifft vd va) s = .next t ∧
        (∀ n < s.P, lookup n (t.vreg vd) =
          some (Config.num.idft s.P ((List.range s.P).map (readV Config.params s.draws .a s.toEngine va)) n)) ∧
        StatusAfter false false s.toEngine t.toEngine ∧
        Frame (fun p => ∃ k < s.P, p = .vec vd k) s.toEngine t.toEngine ∧ SameModel s t) ∧
    (¬PeriodOk Config.params s.toEngine →
      ∃ t, exec (.ifft vd va) s = .next t ∧ FaultEntry .invalidParameter s.toEngine t.toEngine ∧ SameModel s t)

/-- `SWEEP vd`, with the coefficients of R140 written out (R140, R142). -/
def Obligations.SweepWritesHalfSpectrum : Prop :=
  ∀ (vd : VReg) (s : State),
    encode (.sweep vd) = 0x00000004#32 ||| Encode.vregNumber vd <<< 8 ∧
    (PeriodOk Config.params s.toEngine → DutyOk s.toEngine →
      ∃ t, exec (.sweep vd) s = .next t ∧
        (let N := Config.num
          let NF := s.P / 2
          let beta := N.div (N.mul N.twoPi (N.ofF32 s.duty)) (N.ofNat s.P)
          let rawAlpha := N.ceilInt (N.div (N.mul beta (N.ofNat (NF * NF))) N.twoPi)
          let alpha := N.sub (N.div (N.mul (N.ofInt rawAlpha) N.twoPi) (N.ofNat NF)) (N.mul beta (N.ofNat NF))
          ∀ k ≤ NF,
            let phase := N.add (N.mul alpha (N.ofNat k)) (N.mul beta (N.ofNat (k * k)))
            lookup k (t.vreg vd) = some ⟨N.cos phase, N.neg (N.sin phase)⟩) ∧
        StatusAfter false false s.toEngine t.toEngine ∧
        Frame (fun p => ∃ k ≤ s.P / 2, p = .vec vd k) s.toEngine t.toEngine ∧ SameModel s t) ∧
    (¬(PeriodOk Config.params s.toEngine ∧ DutyOk s.toEngine) →
      ∃ t, exec (.sweep vd) s = .next t ∧ FaultEntry .invalidParameter s.toEngine t.toEngine ∧ SameModel s t)

/-- `MIRROR vd` (R143). -/
def Obligations.MirrorConjugates : Prop :=
  ∀ (vd : VReg) (s : State),
    encode (.mirror vd) = 0x00000005#32 ||| Encode.vregNumber vd <<< 8 ∧
    (PeriodOk Config.params s.toEngine →
      ∃ t, exec (.mirror vd) s = .next t ∧
        (∀ k, s.P / 2 < k → k < s.P → lookup k (t.vreg vd) =
          some ⟨(readV Config.params s.draws .a s.toEngine vd (s.P - k)).re,
            Config.num.neg (readV Config.params s.draws .a s.toEngine vd (s.P - k)).im⟩) ∧
        StatusAfter false false s.toEngine t.toEngine ∧
        Frame (fun p => ∃ k, s.P / 2 < k ∧ k < s.P ∧ p = .vec vd k) s.toEngine t.toEngine ∧ SameModel s t) ∧
    (¬PeriodOk Config.params s.toEngine →
      ∃ t, exec (.mirror vd) s = .next t ∧ FaultEntry .invalidParameter s.toEngine t.toEngine ∧ SameModel s t)

/-- `REALP va` (R144). -/
def Obligations.RealpTakesRealParts : Prop :=
  ∀ (va : VReg) (s : State),
    encode (.realp va) = 0x0000000A#32 ||| Encode.vregNumber va <<< 10 ∧
    (PeriodOk Config.params s.toEngine →
      ∃ t wn, exec (.realp va) s = .next t ∧
        (∀ n < s.P, lookup n t.res = some (readV Config.params s.draws .a s.toEngine va n).re) ∧
        (wn = true ↔ ∃ n < s.P, ∃ x, lookup n t.res = some x ∧ Config.num.isFinite x = false) ∧
        StatusAfter false wn s.toEngine t.toEngine ∧
        Frame (fun p => ∃ n < s.P, p = .res n) s.toEngine t.toEngine ∧ SameModel s t) ∧
    (¬PeriodOk Config.params s.toEngine →
      ∃ t, exec (.realp va) s = .next t ∧ FaultEntry .invalidParameter s.toEngine t.toEngine ∧ SameModel s t)

/-- `CDIV vd, va, vb`, with the degenerate-bin test of R170 written out (R170, R171). -/
def Obligations.CdivDividesOrForcesZero : Prop :=
  ∀ (vd va vb : VReg) (s : State),
    encode (.cdiv vd va vb) =
      0x00000006#32 ||| Encode.vregNumber vd <<< 8 ||| Encode.vregNumber va <<< 10 ||| Encode.vregNumber vb <<< 12 ∧
    (PeriodOk Config.params s.toEngine → DivFloorOk s.toEngine →
      let N := Config.num
      let fl := N.ofF32 s.divFloor
      let a := readV Config.params s.draws .a s.toEngine va
      let z := readV Config.params s.draws .b s.toEngine vb
      let forced := fun k =>
        (N.lt N.zero (N.abs (z k).re) = false ∧ N.lt N.zero (N.abs (z k).im) = false) ∨
        N.lt (N.add (N.mul (z k).re (z k).re) (N.mul (z k).im (z k).im)) (N.mul fl fl) = true ∨
        N.isFinite (N.cdiv (a k) (z k)).re = false ∨ N.isFinite (N.cdiv (a k) (z k)).im = false
      ∃ (t : State) (bins : List Nat), exec (.cdiv vd va vb) s = .next t ∧
        (bins.Nodup ∧ ∀ k, k ∈ bins ↔ k < s.P ∧ forced k) ∧
        (∀ k < s.P, (forced k → lookup k (t.vreg vd) = some ⟨N.zero, N.zero⟩) ∧
          (¬forced k → lookup k (t.vreg vd) = some (N.cdiv (a k) (z k)))) ∧
        t.degenCnt.toNat = min (s.degenCnt.toNat + bins.length) 0xFFFFFFFF ∧
        StatusAfter (decide (0 < bins.length)) false s.toEngine t.toEngine ∧
        Frame (fun p => p = .csr .degenCnt ∨ ∃ k < s.P, p = .vec vd k) s.toEngine t.toEngine ∧ SameModel s t) ∧
    (¬(PeriodOk Config.params s.toEngine ∧ DivFloorOk s.toEngine) →
      ∃ t, exec (.cdiv vd va vb) s = .next t ∧ FaultEntry .invalidParameter s.toEngine t.toEngine ∧ SameModel s t)

/-- `ACLR` (R185). -/
def Obligations.AclrStartsAverage : Prop :=
  encode .aclr = 0x00000007#32 ∧
  ∀ s : State,
    (PeriodOk Config.params s.toEngine →
      ∃ t, exec .aclr s = .next t ∧ (∀ n < s.P, lookup n t.acc = some Config.num.zero) ∧ t.accCnt = 0#32 ∧
        t.degenCnt = 0#32 ∧ StatusAfter false false s.toEngine t.toEngine ∧
        Frame (fun p => p = .csr .accCnt ∨ p = .csr .degenCnt ∨ ∃ n < s.P, p = .acc n) s.toEngine t.toEngine ∧
        SameModel s t) ∧
    (¬PeriodOk Config.params s.toEngine →
      ∃ t, exec .aclr s = .next t ∧ FaultEntry .invalidParameter s.toEngine t.toEngine ∧ SameModel s t)

/-- `ACCR va` (R186). -/
def Obligations.AccrAccumulates : Prop :=
  ∀ (va : VReg) (s : State),
    encode (.accr va) = 0x00000008#32 ||| Encode.vregNumber va <<< 10 ∧
    (PeriodOk Config.params s.toEngine → s.accCnt ≠ 0xFFFFFFFF#32 →
      ∃ t, exec (.accr va) s = .next t ∧
        (∀ n < s.P, lookup n t.acc = some (Config.num.add (readAcc Config.params s.draws s.toEngine n)
          (readV Config.params s.draws .a s.toEngine va n).re)) ∧
        t.accCnt.toNat = s.accCnt.toNat + 1 ∧ StatusAfter false false s.toEngine t.toEngine ∧
        Frame (fun p => p = .csr .accCnt ∨ ∃ n < s.P, p = .acc n) s.toEngine t.toEngine ∧ SameModel s t) ∧
    (¬PeriodOk Config.params s.toEngine →
      ∃ t, exec (.accr va) s = .next t ∧ FaultEntry .invalidParameter s.toEngine t.toEngine ∧ SameModel s t) ∧
    (PeriodOk Config.params s.toEngine → s.accCnt = 0xFFFFFFFF#32 →
      ∃ t, exec (.accr va) s = .next t ∧ FaultEntry .illegalCommand s.toEngine t.toEngine ∧ SameModel s t)

/-- `AVG` (R187). -/
def Obligations.AvgTakesMean : Prop :=
  encode .avg = 0x00000009#32 ∧
  ∀ s : State,
    (PeriodOk Config.params s.toEngine → s.accCnt ≠ 0#32 →
      ∃ t wn, exec .avg s = .next t ∧
        (∀ n < s.P, lookup n t.res =
          some (Config.num.div (readAcc Config.params s.draws s.toEngine n) (Config.num.ofNat s.accCnt.toNat))) ∧
        (wn = true ↔ ∃ n < s.P, ∃ x, lookup n t.res = some x ∧ Config.num.isFinite x = false) ∧
        StatusAfter false wn s.toEngine t.toEngine ∧
        Frame (fun p => ∃ n < s.P, p = .res n) s.toEngine t.toEngine ∧ SameModel s t) ∧
    (¬PeriodOk Config.params s.toEngine →
      ∃ t, exec .avg s = .next t ∧ FaultEntry .invalidParameter s.toEngine t.toEngine ∧ SameModel s t) ∧
    (PeriodOk Config.params s.toEngine → s.accCnt = 0#32 →
      ∃ t, exec .avg s = .next t ∧ FaultEntry .insufficientData s.toEngine t.toEngine ∧ SameModel s t)

/-- `PEAK`, with the scan of R200 written out (R200, R202). -/
def Obligations.PeakFindsIndex : Prop :=
  encode .peak = 0x0000000B#32 ∧
  ∀ s : State,
    (PeriodOk Config.params s.toEngine → SRateOk s.toEngine →
      let N := Config.num
      let x := readRes Config.params s.draws s.toEngine
      ∃ (t : State) (cand : Nat → Nat), exec .peak s = .next t ∧
        cand 0 = 0 ∧
        (∀ k, cand (k + 1) = if N.lt (N.abs (x (cand k))) (N.abs (x (k + 1))) = true then k + 1 else cand k) ∧
        t.peakIdx.toNat = cand (s.P - 1) ∧ cand (s.P - 1) < s.P ∧
        t.delayMs = N.div (N.ofNat (cand (s.P - 1) * 1000)) (N.ofNat s.sRate.toNat) ∧
        StatusAfter false false s.toEngine t.toEngine ∧
        Frame (fun p => p = .csr .peakIdx ∨ p = .delayMs) s.toEngine t.toEngine ∧ SameModel s t) ∧
    (¬(PeriodOk Config.params s.toEngine ∧ SRateOk s.toEngine) →
      ∃ t, exec .peak s = .next t ∧ FaultEntry .invalidParameter s.toEngine t.toEngine ∧ SameModel s t)

/-- `SYNTH` is the chirp synthesis: `V0` holds the inverse transform of the mirrored spectrum and `RES` its real part
(R211). -/
def Obligations.SynthIsChirp : Prop :=
  encode .synth = 0x00000010#32 ∧
  ∀ s : State,
    (PeriodOk Config.params s.toEngine → DutyOk s.toEngine →
      let chirp := chirpSample Config.num s.P (Config.num.ofF32 s.duty)
      ∃ t wn, exec .synth s = .next t ∧
        (∀ n < s.P, lookup n (t.vreg .v0) = some (chirp n) ∧ lookup n t.res = some (chirp n).re) ∧
        (wn = true ↔ ∃ n < s.P, Config.num.isFinite (chirp n).re = false) ∧
        StatusAfter false wn s.toEngine t.toEngine ∧
        Frame (fun p => ∃ n < s.P, p = .vec .v0 n ∨ p = .res n) s.toEngine t.toEngine ∧ SameModel s t) ∧
    (¬(PeriodOk Config.params s.toEngine ∧ DutyOk s.toEngine) →
      ∃ t, exec .synth s = .next t ∧ FaultEntry .invalidParameter s.toEngine t.toEngine ∧ SameModel s t)

/-- `ESTIMATE` is the delay estimation: the closed form of every piece of state it leaves (R212). As for `LDBLK`, `exec`
answers from every state the next state that `command` gives, and what that state is, is said for every instance, the
machine's own among them. -/
def Obligations.EstimateIsDelayEstimate : Prop :=
  encode .estimate = 0x00000011#32 ∧
  (∀ s : State, exec .estimate s = .next { s with toEngine := command Config.params s.draws .estimate s.toEngine }) ∧
  ∀ {ν : Type} (H : Params ν) (d : Nat) (e : Engine ν),
    let t := command H d .estimate e
    (EstimateOk H e →
      let N := H.num
      let nb := e.blocks
      let h := averagedResponse H d e
      let idx := peakIndex N h e.P
      (∀ n < e.P,
        lookup n (t.vreg .v0) = some (blockBin H d e (nb - 1) .ch0 n) ∧
        lookup n (t.vreg .v1) = some (blockBin H d e (nb - 1) .ch1 n) ∧
        lookup n (t.vreg .v2) = some (responseSample H d e (nb - 1) n) ∧
        lookup n t.acc = some (responseSum H d e n) ∧
        lookup n t.res = some (h n)) ∧
      t.nBlk.toNat = nb ∧ t.accCnt.toNat = nb ∧ t.degenCnt.toNat = min (totalForced H d e) 0xFFFFFFFF ∧
      t.peakIdx.toNat = idx ∧ t.delayMs = N.div (N.ofNat (idx * 1000)) (N.ofNat e.sRate.toNat) ∧
      ∃ wn, (wn = true ↔ ∃ n < e.P, N.isFinite (h n) = false) ∧
        StatusAfter (decide (0 < totalForced H d e)) wn e t ∧
        Frame (fun p => p = .csr .nBlk ∨ p = .csr .accCnt ∨ p = .csr .degenCnt ∨ p = .csr .peakIdx ∨ p = .delayMs ∨
          ∃ n < e.P, p = .vec .v0 n ∨ p = .vec .v1 n ∨ p = .vec .v2 n ∨ p = .acc n ∨ p = .res n) e t) ∧
    (¬(PeriodOk H e ∧ SRateOk e ∧ RecLenOk H e ∧ DivFloorOk e) → FaultEntry .invalidParameter e t) ∧
    (PeriodOk H e → SRateOk e → RecLenOk H e → DivFloorOk e → ¬Sufficient e → FaultEntry .insufficientData e t)

/-- What each command writes: outside the write set of R49's table nothing changes when a command completes without a
fault; and no command writes `REC` (R43, R49, R72). -/
def Obligations.CommandFrame : Prop :=
  ∀ (i : Instr) (s t : State), exec i s = .next t →
    (faultOf Config.params s.toEngine i = none →
      Frame (fun p => mayWrite s.P i p = true) s.toEngine t.toEngine) ∧
    t.recording = s.recording ∧ SameModel s t

/-- Two runs of a command from states that agree on everything it reads end in states that agree on everything it writes,
with the same fault or none and the same warnings (R214, R49). What a command reads is R49's table and, for `CDIV`,
`DEGEN_CNT`, which R49 lists among its writes only (log entry 26). The runs share the draw number `d`, by which an element
that neither state has written reads alike (log entry 5). -/
def Obligations.CommandReadsOnlyItsReadSet : Prop :=
  ∀ {ν : Type} (H : Params ν) (d : Nat) (i : Instr) (e1 e2 : Engine ν), e1.cmdLatch = e2.cmdLatch →
    (∀ p, mayRead e1 i p = true → SamePiece e1 e2 p) →
    let t1 := command H d i e1
    let t2 := command H d i e2
    faultOf H e1 i = faultOf H e2 i ∧
    (∀ f, faultOf H e1 i = some f → FaultEntry f e1 t1 ∧ FaultEntry f e2 t2) ∧
    (faultOf H e1 i = none →
      (∀ p, p ≠ .csr .status → mayWrite e1.P i p = true → SamePiece t1 t2 p) ∧
      ∃ wd wn, StatusAfter wd wn e1 t1 ∧ StatusAfter wd wn e2 t2)

/-- Every `NUM` is `Deterministic` in the stronger reading, bit-identical, since its fields are functions (R15): repeated calls
with identical inputs, all of them written, leave identical results, whenever the calls are made. -/
def Obligations.EngineIsDeterministic : Prop := ∀ {ν : Type} (H : Params ν), Deterministic H

/-! ### Operand forms -/

/-- The value of a finite binary32 pattern (R14): sign, biased exponent, fraction. -/
def Obligations.Binary32Value : Prop :=
  ∀ w : Word,
    let s := (w.extractLsb' 31 1).toNat
    let ex := (w.extractLsb' 23 8).toNat
    let f := (w.extractLsb' 0 23).toNat
    (f32Finite w = true ↔ ex ≠ 255) ∧
    (1 ≤ ex → ex ≤ 254 → f32val w = (-1) ^ s * 2 ^ ((ex : ℤ) - 127) * (1 + (f : ℚ) / 2 ^ 23)) ∧
    (ex = 0 → f32val w = (-1) ^ s * 2 ^ (-126 : ℤ) * ((f : ℚ) / 2 ^ 23))

/-- The valid patterns of `DUTY` are those from `0x00000001` to `0x3F7FFFFF` (R30). -/
def Obligations.DutyValidRange : Prop :=
  ∀ e : Engine NumVal, DutyOk e ↔ 0x00000001 ≤ e.duty.toNat ∧ e.duty.toNat ≤ 0x3F7FFFFF

/-- The block geometry (R160). -/
def Obligations.BlockGeometry : Prop :=
  ∀ M P : Nat, 2 ≤ P →
    (M < 2 * P → numBlocks M P = 0) ∧ (2 * P ≤ M → numBlocks M P = (M - 2 * P) / P) ∧
    (1 ≤ numBlocks M P ↔ 3 * P ≤ M) ∧
    (∀ b, firstPair P b = 2 * P + b * P) ∧
    (∀ b n, b < numBlocks M P → n < P →
      2 * P ≤ firstPair P b + n ∧ firstPair P b + n < 2 * P + numBlocks M P * P ∧ 2 * P + numBlocks M P * P ≤ M)

/-! ### The host -/

/-- A write to `CMD` is accepted iff the engine is idle and no fault is outstanding; otherwise it is dropped and sets
`REJ` (R28, R249). -/
def Obligations.CmdWriteAcceptedOrDropped : Prop :=
  ∀ (s : State) (w : Word) (rest : List (Event NumVal)), s.script = .host (.writeCsr .cmd w) :: rest →
    ∃ t, step s = .next t ∧ t.script = rest ∧ t.reply = s.reply ∧
      (∀ p, p ≠ .csr .status → SamePiece s.toEngine t.toEngine p) ∧
      (s.busy = false → s.code = 0 →
        t.cmdLatch = w ∧ t.busy = true ∧ t.done = false ∧
          ∀ n, 2 ≤ n → t.status.getLsbD n = s.status.getLsbD n) ∧
      (s.busy = true ∨ s.code ≠ 0 →
        t.cmdLatch = s.cmdLatch ∧ t.rej = true ∧ ∀ n, n ≠ 2 → t.status.getLsbD n = s.status.getLsbD n)

/-- The host actions that R284 drops while the engine is busy. -/
def Obligations.BusyWritesDropped : Prop :=
  ∀ (s : State) (a : HostAction NumVal) (rest : List (Event NumVal)), s.script = .host a :: rest → s.busy = true →
    actionExists Config.params a = true →
    ((∃ r w, a = .writeCsr r w ∧
        (r = .period ∨ r = .duty ∨ r = .sRate ∨ r = .recLen ∨ r = .blk ∨ r = .divFloor ∨ r = .cmd)) ∨
      (∃ i c w, a = .writeRec i c w) ∨ (∃ j k z, a = .writeV j k z) ∨ (∃ n x, a = .writeAcc n x) ∨
      (∃ n x, a = .writeRes n x)) →
    ∃ t, step s = .next t ∧ Frame (fun _ => False) s.toEngine t.toEngine ∧ t.rej = true ∧
      (∀ n, n ≠ 2 → t.status.getLsbD n = s.status.getLsbD n) ∧ t.reply = s.reply ∧ t.script = rest

/-- While the engine is idle a write to a config register or to an element takes effect and changes nothing else
(R29 to R34, R67). -/
def Obligations.IdleWritesTakeEffect : Prop :=
  ∀ (s : State) (rest : List (Event NumVal)), s.busy = false →
    (∀ r w, (r = .period ∨ r = .duty ∨ r = .sRate ∨ r = .recLen ∨ r = .blk ∨ r = .divFloor) →
      s.script = .host (.writeCsr r w) :: rest →
      ∃ t, step s = .next t ∧ readSlot t.toEngine r = w ∧ t.status = s.status ∧
        Frame (fun p => p = .csr r) s.toEngine t.toEngine) ∧
    (∀ i c w, i < Config.recCap → s.script = .host (.writeRec i c w) :: rest →
      ∃ t, step s = .next t ∧ (∀ d, memRead Config.params d t.toEngine (sampleAddr i c) = w) ∧ t.status = s.status ∧
        Frame (fun p => ∃ b < 4, p = .byte (8 * i + 4 * (match c with | .ch0 => 0 | .ch1 => 1) + b)) s.toEngine t.toEngine) ∧
    (∀ j k z, k < Config.pMax → s.script = .host (.writeV j k z) :: rest →
      ∃ t, step s = .next t ∧ lookup k (t.vreg j) = some z ∧ t.status = s.status ∧
        Frame (fun p => p = .vec j k) s.toEngine t.toEngine) ∧
    (∀ n x, n < Config.pMax → s.script = .host (.writeAcc n x) :: rest →
      ∃ t, step s = .next t ∧ lookup n t.acc = some x ∧ t.status = s.status ∧
        Frame (fun p => p = .acc n) s.toEngine t.toEngine) ∧
    (∀ n x, n < Config.pMax → s.script = .host (.writeRes n x) :: rest →
      ∃ t, step s = .next t ∧ lookup n t.res = some x ∧ t.status = s.status ∧
        Frame (fun p => p = .res n) s.toEngine t.toEngine)

/-- The writes that act alike idle and busy: `CTRL` without `SRST`, `STATUS`, `ERR`, and the read-only slots
(R23 to R27, R248). -/
def Obligations.ControlWrites : Prop :=
  ∀ (s : State) (w : Word) (rest : List (Event NumVal)),
    (s.script = .host (.writeCsr .ctrl w) :: rest → w.getLsbD 31 = false →
      ∃ t, step s = .next t ∧ t.ieDone = w.getLsbD 0 ∧ t.ieErr = w.getLsbD 1 ∧
        (∀ n, 2 ≤ n → t.ctrl.getLsbD n = false) ∧ t.status = s.status ∧
        Frame (fun p => p = .csr .ctrl) s.toEngine t.toEngine) ∧
    (s.script = .host (.writeCsr .status w) :: rest →
      ∃ t, step s = .next t ∧
        (∀ n, t.status.getLsbD n = (s.status.getLsbD n && !(decide (1 ≤ n ∧ n ≤ 4) && w.getLsbD n))) ∧
        Frame (fun _ => False) s.toEngine t.toEngine) ∧
    (s.script = .host (.writeCsr .err w) :: rest →
      ∃ t, step s = .next t ∧ t.code = 0 ∧ t.errCmd = s.errCmd ∧ t.status = s.status ∧
        Frame (fun p => p = .csr .err) s.toEngine t.toEngine) ∧
    (∀ r, r = .errCmd ∨ r = .nBlk ∨ r = .accCnt ∨ r = .degenCnt ∨ r = .peakIdx ∨ r = .reserved →
      s.script = .host (.writeCsr r w) :: rest →
      ∃ t, step s = .next t ∧ t.toEngine = s.toEngine)

/-- Soft reset, idle or busy: the registers are as after hardware reset; `REC` is kept; the buffers are kept but for the
elements that a discarded command could write, which become unspecified (R281, R49). That `DELAY_MS` counts among the
registers, and that what a command could write is the write set of R49 for the latched word and the period, are the
model's reading (log entries 10 and 13). -/
def Obligations.SoftReset : Prop :=
  ∀ (s : State) (w : Word) (rest : List (Event NumVal)), s.script = .host (.writeCsr .ctrl w) :: rest →
    w.getLsbD 31 = true →
    ∃ t, step s = .next t ∧ (∀ i, readSlot t.toEngine i = 0#32) ∧ t.delayMs = Config.num.zero ∧ t.busy = false ∧
      t.recording = s.recording ∧
      (s.busy = false → (∀ j, t.vreg j = s.vreg j) ∧ t.acc = s.acc ∧ t.res = s.res) ∧
      (s.busy = true → ∀ i, decode s.cmdLatch = .ok i →
        (∀ j k, lookup k (t.vreg j) = if mayWrite s.P i (.vec j k) then none else lookup k (s.vreg j)) ∧
        (∀ n, lookup n t.acc = if mayWrite s.P i (.acc n) then none else lookup n s.acc) ∧
        (∀ n, lookup n t.res = if mayWrite s.P i (.res n) then none else lookup n s.res)) ∧
      (s.busy = true → WellFormed.legal s.cmdLatch = false →
        (∀ j, t.vreg j = s.vreg j) ∧ t.acc = s.acc ∧ t.res = s.res)

/-- Reads have no side effect and return the true values of the registers R285 lists; the result registers return theirs
when the engine is idle; `CMD` and slot 15 read 0 (R23, R64, R67, R285). The field that holds the answer is the model's
(log entry 7). -/
def Obligations.CsrReads : Prop :=
  ∀ (s : State) (r : Slot) (rest : List (Event NumVal)), s.script = .host (.readCsr r) :: rest →
    ∃ t, step s = .next t ∧ t.toEngine = s.toEngine ∧ t.script = rest ∧
      ((s.busy = false ∨ ¬(r = .nBlk ∨ r = .accCnt ∨ r = .degenCnt ∨ r = .peakIdx)) →
        t.reply = .word (match r with
          | .ctrl => s.ctrl
          | .status => s.status
          | .err => s.err
          | .errCmd => s.errCmd
          | .cmd => 0#32
          | .period => s.period
          | .duty => s.duty
          | .sRate => s.sRate
          | .recLen => s.recLen
          | .blk => s.blk
          | .divFloor => s.divFloor
          | .nBlk => s.nBlk
          | .accCnt => s.accCnt
          | .degenCnt => s.degenCnt
          | .peakIdx => s.peakIdx
          | .reserved => 0#32))

/-- No read changes the engine: every read that exists, idle or busy, of a written or an unwritten element, answers a next
state with the engine as it was (R64, R285). A host read of a written element returns it when the engine is idle, and a read
of `REC` returns the sample word, busy or idle (R61, R67). The field that holds the answer is the model's (log entry 7). -/
def Obligations.ElementReads : Prop :=
  ∀ (s : State) (rest : List (Event NumVal)),
    (∀ a, s.script = .host a :: rest →
      ((∃ r, a = .readCsr r) ∨ (∃ i c, a = .readRec i c ∧ i < Config.recCap) ∨ (∃ j k, a = .readV j k ∧ k < Config.pMax) ∨
        (∃ n, (a = .readAcc n ∨ a = .readRes n) ∧ n < Config.pMax) ∨ a = .readDelayMs) →
      ∃ t, step s = .next t ∧ t.toEngine = s.toEngine ∧ t.script = rest) ∧
    (∀ j k z, s.script = .host (.readV j k) :: rest → k < Config.pMax → s.busy = false → lookup k (s.vreg j) = some z →
      ∃ t, step s = .next t ∧ t.toEngine = s.toEngine ∧ t.reply = .cx z) ∧
    (∀ n x, s.script = .host (.readAcc n) :: rest → n < Config.pMax → s.busy = false → lookup n s.acc = some x →
      ∃ t, step s = .next t ∧ t.toEngine = s.toEngine ∧ t.reply = .num x) ∧
    (∀ n x, s.script = .host (.readRes n) :: rest → n < Config.pMax → s.busy = false → lookup n s.res = some x →
      ∃ t, step s = .next t ∧ t.toEngine = s.toEngine ∧ t.reply = .num x) ∧
    (s.script = .host .readDelayMs :: rest → s.busy = false →
      ∃ t, step s = .next t ∧ t.toEngine = s.toEngine ∧ t.reply = .num s.delayMs) ∧
    (∀ i c b0 b1 b2 b3, s.script = .host (.readRec i c) :: rest → i < Config.recCap →
      lookup (sampleAddr i c) s.recording = some b0 → lookup (sampleAddr i c + 1) s.recording = some b1 →
      lookup (sampleAddr i c + 2) s.recording = some b2 → lookup (sampleAddr i c + 3) s.recording = some b3 →
      ∃ t, step s = .next t ∧ t.toEngine = s.toEngine ∧ t.reply = .word (b3 ++ b2 ++ b1 ++ b0))

/-- An index outside the stated ranges is no action of the host (R67); that the machine stops there, with a fault of its own,
is the model's choice (log entry 15). -/
def Obligations.NoSuchElementStops : Prop :=
  ∀ (s : State) (a : HostAction NumVal) (rest : List (Event NumVal)), s.script = .host a :: rest →
    ((∃ i c, (a = .readRec i c ∨ ∃ w, a = .writeRec i c w) ∧ Config.recCap ≤ i) ∨
      (∃ j k, (a = .readV j k ∨ ∃ z, a = .writeV j k z) ∧ Config.pMax ≤ k) ∨
      (∃ n, (a = .readAcc n ∨ a = .readRes n ∨ ∃ x, a = .writeAcc n x ∨ a = .writeRes n x) ∧ Config.pMax ≤ n)) →
    step s = .fault .noSuchElement

/-- The interrupt output (R48). -/
def Obligations.InterruptLevel : Prop :=
  ∀ s : State, s.irq = true ↔
    (s.ctrl.getLsbD 0 = true ∧ s.status.getLsbD 1 = true) ∨
      (s.ctrl.getLsbD 1 = true ∧ (s.err.extractLsb' 0 4).toNat ≠ 0)

/-- No host write made while a command is in progress is seen by it: whatever the host does short of a soft reset, the
command's results are those of the state at issue (R68 (b), R284). -/
def Obligations.BusyHostActionsUnseen : Prop :=
  ∀ {ν : Type} (H : Params ν) (d : Nat) (a : HostAction ν) (e : Engine ν), e.busy = true →
    (∀ w, a = .writeCsr .ctrl w → w.getLsbD 31 = false) →
    ∀ p, p ≠ .csr .status → p ≠ .csr .ctrl → p ≠ .csr .err →
      SamePiece (completeEngine H d e) (completeEngine H d (actionEffect H a e)) p

/-- The address map: a bus word access at `BASE + 4*i` is the host's access to slot `i`, and one at the bytes of a sample
is the host's access to that sample: a read returns its word, idle or busy, and a write stores it when idle and is dropped
with `REJ` while busy (R61, R65, R67). -/
def Obligations.BusReachesRegistersAndRecording : Prop :=
  ∀ (s : State) (rest : List (Event NumVal)),
    (∀ (r : Slot) (w : Word),
      s.script = .bus ⟨Config.map.base + 4 * r.number, 4, some w⟩ :: rest →
        ∃ t, step s = .next t ∧ t.toEngine = writeSlot Config.params r w s.toEngine ∧ t.script = rest) ∧
    (∀ r : Slot, s.script = .bus ⟨Config.map.base + 4 * r.number, 4, none⟩ :: rest →
        ∃ t, step s = .next t ∧ t.toEngine = s.toEngine ∧
          t.reply = actionReply Config.params (s.draws + 1) s.toEngine (.readCsr r)) ∧
    (∀ (i : Nat) (c : Channel) (w : Word), i < Config.recCap →
      s.script = .bus ⟨Config.map.base + Config.map.offRec + 8 * i + 4 * Channel.index c, 4, some w⟩ :: rest →
        ∃ t, step s = .next t ∧ (s.busy = false → t.toEngine = memWrite (sampleAddr i c) w s.toEngine) ∧
          (s.busy = true → t.toEngine = reject s.toEngine)) ∧
    (∀ (i : Nat) (c : Channel), i < Config.recCap →
      s.script = .bus ⟨Config.map.base + Config.map.offRec + 8 * i + 4 * Channel.index c, 4, none⟩ :: rest →
        ∃ t, step s = .next t ∧ t.toEngine = s.toEngine ∧
          t.reply = .word (memRead Config.params (s.draws + 1) s.toEngine (sampleAddr i c)))

/-- A bus write inside a window replaces one word of the element's image, and the element becomes `NUM.dec` of the new image;
nothing else changes (R66). `x` is what the element reads as in this step, written or not (log entry 23). While busy such a
write is dropped with `REJ` (R284). `DELAY_MS`, which has no host write (R39, R67), is left as it is, idle and busy, without
`REJ` (log entry 12). -/
def Obligations.WindowWriteSplicesImage : Prop :=
  ∀ (s : State) (u : Nat) (w : Word) (x : NumVal) (rest : List (Event NumVal)), u < Config.ew →
    let d := s.draws + 1
    let writeAt := fun o => s.script = .bus ⟨Config.map.base + (o + 4 * u), 4, some w⟩ :: rest
    let Spliced := fun y => ∃ image : Config.Image, y = Config.dec image ∧
      ∀ v, v < Config.ew → image.extractLsb' (32 * v) 32 = if v = u then w else x.image.extractLsb' (32 * v) 32
    let Only := fun (p : Piece) (t : State) => t.status = s.status ∧ Frame (fun q => q = p) s.toEngine t.toEngine
    (s.busy = false →
      (∀ n < Config.pMax, readRes Config.params d s.toEngine n = x →
        writeAt (Config.map.offRes + 4 * Config.ew * n) →
        ∃ t y, step s = .next t ∧ lookup n t.res = some y ∧ Spliced y ∧ Only (.res n) t) ∧
      (∀ n < Config.pMax, readAcc Config.params d s.toEngine n = x →
        writeAt (Config.map.offAcc + 4 * Config.ew * n) →
        ∃ t y, step s = .next t ∧ lookup n t.acc = some y ∧ Spliced y ∧ Only (.acc n) t) ∧
      (∀ j, ∀ k < Config.pMax, ∀ z, readV Config.params d .host s.toEngine j k = z →
        (z.re = x → writeAt (Config.map.offV + 8 * Config.ew * Config.pMax * VReg.index j + 8 * Config.ew * k) →
          ∃ t y, step s = .next t ∧ lookup k (t.vreg j) = some ⟨y, z.im⟩ ∧ Spliced y ∧ Only (.vec j k) t) ∧
        (z.im = x →
          writeAt (Config.map.offV + 8 * Config.ew * Config.pMax * VReg.index j + 8 * Config.ew * k + 4 * Config.ew) →
          ∃ t y, step s = .next t ∧ lookup k (t.vreg j) = some ⟨z.re, y⟩ ∧ Spliced y ∧ Only (.vec j k) t))) ∧
    (s.busy = true →
      (∀ n < Config.pMax, writeAt (Config.map.offRes + 4 * Config.ew * n) ∨ writeAt (Config.map.offAcc + 4 * Config.ew * n) ∨
          (∃ j, ∃ y, (y = 0 ∨ y = 4 * Config.ew) ∧
            writeAt (Config.map.offV + 8 * Config.ew * Config.pMax * VReg.index j + 8 * Config.ew * n + y)) →
        ∃ t, step s = .next t ∧ t.toEngine = reject s.toEngine)) ∧
    (writeAt 0x40 → ∃ t, step s = .next t ∧ t.toEngine = s.toEngine)

/-- Bus reads. An idle read inside a window returns one word of the image of the element, written or not (R66); every aligned
word read at or above `BASE`, idle or busy, leaves the engine as it is (R64, R285); an offset that no row of the map covers
reads 0 and ignores a write (R65). The field that holds the answer is the model's (log entry 7). -/
def Obligations.WindowReadsAndHoles : Prop :=
  ∀ (s : State) (rest : List (Event NumVal)),
    let d := s.draws + 1
    let access := fun o v => s.script = .bus ⟨Config.map.base + o, 4, v⟩ :: rest
    let Answers := fun (x : NumVal) u => ∃ t, step s = .next t ∧ t.reply = .word (x.image.extractLsb' (32 * u) 32)
    (∀ o, o % 4 = 0 → access o none → ∃ t, step s = .next t ∧ t.toEngine = s.toEngine ∧ t.script = rest) ∧
    (s.busy = false → ∀ u < Config.ew,
      (∀ n < Config.pMax, access (Config.map.offRes + 4 * Config.ew * n + 4 * u) none →
        Answers (readRes Config.params d s.toEngine n) u) ∧
      (∀ n < Config.pMax, access (Config.map.offAcc + 4 * Config.ew * n + 4 * u) none →
        Answers (readAcc Config.params d s.toEngine n) u) ∧
      (∀ j, ∀ k < Config.pMax,
        (access (Config.map.offV + 8 * Config.ew * Config.pMax * VReg.index j + 8 * Config.ew * k + 4 * u) none →
          Answers (readV Config.params d .host s.toEngine j k).re u) ∧
        (access (Config.map.offV + 8 * Config.ew * Config.pMax * VReg.index j + 8 * Config.ew * k + 4 * Config.ew + 4 * u)
            none →
          Answers (readV Config.params d .host s.toEngine j k).im u)) ∧
      (access (0x40 + 4 * u) none → Answers s.delayMs u)) ∧
    (∀ o, o % 4 = 0 →
      (∀ r ∈ Config.map.rows Config.ew Config.pMax Config.recCap, ¬(r.1 ≤ o ∧ o < r.1 + r.2)) →
      (access o none → ∃ t, step s = .next t ∧ t.reply = .word 0#32) ∧
      (∀ w, access o (some w) → ∃ t, step s = .next t ∧ t.toEngine = s.toEngine))

/-- A bus access that is not an aligned 32-bit access has no defined behaviour and is refused (R63, U2), under the model's
name (log entry 16). -/
def Obligations.UnsupportedAccessRefused : Prop :=
  ∀ (s : State) (b : BusAccess) (rest : List (Event NumVal)), s.script = .bus b :: rest →
    b.bytes ≠ 4 ∨ b.addr % 4 ≠ 0 → step s = .refused .unsupportedAccess

/-! ### The engine at any number type -/

/-- Every element `CDIV` writes is finite in every `NUM` in which zero is (R172). -/
def Obligations.CdivResultsFinite : Prop :=
  ∀ {ν : Type} (H : Params ν) (d : Nat) (vd va vb : VReg) (e : Engine ν), H.num.isFinite H.num.zero = true →
    PeriodOk H e → DivFloorOk e →
    ∀ k < e.P, ∃ z, lookup k ((command H d (.cdiv vd va vb) e).vreg vd) = some z ∧
      H.num.isFinite z.re = true ∧ H.num.isFinite z.im = true

/-- A bin of channel 0 that is degenerate in every block: its quotient is forced to zero in every block, `ESTIMATE` completes,
counts it in every block, warns, and reports an index in `0 .. P-1`, in every `NUM` (R219). -/
def Obligations.DegenerateBinSafety : Prop :=
  ∀ {ν : Type} (H : Params ν) (d : Nat) (e : Engine ν) (k : Nat), EstimateOk H e → k < e.P →
    (∀ b < e.blocks, degenerate H.num (H.num.ofF32 e.divFloor) (blockBin H d e b .ch0 k) = true) →
    let t := command H d .estimate e
    (∀ b < e.blocks, transferBin H d e b k = ⟨H.num.zero, H.num.zero⟩) ∧
    t.err = e.err ∧ t.done = true ∧ t.wDegen = true ∧ e.blocks ≤ t.degenCnt.toNat ∧ t.peakIdx.toNat < e.P

/-- A NaN is never chosen over the current candidate: one in `RES[0]`, the first candidate, stays it, so that the index is 0, and
without one there the element at the index is no NaN; the index is always in `0 .. P-1` (R203, in `NUM_B64`). -/
def Obligations.PeakIgnoresNaN : Prop :=
  ∀ (L : B64Library) (x : Nat → B64) (P : Nat), 1 ≤ P →
    (B64.isNaN (x 0) = true → peakIndex (b64Num L) x P = 0) ∧
    (B64.isNaN (x 0) = false → B64.isNaN (x (peakIndex (b64Num L) x P)) = false) ∧
    peakIndex (b64Num L) x P < P

/-! ### `NUM_EXACT` -/

/-- The transforms invert each other: `FFT vd, va` then `IFFT ve, vd` leaves the original elements, and likewise in the
other order (R126). -/
def Obligations.ExactRoundTrip : Prop :=
  ∀ (H : Params ℝ) (d d' : Nat) (vd va ve : VReg) (e : Engine ℝ), IsExact H → PeriodOk H e →
    (∀ n < e.P, lookup n ((command H d' (.ifft ve vd) (command H d (.fft vd va) e)).vreg ve) =
      some (readV H d .a e va n)) ∧
    (∀ n < e.P, lookup n ((command H d' (.fft ve vd) (command H d (.ifft vd va) e)).vreg ve) =
      some (readV H d .a e va n))

/-- The shift property (R127), for a shift to either side by any amount: the transform of the shifted sequence, the quotient,
its inverse transform, and that the impulse stands at the same place under the opposite sign convention. -/
def Obligations.ExactShift : Prop :=
  ∀ (undef : Word → ℝ) (N : Nat) (s : ℤ) (x : Nat → Cx ℝ), 1 ≤ N →
    let X := exactDft N ((List.range N).map x)
    let Y := exactDft N ((List.range N).map (circularShift N s x))
    (∀ n < N, circularShift N s x n = x (((n : ℤ) - s) % (N : ℤ)).toNat) ∧
    (∀ k < N, toC (Y k) = Complex.exp (-(2 * Real.pi * Complex.I * s * k / N)) * toC (X k)) ∧
    (∀ k < N, X k ≠ ⟨0, 0⟩ → toC (shiftQuotient (exactNum undef) N s x k) = shiftPhase N s k) ∧
    ShiftImpulse (exactNum undef) N s x ∧ ShiftImpulse (oppositeNum undef) N s x

/-- The coefficients of the sweep in exact arithmetic (R141). -/
def Obligations.ExactSweepCoefficients : Prop :=
  ∀ (undef : Word → ℝ) (P : Nat) (d : ℝ), 2 ≤ P → P % 2 = 0 → 0 < d → d < 1 →
    let N := exactNum undef
    let NF : ℕ := P / 2
    let raw := sweepRawAlpha N P d
    let alpha := sweepAlpha N P d
    sweepBeta N P d * (NF * NF) / (2 * Real.pi) = d * P / 4 ∧ d * P / 4 = d * NF / 2 ∧ raw = ⌈d * P / 4⌉ ∧ 1 ≤ raw ∧ raw ≤ ⌈(P : ℝ) / 4⌉ ∧
    alpha = 2 * Real.pi * raw / NF - Real.pi * d ∧ 0 ≤ alpha ∧ alpha < 2 * Real.pi / NF ∧
    (alpha = 0 ↔ ∃ m : ℤ, d * P / 4 = m) ∧
    sweepPhase N P d 0 = 0 ∧ sweepPhase N P d NF = 2 * Real.pi * raw ∧
    sweepBin N P d 0 = ⟨1, 0⟩ ∧ sweepBin N P d NF = ⟨1, 0⟩ ∧
    (∀ k : ℕ, sweepPhase N P d k / (2 * Real.pi) = ((raw : ℝ) / NF - d / 2) * k + d / P * (k * k))

/-- After `SWEEP vd; MIRROR vd` every bin has unit magnitude and the spectrum is Hermitian (R142, R145). -/
def Obligations.ExactChirpSpectrum : Prop :=
  ∀ (H : Params ℝ) (d d' : Nat) (vd : VReg) (e : Engine ℝ), IsExact H → PeriodOk H e → DutyOk e →
    ∃ X : Nat → Cx ℝ,
      (∀ k < e.P, lookup k ((command H d' (.mirror vd) (command H d (.sweep vd) e)).vreg vd) = some (X k)) ∧
      (∀ k < e.P, magSq H.num (X k) = 1) ∧
      (∀ k < e.P, X ((e.P - k) % e.P) = conj H.num (X k)) ∧
      ∀ d'' : Nat, ∀ n < e.P, ∃ x,
        lookup n ((command H d'' (.ifft vd vd) (command H d' (.mirror vd) (command H d (.sweep vd) e))).vreg vd) =
          some ⟨x, 0⟩

/-- The chirp: `SYNTH` leaves in `RES` a signal whose forward transform is the constructed spectrum, of magnitude 1 in
every bin, and whose squares sum to 1; the imaginary parts it leaves in `V0` are 0 (R145, R146, R147). -/
def Obligations.ExactChirpFlatness : Prop :=
  ∀ (H : Params ℝ) (d : Nat) (e : Engine ℝ), IsExact H → PeriodOk H e → DutyOk e →
    ∃ x : Nat → ℝ,
      (∀ n < e.P, lookup n (command H d .synth e).res = some (x n) ∧
        lookup n ((command H d .synth e).vreg .v0) = some ⟨x n, 0⟩) ∧
      (∀ k < e.P, H.num.dft e.P ((List.range e.P).map (fun n => ofReal H.num (x n))) k =
        chirpBin H.num e.P (H.num.ofF32 e.duty) k) ∧
      (∀ k < e.P, magSq H.num (H.num.dft e.P ((List.range e.P).map (fun n => ofReal H.num (x n))) k) = 1) ∧
      ∑ n ∈ Finset.range e.P, x n ^ 2 = 1

/-- `NUM_EXACT` meets the named tolerance properties with tolerance 0, for every input and every `P_MAX`, and so
`SpectrumRoundTrip` at its 1e-6 (R15, R126, R146). The form of a tolerance, and for which periods it is asked, are the
model's (log entry 3). -/
def Obligations.ExactMeetsTolerances : Prop :=
  ∀ (undef : Word → ℝ) (pMax : Nat), RoundTrip (exactNum undef) pMax id (fun _ => True) 0 ∧
    Flatness (exactNum undef) pMax id 0 ∧ SpectrumWithin (exactNum undef) pMax id 0 ∧
    SpectrumRoundTrip (exactNum undef) pMax id

/-- The peak is the first sample of largest magnitude (R200, R201). -/
def Obligations.ExactPeakIsFirstMaximum : Prop :=
  ∀ (H : Params ℝ) (d : Nat) (e : Engine ℝ), IsExact H → PeriodOk H e → SRateOk e →
    let t := command H d .peak e
    let x := readRes H d e
    t.peakIdx.toNat < e.P ∧
    (∀ k < e.P, |x k| ≤ |x t.peakIdx.toNat|) ∧ (∀ k < t.peakIdx.toNat, |x k| < |x t.peakIdx.toNat|) ∧
    t.delayMs = (t.peakIdx.toNat * 1000 : ℝ) / e.sRate.toNat

/-- Scale invariance at the divider: forced quotients stay 0, the others scale (R174). -/
def Obligations.ExactDividerScales : Prop :=
  ∀ (undef : Word → ℝ) (fl g : ℝ) (a z : Cx ℝ), 0 < g →
    let N := exactNum undef
    binForced N fl ⟨g * a.re, g * a.im⟩ z = binForced N fl a z ∧
    binForced N fl a z = degenerate N fl z ∧
    (degenerate N fl z = true ↔ z = ⟨0, 0⟩ ∨ z.re ^ 2 + z.im ^ 2 < fl ^ 2) ∧
    (binForced N fl a z = true →
      binQuotient N fl a z = ⟨0, 0⟩ ∧ binQuotient N fl ⟨g * a.re, g * a.im⟩ z = ⟨0, 0⟩) ∧
    binQuotient N fl ⟨g * a.re, g * a.im⟩ z = ⟨g * (binQuotient N fl a z).re, g * (binQuotient N fl a z).im⟩

/-- Delay accuracy, noiseless case (R216): if in every analysed block channel 1 is `g` times channel 0 shifted circularly
by `shift`, and no bin of channel 0 is degenerate, then `ESTIMATE` ends with `RES` equal to `g` at the shift and 0
elsewhere, and reports the shift. -/
def Obligations.ExactDelayAccuracy : Prop :=
  ∀ (H : Params ℝ) (d : Nat) (e : Engine ℝ) (g : ℝ) (shift : ℤ), IsExact H → EstimateOk H e → g ≠ 0 →
    (∀ b < e.blocks, ∀ k < e.P,
      degenerate H.num (H.num.ofF32 e.divFloor) (blockBin H d e b .ch0 k) = false) →
    (∀ b < e.blocks, ∀ n < e.P,
      blockSample H d e b .ch1 n = g * circularShift e.P shift (blockSample H d e b .ch0) n) →
    let t := command H d .estimate e
    t.err = e.err ∧ t.done = true ∧ t.degenCnt = 0#32 ∧ (t.peakIdx.toNat : ℤ) = shift % (e.P : ℤ) ∧
      ∀ n < e.P, lookup n t.res = some (if (n : ℤ) = shift % (e.P : ℤ) then g else 0)

/-- Scale invariance (R217): multiplying every channel-1 sample by `k > 0` multiplies `RES` by `k` and leaves the estimate
and the counts unchanged. -/
def Obligations.ExactScaleInvariance : Prop :=
  ∀ (H : Params ℝ) (d : Nat) (e e' : Engine ℝ) (k : ℝ), IsExact H → EstimateOk H e → 0 < k →
    e'.period = e.period → e'.sRate = e.sRate → e'.recLen = e.recLen → e'.divFloor = e.divFloor →
    (∀ b < e.blocks, ∀ n < e.P, blockSample H d e' b .ch0 n = blockSample H d e b .ch0 n ∧
      blockSample H d e' b .ch1 n = k * blockSample H d e b .ch1 n) →
    let t := command H d .estimate e
    let t' := command H d .estimate e'
    (∀ n < e.P, ∃ x, lookup n t.res = some x ∧ lookup n t'.res = some (k * x)) ∧
      t'.peakIdx = t.peakIdx ∧ t'.delayMs = t.delayMs ∧ t'.nBlk = t.nBlk ∧ t'.degenCnt = t.degenCnt

/-- Block-order independence (R220): any order of the passes gives the same accumulator, result, estimate and counts. -/
def Obligations.ExactBlockOrder : Prop :=
  ∀ (H : Params ℝ) (d : Nat) (e : Engine ℝ) (bs : List Nat), IsExact H → EstimateOk H e →
    bs.Perm (List.range e.blocks) →
    let t := estimateEffect H d e
    let t' := estimateOrder H d bs e
    (∀ n, lookup n t'.acc = lookup n t.acc ∧ lookup n t'.res = lookup n t.res) ∧ t'.peakIdx = t.peakIdx ∧ t'.delayMs = t.delayMs ∧ t'.accCnt = t.accCnt ∧
      t'.degenCnt = t.degenCnt
end

