-- ==== Sys2Proof/Laws/Binary64.lean ====
section
/-! SUPPORT. The NaN of `NUM_B64`. -/

namespace Sys2Proof.Machine

/-- Whatever its sign and payload, the NaN of an implementation is a NaN. -/
@[simp] theorem B64.isNaN_quietNaN (s : Bool) (payload : BitVec 51) : B64.isNaN (B64.quietNaN s payload) = true := by
  have h1 : (B64.quietNaN s payload).extractLsb 62 52 = 0x7FF#11 := by
    apply BitVec.eq_of_getLsbD_eq
    intro i hi
    have hp : payload.getLsbD (52 + i) = false := BitVec.getLsbD_of_ge _ _ (by omega)
    cases s <;> interval_cases i <;> simp [B64.quietNaN, B64.signBit, BitVec.getLsbD_of_ge]
  have h2 : (B64.quietNaN s payload).extractLsb 51 0 ≠ 0#52 := by
    intro h
    have := congrArg (fun b => b.getLsbD 51) h
    cases s <;> simp [B64.quietNaN, B64.signBit] at this
  have h3 : ((B64.quietNaN s payload).extractLsb 51 0).toNat ≠ 0 := fun h => h2 (BitVec.eq_of_toNat_eq (by simpa using h))
  simp only [B64.isNaN, B64.expo, B64.frac, h1, Bool.and_eq_true, beq_iff_eq, bne_iff_ne]
  exact ⟨rfl, h3⟩

/-- The NaN of an implementation. -/
@[simp] theorem B64Library.isNaN_nan (L : B64Library) : B64.isNaN L.nan = true := B64.isNaN_quietNaN _ _

end Sys2Proof.Machine
end

