-- ==== Sys2Proof/Laws/Config.lean ====
section
/-! SUPPORT. The configured instance is an admissible one, and its parameters' bounds. -/

namespace Sys2Proof.Config

theorem ew_pos : 1 ≤ ew := by unfold ew; split <;> omega
theorem ew_le : ew ≤ 1008 := by unfold ew; split <;> omega
theorem pMax_even : pMax % 2 = 0 := by unfold pMax; split <;> omega
theorem pMax_ge : 2 ≤ pMax := by unfold pMax; split <;> omega
theorem pMax_le : pMax ≤ 2 ^ 24 := by unfold pMax; split <;> omega
theorem recCap_ge : 1 ≤ recCap := by unfold recCap; split <;> omega
theorem recCap_le : recCap ≤ 2 ^ 29 := by unfold recCap; split <;> omega

/-- R65's default offsets fit whenever `EW <= 1008`. -/
theorem standard_fits {ew pMax recCap : Nat} (h : ew ≤ 1008) :
    (AddressMap.standard ew pMax).Fits ew pMax recCap := by
  have e1 : 4 * ew * pMax = 4 * (ew * pMax) := by ring
  have e2 : 8 * ew * pMax = 8 * (ew * pMax) := by ring
  have e3 : 32 * ew * pMax = 32 * (ew * pMax) := by ring
  have e4 : 40 * ew * pMax = 40 * (ew * pMax) := by ring
  simp only [AddressMap.Fits, AddressMap.standard, AddressMap.rows, e1, e2, e3, e4]
  generalize ew * pMax = x
  refine ⟨trivial, trivial, by omega, by omega, by omega, by omega, ?_⟩
  simp only [List.pairwise_cons, List.forall_mem_cons]
  refine ⟨⟨by omega, by omega, by omega, by omega, by omega, by simp⟩, ⟨by omega, by omega, by omega, by omega, by simp⟩,
    ⟨by omega, by omega, by omega, by simp⟩, ⟨by omega, by omega, by simp⟩, ⟨by omega, by simp⟩, by simp, by simp⟩

theorem map_fits : map.Fits ew pMax recCap := by
  unfold map
  split
  · assumption
  · exact standard_fits ew_le

theorem dec_enc (x : NumVal) : dec x.image = x := by
  obtain ⟨i, h⟩ := x
  simp [dec, h]

theorem params_admissible : params.Admissible where
  pMax_even := pMax_even
  pMax_ge := pMax_ge
  pMax_le := pMax_le
  recCap_ge := recCap_ge
  recCap_le := recCap_le
  dec_enc := dec_enc
  map_fits := map_fits

@[simp] theorem params_pMax : params.pMax = pMax := rfl
@[simp] theorem params_recCap : params.recCap = recCap := rfl
@[simp] theorem params_num : params.num = num := rfl
@[simp] theorem params_map : params.map = map := rfl

end Sys2Proof.Config
end

