-- ==== Sys2Proof/Laws/State.lean ====
section
/-! SUPPORT. One lemma per field per update of the engine's state, each true by `rfl`, so that no later proof unfolds an update. -/

namespace Sys2Proof.Machine

variable {ν : Type}

section setBusy
variable (b : Bool) (e : Engine ν)
@[simp] theorem setBusy_ctrl : (setBusy b e).ctrl = e.ctrl := rfl
@[simp] theorem setBusy_status : (setBusy b e).status = withBit 0 b e.status := rfl
@[simp] theorem setBusy_err : (setBusy b e).err = e.err := rfl
@[simp] theorem setBusy_errCmd : (setBusy b e).errCmd = e.errCmd := rfl
@[simp] theorem setBusy_period : (setBusy b e).period = e.period := rfl
@[simp] theorem setBusy_duty : (setBusy b e).duty = e.duty := rfl
@[simp] theorem setBusy_sRate : (setBusy b e).sRate = e.sRate := rfl
@[simp] theorem setBusy_recLen : (setBusy b e).recLen = e.recLen := rfl
@[simp] theorem setBusy_blk : (setBusy b e).blk = e.blk := rfl
@[simp] theorem setBusy_divFloor : (setBusy b e).divFloor = e.divFloor := rfl
@[simp] theorem setBusy_nBlk : (setBusy b e).nBlk = e.nBlk := rfl
@[simp] theorem setBusy_accCnt : (setBusy b e).accCnt = e.accCnt := rfl
@[simp] theorem setBusy_degenCnt : (setBusy b e).degenCnt = e.degenCnt := rfl
@[simp] theorem setBusy_peakIdx : (setBusy b e).peakIdx = e.peakIdx := rfl
@[simp] theorem setBusy_delayMs : (setBusy b e).delayMs = e.delayMs := rfl
@[simp] theorem setBusy_v0 : (setBusy b e).v0 = e.v0 := rfl
@[simp] theorem setBusy_v1 : (setBusy b e).v1 = e.v1 := rfl
@[simp] theorem setBusy_v2 : (setBusy b e).v2 = e.v2 := rfl
@[simp] theorem setBusy_v3 : (setBusy b e).v3 = e.v3 := rfl
@[simp] theorem setBusy_acc : (setBusy b e).acc = e.acc := rfl
@[simp] theorem setBusy_res : (setBusy b e).res = e.res := rfl
@[simp] theorem setBusy_recording : (setBusy b e).recording = e.recording := rfl
@[simp] theorem setBusy_cmdLatch : (setBusy b e).cmdLatch = e.cmdLatch := rfl
@[simp] theorem setBusy_vreg (j : VReg) : (setBusy b e).vreg j = e.vreg j := by cases j <;> rfl
end setBusy

section setDone
variable (b : Bool) (e : Engine ν)
@[simp] theorem setDone_ctrl : (setDone b e).ctrl = e.ctrl := rfl
@[simp] theorem setDone_status : (setDone b e).status = withBit 1 b e.status := rfl
@[simp] theorem setDone_err : (setDone b e).err = e.err := rfl
@[simp] theorem setDone_errCmd : (setDone b e).errCmd = e.errCmd := rfl
@[simp] theorem setDone_period : (setDone b e).period = e.period := rfl
@[simp] theorem setDone_duty : (setDone b e).duty = e.duty := rfl
@[simp] theorem setDone_sRate : (setDone b e).sRate = e.sRate := rfl
@[simp] theorem setDone_recLen : (setDone b e).recLen = e.recLen := rfl
@[simp] theorem setDone_blk : (setDone b e).blk = e.blk := rfl
@[simp] theorem setDone_divFloor : (setDone b e).divFloor = e.divFloor := rfl
@[simp] theorem setDone_nBlk : (setDone b e).nBlk = e.nBlk := rfl
@[simp] theorem setDone_accCnt : (setDone b e).accCnt = e.accCnt := rfl
@[simp] theorem setDone_degenCnt : (setDone b e).degenCnt = e.degenCnt := rfl
@[simp] theorem setDone_peakIdx : (setDone b e).peakIdx = e.peakIdx := rfl
@[simp] theorem setDone_delayMs : (setDone b e).delayMs = e.delayMs := rfl
@[simp] theorem setDone_v0 : (setDone b e).v0 = e.v0 := rfl
@[simp] theorem setDone_v1 : (setDone b e).v1 = e.v1 := rfl
@[simp] theorem setDone_v2 : (setDone b e).v2 = e.v2 := rfl
@[simp] theorem setDone_v3 : (setDone b e).v3 = e.v3 := rfl
@[simp] theorem setDone_acc : (setDone b e).acc = e.acc := rfl
@[simp] theorem setDone_res : (setDone b e).res = e.res := rfl
@[simp] theorem setDone_recording : (setDone b e).recording = e.recording := rfl
@[simp] theorem setDone_cmdLatch : (setDone b e).cmdLatch = e.cmdLatch := rfl
@[simp] theorem setDone_vreg (j : VReg) : (setDone b e).vreg j = e.vreg j := by cases j <;> rfl
end setDone

section reject
variable (e : Engine ν)
@[simp] theorem reject_ctrl : (reject e).ctrl = e.ctrl := rfl
@[simp] theorem reject_status : (reject e).status = withBit 2 true e.status := rfl
@[simp] theorem reject_err : (reject e).err = e.err := rfl
@[simp] theorem reject_errCmd : (reject e).errCmd = e.errCmd := rfl
@[simp] theorem reject_period : (reject e).period = e.period := rfl
@[simp] theorem reject_duty : (reject e).duty = e.duty := rfl
@[simp] theorem reject_sRate : (reject e).sRate = e.sRate := rfl
@[simp] theorem reject_recLen : (reject e).recLen = e.recLen := rfl
@[simp] theorem reject_blk : (reject e).blk = e.blk := rfl
@[simp] theorem reject_divFloor : (reject e).divFloor = e.divFloor := rfl
@[simp] theorem reject_nBlk : (reject e).nBlk = e.nBlk := rfl
@[simp] theorem reject_accCnt : (reject e).accCnt = e.accCnt := rfl
@[simp] theorem reject_degenCnt : (reject e).degenCnt = e.degenCnt := rfl
@[simp] theorem reject_peakIdx : (reject e).peakIdx = e.peakIdx := rfl
@[simp] theorem reject_delayMs : (reject e).delayMs = e.delayMs := rfl
@[simp] theorem reject_v0 : (reject e).v0 = e.v0 := rfl
@[simp] theorem reject_v1 : (reject e).v1 = e.v1 := rfl
@[simp] theorem reject_v2 : (reject e).v2 = e.v2 := rfl
@[simp] theorem reject_v3 : (reject e).v3 = e.v3 := rfl
@[simp] theorem reject_acc : (reject e).acc = e.acc := rfl
@[simp] theorem reject_res : (reject e).res = e.res := rfl
@[simp] theorem reject_recording : (reject e).recording = e.recording := rfl
@[simp] theorem reject_cmdLatch : (reject e).cmdLatch = e.cmdLatch := rfl
@[simp] theorem reject_vreg (j : VReg) : (reject e).vreg j = e.vreg j := by cases j <;> rfl
end reject

section warnDegen
variable (b : Bool) (e : Engine ν)
@[simp] theorem warnDegen_ctrl : (warnDegen b e).ctrl = e.ctrl := rfl
@[simp] theorem warnDegen_status : (warnDegen b e).status = withBit 3 (e.wDegen || b) e.status := rfl
@[simp] theorem warnDegen_err : (warnDegen b e).err = e.err := rfl
@[simp] theorem warnDegen_errCmd : (warnDegen b e).errCmd = e.errCmd := rfl
@[simp] theorem warnDegen_period : (warnDegen b e).period = e.period := rfl
@[simp] theorem warnDegen_duty : (warnDegen b e).duty = e.duty := rfl
@[simp] theorem warnDegen_sRate : (warnDegen b e).sRate = e.sRate := rfl
@[simp] theorem warnDegen_recLen : (warnDegen b e).recLen = e.recLen := rfl
@[simp] theorem warnDegen_blk : (warnDegen b e).blk = e.blk := rfl
@[simp] theorem warnDegen_divFloor : (warnDegen b e).divFloor = e.divFloor := rfl
@[simp] theorem warnDegen_nBlk : (warnDegen b e).nBlk = e.nBlk := rfl
@[simp] theorem warnDegen_accCnt : (warnDegen b e).accCnt = e.accCnt := rfl
@[simp] theorem warnDegen_degenCnt : (warnDegen b e).degenCnt = e.degenCnt := rfl
@[simp] theorem warnDegen_peakIdx : (warnDegen b e).peakIdx = e.peakIdx := rfl
@[simp] theorem warnDegen_delayMs : (warnDegen b e).delayMs = e.delayMs := rfl
@[simp] theorem warnDegen_v0 : (warnDegen b e).v0 = e.v0 := rfl
@[simp] theorem warnDegen_v1 : (warnDegen b e).v1 = e.v1 := rfl
@[simp] theorem warnDegen_v2 : (warnDegen b e).v2 = e.v2 := rfl
@[simp] theorem warnDegen_v3 : (warnDegen b e).v3 = e.v3 := rfl
@[simp] theorem warnDegen_acc : (warnDegen b e).acc = e.acc := rfl
@[simp] theorem warnDegen_res : (warnDegen b e).res = e.res := rfl
@[simp] theorem warnDegen_recording : (warnDegen b e).recording = e.recording := rfl
@[simp] theorem warnDegen_cmdLatch : (warnDegen b e).cmdLatch = e.cmdLatch := rfl
@[simp] theorem warnDegen_vreg (j : VReg) : (warnDegen b e).vreg j = e.vreg j := by cases j <;> rfl
end warnDegen

section warnNonFin
variable (b : Bool) (e : Engine ν)
@[simp] theorem warnNonFin_ctrl : (warnNonFin b e).ctrl = e.ctrl := rfl
@[simp] theorem warnNonFin_status : (warnNonFin b e).status = withBit 4 (e.wNonFin || b) e.status := rfl
@[simp] theorem warnNonFin_err : (warnNonFin b e).err = e.err := rfl
@[simp] theorem warnNonFin_errCmd : (warnNonFin b e).errCmd = e.errCmd := rfl
@[simp] theorem warnNonFin_period : (warnNonFin b e).period = e.period := rfl
@[simp] theorem warnNonFin_duty : (warnNonFin b e).duty = e.duty := rfl
@[simp] theorem warnNonFin_sRate : (warnNonFin b e).sRate = e.sRate := rfl
@[simp] theorem warnNonFin_recLen : (warnNonFin b e).recLen = e.recLen := rfl
@[simp] theorem warnNonFin_blk : (warnNonFin b e).blk = e.blk := rfl
@[simp] theorem warnNonFin_divFloor : (warnNonFin b e).divFloor = e.divFloor := rfl
@[simp] theorem warnNonFin_nBlk : (warnNonFin b e).nBlk = e.nBlk := rfl
@[simp] theorem warnNonFin_accCnt : (warnNonFin b e).accCnt = e.accCnt := rfl
@[simp] theorem warnNonFin_degenCnt : (warnNonFin b e).degenCnt = e.degenCnt := rfl
@[simp] theorem warnNonFin_peakIdx : (warnNonFin b e).peakIdx = e.peakIdx := rfl
@[simp] theorem warnNonFin_delayMs : (warnNonFin b e).delayMs = e.delayMs := rfl
@[simp] theorem warnNonFin_v0 : (warnNonFin b e).v0 = e.v0 := rfl
@[simp] theorem warnNonFin_v1 : (warnNonFin b e).v1 = e.v1 := rfl
@[simp] theorem warnNonFin_v2 : (warnNonFin b e).v2 = e.v2 := rfl
@[simp] theorem warnNonFin_v3 : (warnNonFin b e).v3 = e.v3 := rfl
@[simp] theorem warnNonFin_acc : (warnNonFin b e).acc = e.acc := rfl
@[simp] theorem warnNonFin_res : (warnNonFin b e).res = e.res := rfl
@[simp] theorem warnNonFin_recording : (warnNonFin b e).recording = e.recording := rfl
@[simp] theorem warnNonFin_cmdLatch : (warnNonFin b e).cmdLatch = e.cmdLatch := rfl
@[simp] theorem warnNonFin_vreg (j : VReg) : (warnNonFin b e).vreg j = e.vreg j := by cases j <;> rfl
end warnNonFin

section clearStatus
variable (w : Word) (e : Engine ν)
@[simp] theorem clearStatus_ctrl : (clearStatus w e).ctrl = e.ctrl := rfl
@[simp] theorem clearStatus_status : (clearStatus w e).status = e.status &&& ~~~(w &&& w1cBits) := rfl
@[simp] theorem clearStatus_err : (clearStatus w e).err = e.err := rfl
@[simp] theorem clearStatus_errCmd : (clearStatus w e).errCmd = e.errCmd := rfl
@[simp] theorem clearStatus_period : (clearStatus w e).period = e.period := rfl
@[simp] theorem clearStatus_duty : (clearStatus w e).duty = e.duty := rfl
@[simp] theorem clearStatus_sRate : (clearStatus w e).sRate = e.sRate := rfl
@[simp] theorem clearStatus_recLen : (clearStatus w e).recLen = e.recLen := rfl
@[simp] theorem clearStatus_blk : (clearStatus w e).blk = e.blk := rfl
@[simp] theorem clearStatus_divFloor : (clearStatus w e).divFloor = e.divFloor := rfl
@[simp] theorem clearStatus_nBlk : (clearStatus w e).nBlk = e.nBlk := rfl
@[simp] theorem clearStatus_accCnt : (clearStatus w e).accCnt = e.accCnt := rfl
@[simp] theorem clearStatus_degenCnt : (clearStatus w e).degenCnt = e.degenCnt := rfl
@[simp] theorem clearStatus_peakIdx : (clearStatus w e).peakIdx = e.peakIdx := rfl
@[simp] theorem clearStatus_delayMs : (clearStatus w e).delayMs = e.delayMs := rfl
@[simp] theorem clearStatus_v0 : (clearStatus w e).v0 = e.v0 := rfl
@[simp] theorem clearStatus_v1 : (clearStatus w e).v1 = e.v1 := rfl
@[simp] theorem clearStatus_v2 : (clearStatus w e).v2 = e.v2 := rfl
@[simp] theorem clearStatus_v3 : (clearStatus w e).v3 = e.v3 := rfl
@[simp] theorem clearStatus_acc : (clearStatus w e).acc = e.acc := rfl
@[simp] theorem clearStatus_res : (clearStatus w e).res = e.res := rfl
@[simp] theorem clearStatus_recording : (clearStatus w e).recording = e.recording := rfl
@[simp] theorem clearStatus_cmdLatch : (clearStatus w e).cmdLatch = e.cmdLatch := rfl
@[simp] theorem clearStatus_vreg (j : VReg) : (clearStatus w e).vreg j = e.vreg j := by cases j <;> rfl
end clearStatus

section clearErr
variable (e : Engine ν)
@[simp] theorem clearErr_ctrl : (clearErr e).ctrl = e.ctrl := rfl
@[simp] theorem clearErr_status : (clearErr e).status = e.status := rfl
@[simp] theorem clearErr_err : (clearErr e).err = 0#32 := rfl
@[simp] theorem clearErr_errCmd : (clearErr e).errCmd = e.errCmd := rfl
@[simp] theorem clearErr_period : (clearErr e).period = e.period := rfl
@[simp] theorem clearErr_duty : (clearErr e).duty = e.duty := rfl
@[simp] theorem clearErr_sRate : (clearErr e).sRate = e.sRate := rfl
@[simp] theorem clearErr_recLen : (clearErr e).recLen = e.recLen := rfl
@[simp] theorem clearErr_blk : (clearErr e).blk = e.blk := rfl
@[simp] theorem clearErr_divFloor : (clearErr e).divFloor = e.divFloor := rfl
@[simp] theorem clearErr_nBlk : (clearErr e).nBlk = e.nBlk := rfl
@[simp] theorem clearErr_accCnt : (clearErr e).accCnt = e.accCnt := rfl
@[simp] theorem clearErr_degenCnt : (clearErr e).degenCnt = e.degenCnt := rfl
@[simp] theorem clearErr_peakIdx : (clearErr e).peakIdx = e.peakIdx := rfl
@[simp] theorem clearErr_delayMs : (clearErr e).delayMs = e.delayMs := rfl
@[simp] theorem clearErr_v0 : (clearErr e).v0 = e.v0 := rfl
@[simp] theorem clearErr_v1 : (clearErr e).v1 = e.v1 := rfl
@[simp] theorem clearErr_v2 : (clearErr e).v2 = e.v2 := rfl
@[simp] theorem clearErr_v3 : (clearErr e).v3 = e.v3 := rfl
@[simp] theorem clearErr_acc : (clearErr e).acc = e.acc := rfl
@[simp] theorem clearErr_res : (clearErr e).res = e.res := rfl
@[simp] theorem clearErr_recording : (clearErr e).recording = e.recording := rfl
@[simp] theorem clearErr_cmdLatch : (clearErr e).cmdLatch = e.cmdLatch := rfl
@[simp] theorem clearErr_vreg (j : VReg) : (clearErr e).vreg j = e.vreg j := by cases j <;> rfl
end clearErr

section writeEnables
variable (w : Word) (e : Engine ν)
@[simp] theorem writeEnables_ctrl : (writeEnables w e).ctrl = w &&& 0x00000003#32 := rfl
@[simp] theorem writeEnables_status : (writeEnables w e).status = e.status := rfl
@[simp] theorem writeEnables_err : (writeEnables w e).err = e.err := rfl
@[simp] theorem writeEnables_errCmd : (writeEnables w e).errCmd = e.errCmd := rfl
@[simp] theorem writeEnables_period : (writeEnables w e).period = e.period := rfl
@[simp] theorem writeEnables_duty : (writeEnables w e).duty = e.duty := rfl
@[simp] theorem writeEnables_sRate : (writeEnables w e).sRate = e.sRate := rfl
@[simp] theorem writeEnables_recLen : (writeEnables w e).recLen = e.recLen := rfl
@[simp] theorem writeEnables_blk : (writeEnables w e).blk = e.blk := rfl
@[simp] theorem writeEnables_divFloor : (writeEnables w e).divFloor = e.divFloor := rfl
@[simp] theorem writeEnables_nBlk : (writeEnables w e).nBlk = e.nBlk := rfl
@[simp] theorem writeEnables_accCnt : (writeEnables w e).accCnt = e.accCnt := rfl
@[simp] theorem writeEnables_degenCnt : (writeEnables w e).degenCnt = e.degenCnt := rfl
@[simp] theorem writeEnables_peakIdx : (writeEnables w e).peakIdx = e.peakIdx := rfl
@[simp] theorem writeEnables_delayMs : (writeEnables w e).delayMs = e.delayMs := rfl
@[simp] theorem writeEnables_v0 : (writeEnables w e).v0 = e.v0 := rfl
@[simp] theorem writeEnables_v1 : (writeEnables w e).v1 = e.v1 := rfl
@[simp] theorem writeEnables_v2 : (writeEnables w e).v2 = e.v2 := rfl
@[simp] theorem writeEnables_v3 : (writeEnables w e).v3 = e.v3 := rfl
@[simp] theorem writeEnables_acc : (writeEnables w e).acc = e.acc := rfl
@[simp] theorem writeEnables_res : (writeEnables w e).res = e.res := rfl
@[simp] theorem writeEnables_recording : (writeEnables w e).recording = e.recording := rfl
@[simp] theorem writeEnables_cmdLatch : (writeEnables w e).cmdLatch = e.cmdLatch := rfl
@[simp] theorem writeEnables_vreg (j : VReg) : (writeEnables w e).vreg j = e.vreg j := by cases j <;> rfl
end writeEnables

section memWrite
variable (a : Nat) (w : Word) (e : Engine ν)
@[simp] theorem memWrite_ctrl : (memWrite a w e).ctrl = e.ctrl := rfl
@[simp] theorem memWrite_status : (memWrite a w e).status = e.status := rfl
@[simp] theorem memWrite_err : (memWrite a w e).err = e.err := rfl
@[simp] theorem memWrite_errCmd : (memWrite a w e).errCmd = e.errCmd := rfl
@[simp] theorem memWrite_period : (memWrite a w e).period = e.period := rfl
@[simp] theorem memWrite_duty : (memWrite a w e).duty = e.duty := rfl
@[simp] theorem memWrite_sRate : (memWrite a w e).sRate = e.sRate := rfl
@[simp] theorem memWrite_recLen : (memWrite a w e).recLen = e.recLen := rfl
@[simp] theorem memWrite_blk : (memWrite a w e).blk = e.blk := rfl
@[simp] theorem memWrite_divFloor : (memWrite a w e).divFloor = e.divFloor := rfl
@[simp] theorem memWrite_nBlk : (memWrite a w e).nBlk = e.nBlk := rfl
@[simp] theorem memWrite_accCnt : (memWrite a w e).accCnt = e.accCnt := rfl
@[simp] theorem memWrite_degenCnt : (memWrite a w e).degenCnt = e.degenCnt := rfl
@[simp] theorem memWrite_peakIdx : (memWrite a w e).peakIdx = e.peakIdx := rfl
@[simp] theorem memWrite_delayMs : (memWrite a w e).delayMs = e.delayMs := rfl
@[simp] theorem memWrite_v0 : (memWrite a w e).v0 = e.v0 := rfl
@[simp] theorem memWrite_v1 : (memWrite a w e).v1 = e.v1 := rfl
@[simp] theorem memWrite_v2 : (memWrite a w e).v2 = e.v2 := rfl
@[simp] theorem memWrite_v3 : (memWrite a w e).v3 = e.v3 := rfl
@[simp] theorem memWrite_acc : (memWrite a w e).acc = e.acc := rfl
@[simp] theorem memWrite_res : (memWrite a w e).res = e.res := rfl
@[simp] theorem memWrite_cmdLatch : (memWrite a w e).cmdLatch = e.cmdLatch := rfl
@[simp] theorem memWrite_vreg (j : VReg) : (memWrite a w e).vreg j = e.vreg j := by cases j <;> rfl
end memWrite

section writeAcc
variable (n : Nat) (f : Nat → ν) (e : Engine ν)
@[simp] theorem writeAcc_ctrl : (writeAcc n f e).ctrl = e.ctrl := rfl
@[simp] theorem writeAcc_status : (writeAcc n f e).status = e.status := rfl
@[simp] theorem writeAcc_err : (writeAcc n f e).err = e.err := rfl
@[simp] theorem writeAcc_errCmd : (writeAcc n f e).errCmd = e.errCmd := rfl
@[simp] theorem writeAcc_period : (writeAcc n f e).period = e.period := rfl
@[simp] theorem writeAcc_duty : (writeAcc n f e).duty = e.duty := rfl
@[simp] theorem writeAcc_sRate : (writeAcc n f e).sRate = e.sRate := rfl
@[simp] theorem writeAcc_recLen : (writeAcc n f e).recLen = e.recLen := rfl
@[simp] theorem writeAcc_blk : (writeAcc n f e).blk = e.blk := rfl
@[simp] theorem writeAcc_divFloor : (writeAcc n f e).divFloor = e.divFloor := rfl
@[simp] theorem writeAcc_nBlk : (writeAcc n f e).nBlk = e.nBlk := rfl
@[simp] theorem writeAcc_accCnt : (writeAcc n f e).accCnt = e.accCnt := rfl
@[simp] theorem writeAcc_degenCnt : (writeAcc n f e).degenCnt = e.degenCnt := rfl
@[simp] theorem writeAcc_peakIdx : (writeAcc n f e).peakIdx = e.peakIdx := rfl
@[simp] theorem writeAcc_delayMs : (writeAcc n f e).delayMs = e.delayMs := rfl
@[simp] theorem writeAcc_v0 : (writeAcc n f e).v0 = e.v0 := rfl
@[simp] theorem writeAcc_v1 : (writeAcc n f e).v1 = e.v1 := rfl
@[simp] theorem writeAcc_v2 : (writeAcc n f e).v2 = e.v2 := rfl
@[simp] theorem writeAcc_v3 : (writeAcc n f e).v3 = e.v3 := rfl
@[simp] theorem writeAcc_acc : (writeAcc n f e).acc = storeRange 0 f n e.acc := rfl
@[simp] theorem writeAcc_res : (writeAcc n f e).res = e.res := rfl
@[simp] theorem writeAcc_recording : (writeAcc n f e).recording = e.recording := rfl
@[simp] theorem writeAcc_cmdLatch : (writeAcc n f e).cmdLatch = e.cmdLatch := rfl
@[simp] theorem writeAcc_vreg (j : VReg) : (writeAcc n f e).vreg j = e.vreg j := by cases j <;> rfl
end writeAcc

section writeRes
variable (n : Nat) (f : Nat → ν) (e : Engine ν)
@[simp] theorem writeRes_ctrl : (writeRes n f e).ctrl = e.ctrl := rfl
@[simp] theorem writeRes_status : (writeRes n f e).status = e.status := rfl
@[simp] theorem writeRes_err : (writeRes n f e).err = e.err := rfl
@[simp] theorem writeRes_errCmd : (writeRes n f e).errCmd = e.errCmd := rfl
@[simp] theorem writeRes_period : (writeRes n f e).period = e.period := rfl
@[simp] theorem writeRes_duty : (writeRes n f e).duty = e.duty := rfl
@[simp] theorem writeRes_sRate : (writeRes n f e).sRate = e.sRate := rfl
@[simp] theorem writeRes_recLen : (writeRes n f e).recLen = e.recLen := rfl
@[simp] theorem writeRes_blk : (writeRes n f e).blk = e.blk := rfl
@[simp] theorem writeRes_divFloor : (writeRes n f e).divFloor = e.divFloor := rfl
@[simp] theorem writeRes_nBlk : (writeRes n f e).nBlk = e.nBlk := rfl
@[simp] theorem writeRes_accCnt : (writeRes n f e).accCnt = e.accCnt := rfl
@[simp] theorem writeRes_degenCnt : (writeRes n f e).degenCnt = e.degenCnt := rfl
@[simp] theorem writeRes_peakIdx : (writeRes n f e).peakIdx = e.peakIdx := rfl
@[simp] theorem writeRes_delayMs : (writeRes n f e).delayMs = e.delayMs := rfl
@[simp] theorem writeRes_v0 : (writeRes n f e).v0 = e.v0 := rfl
@[simp] theorem writeRes_v1 : (writeRes n f e).v1 = e.v1 := rfl
@[simp] theorem writeRes_v2 : (writeRes n f e).v2 = e.v2 := rfl
@[simp] theorem writeRes_v3 : (writeRes n f e).v3 = e.v3 := rfl
@[simp] theorem writeRes_acc : (writeRes n f e).acc = e.acc := rfl
@[simp] theorem writeRes_res : (writeRes n f e).res = storeRange 0 f n e.res := rfl
@[simp] theorem writeRes_recording : (writeRes n f e).recording = e.recording := rfl
@[simp] theorem writeRes_cmdLatch : (writeRes n f e).cmdLatch = e.cmdLatch := rfl
@[simp] theorem writeRes_vreg (j : VReg) : (writeRes n f e).vreg j = e.vreg j := by cases j <;> rfl
end writeRes

section finish
variable (e : Engine ν)
@[simp] theorem finish_ctrl : (finish e).ctrl = e.ctrl := rfl
@[simp] theorem finish_status : (finish e).status = withBit 1 true (withBit 0 false e.status) := rfl
@[simp] theorem finish_err : (finish e).err = e.err := rfl
@[simp] theorem finish_errCmd : (finish e).errCmd = e.errCmd := rfl
@[simp] theorem finish_period : (finish e).period = e.period := rfl
@[simp] theorem finish_duty : (finish e).duty = e.duty := rfl
@[simp] theorem finish_sRate : (finish e).sRate = e.sRate := rfl
@[simp] theorem finish_recLen : (finish e).recLen = e.recLen := rfl
@[simp] theorem finish_blk : (finish e).blk = e.blk := rfl
@[simp] theorem finish_divFloor : (finish e).divFloor = e.divFloor := rfl
@[simp] theorem finish_nBlk : (finish e).nBlk = e.nBlk := rfl
@[simp] theorem finish_accCnt : (finish e).accCnt = e.accCnt := rfl
@[simp] theorem finish_degenCnt : (finish e).degenCnt = e.degenCnt := rfl
@[simp] theorem finish_peakIdx : (finish e).peakIdx = e.peakIdx := rfl
@[simp] theorem finish_delayMs : (finish e).delayMs = e.delayMs := rfl
@[simp] theorem finish_v0 : (finish e).v0 = e.v0 := rfl
@[simp] theorem finish_v1 : (finish e).v1 = e.v1 := rfl
@[simp] theorem finish_v2 : (finish e).v2 = e.v2 := rfl
@[simp] theorem finish_v3 : (finish e).v3 = e.v3 := rfl
@[simp] theorem finish_acc : (finish e).acc = e.acc := rfl
@[simp] theorem finish_res : (finish e).res = e.res := rfl
@[simp] theorem finish_recording : (finish e).recording = e.recording := rfl
@[simp] theorem finish_cmdLatch : (finish e).cmdLatch = e.cmdLatch := rfl
@[simp] theorem finish_vreg (j : VReg) : (finish e).vreg j = e.vreg j := by cases j <;> rfl
end finish

section raise
variable (f : FaultCode) (e : Engine ν)
@[simp] theorem raise_ctrl : (raise f e).ctrl = e.ctrl := rfl
@[simp] theorem raise_status : (raise f e).status = withBit 0 false e.status := rfl
@[simp] theorem raise_err : (raise f e).err = f.number := rfl
@[simp] theorem raise_errCmd : (raise f e).errCmd = e.cmdLatch := rfl
@[simp] theorem raise_period : (raise f e).period = e.period := rfl
@[simp] theorem raise_duty : (raise f e).duty = e.duty := rfl
@[simp] theorem raise_sRate : (raise f e).sRate = e.sRate := rfl
@[simp] theorem raise_recLen : (raise f e).recLen = e.recLen := rfl
@[simp] theorem raise_blk : (raise f e).blk = e.blk := rfl
@[simp] theorem raise_divFloor : (raise f e).divFloor = e.divFloor := rfl
@[simp] theorem raise_nBlk : (raise f e).nBlk = e.nBlk := rfl
@[simp] theorem raise_accCnt : (raise f e).accCnt = e.accCnt := rfl
@[simp] theorem raise_degenCnt : (raise f e).degenCnt = e.degenCnt := rfl
@[simp] theorem raise_peakIdx : (raise f e).peakIdx = e.peakIdx := rfl
@[simp] theorem raise_delayMs : (raise f e).delayMs = e.delayMs := rfl
@[simp] theorem raise_v0 : (raise f e).v0 = e.v0 := rfl
@[simp] theorem raise_v1 : (raise f e).v1 = e.v1 := rfl
@[simp] theorem raise_v2 : (raise f e).v2 = e.v2 := rfl
@[simp] theorem raise_v3 : (raise f e).v3 = e.v3 := rfl
@[simp] theorem raise_acc : (raise f e).acc = e.acc := rfl
@[simp] theorem raise_res : (raise f e).res = e.res := rfl
@[simp] theorem raise_recording : (raise f e).recording = e.recording := rfl
@[simp] theorem raise_cmdLatch : (raise f e).cmdLatch = e.cmdLatch := rfl
@[simp] theorem raise_vreg (j : VReg) : (raise f e).vreg j = e.vreg j := by cases j <;> rfl
end raise

section accept
variable (w : Word) (e : Engine ν)
@[simp] theorem accept_ctrl : (accept w e).ctrl = e.ctrl := rfl
@[simp] theorem accept_status : (accept w e).status = withBit 1 false (withBit 0 true e.status) := rfl
@[simp] theorem accept_err : (accept w e).err = e.err := rfl
@[simp] theorem accept_errCmd : (accept w e).errCmd = e.errCmd := rfl
@[simp] theorem accept_period : (accept w e).period = e.period := rfl
@[simp] theorem accept_duty : (accept w e).duty = e.duty := rfl
@[simp] theorem accept_sRate : (accept w e).sRate = e.sRate := rfl
@[simp] theorem accept_recLen : (accept w e).recLen = e.recLen := rfl
@[simp] theorem accept_blk : (accept w e).blk = e.blk := rfl
@[simp] theorem accept_divFloor : (accept w e).divFloor = e.divFloor := rfl
@[simp] theorem accept_nBlk : (accept w e).nBlk = e.nBlk := rfl
@[simp] theorem accept_accCnt : (accept w e).accCnt = e.accCnt := rfl
@[simp] theorem accept_degenCnt : (accept w e).degenCnt = e.degenCnt := rfl
@[simp] theorem accept_peakIdx : (accept w e).peakIdx = e.peakIdx := rfl
@[simp] theorem accept_delayMs : (accept w e).delayMs = e.delayMs := rfl
@[simp] theorem accept_v0 : (accept w e).v0 = e.v0 := rfl
@[simp] theorem accept_v1 : (accept w e).v1 = e.v1 := rfl
@[simp] theorem accept_v2 : (accept w e).v2 = e.v2 := rfl
@[simp] theorem accept_v3 : (accept w e).v3 = e.v3 := rfl
@[simp] theorem accept_acc : (accept w e).acc = e.acc := rfl
@[simp] theorem accept_res : (accept w e).res = e.res := rfl
@[simp] theorem accept_recording : (accept w e).recording = e.recording := rfl
@[simp] theorem accept_cmdLatch : (accept w e).cmdLatch = w := rfl
@[simp] theorem accept_vreg (j : VReg) : (accept w e).vreg j = e.vreg j := by cases j <;> rfl
end accept

section setVreg
variable (j : VReg) (m : List (Nat × Cx ν)) (e : Engine ν)
@[simp] theorem setVreg_ctrl : (setVreg j m e).ctrl = e.ctrl := by cases j <;> rfl
@[simp] theorem setVreg_status : (setVreg j m e).status = e.status := by cases j <;> rfl
@[simp] theorem setVreg_err : (setVreg j m e).err = e.err := by cases j <;> rfl
@[simp] theorem setVreg_errCmd : (setVreg j m e).errCmd = e.errCmd := by cases j <;> rfl
@[simp] theorem setVreg_period : (setVreg j m e).period = e.period := by cases j <;> rfl
@[simp] theorem setVreg_duty : (setVreg j m e).duty = e.duty := by cases j <;> rfl
@[simp] theorem setVreg_sRate : (setVreg j m e).sRate = e.sRate := by cases j <;> rfl
@[simp] theorem setVreg_recLen : (setVreg j m e).recLen = e.recLen := by cases j <;> rfl
@[simp] theorem setVreg_blk : (setVreg j m e).blk = e.blk := by cases j <;> rfl
@[simp] theorem setVreg_divFloor : (setVreg j m e).divFloor = e.divFloor := by cases j <;> rfl
@[simp] theorem setVreg_nBlk : (setVreg j m e).nBlk = e.nBlk := by cases j <;> rfl
@[simp] theorem setVreg_accCnt : (setVreg j m e).accCnt = e.accCnt := by cases j <;> rfl
@[simp] theorem setVreg_degenCnt : (setVreg j m e).degenCnt = e.degenCnt := by cases j <;> rfl
@[simp] theorem setVreg_peakIdx : (setVreg j m e).peakIdx = e.peakIdx := by cases j <;> rfl
@[simp] theorem setVreg_delayMs : (setVreg j m e).delayMs = e.delayMs := by cases j <;> rfl
@[simp] theorem setVreg_acc : (setVreg j m e).acc = e.acc := by cases j <;> rfl
@[simp] theorem setVreg_res : (setVreg j m e).res = e.res := by cases j <;> rfl
@[simp] theorem setVreg_recording : (setVreg j m e).recording = e.recording := by cases j <;> rfl
@[simp] theorem setVreg_cmdLatch : (setVreg j m e).cmdLatch = e.cmdLatch := by cases j <;> rfl
/-- The register written holds what was written. -/
theorem setVreg_vreg (i : VReg) : (setVreg j m e).vreg i = if i = j then m else e.vreg i := by
  cases i <;> cases j <;> rfl
@[simp] theorem setVreg_vreg_self : (setVreg j m e).vreg j = m := by cases j <;> rfl
end setVreg

section writeVec
variable (j : VReg) (lo n : Nat) (f : Nat → Cx ν) (e : Engine ν)
@[simp] theorem writeVec_ctrl : (writeVec j lo n f e).ctrl = e.ctrl := by cases j <;> rfl
@[simp] theorem writeVec_status : (writeVec j lo n f e).status = e.status := by cases j <;> rfl
@[simp] theorem writeVec_err : (writeVec j lo n f e).err = e.err := by cases j <;> rfl
@[simp] theorem writeVec_errCmd : (writeVec j lo n f e).errCmd = e.errCmd := by cases j <;> rfl
@[simp] theorem writeVec_period : (writeVec j lo n f e).period = e.period := by cases j <;> rfl
@[simp] theorem writeVec_duty : (writeVec j lo n f e).duty = e.duty := by cases j <;> rfl
@[simp] theorem writeVec_sRate : (writeVec j lo n f e).sRate = e.sRate := by cases j <;> rfl
@[simp] theorem writeVec_recLen : (writeVec j lo n f e).recLen = e.recLen := by cases j <;> rfl
@[simp] theorem writeVec_blk : (writeVec j lo n f e).blk = e.blk := by cases j <;> rfl
@[simp] theorem writeVec_divFloor : (writeVec j lo n f e).divFloor = e.divFloor := by cases j <;> rfl
@[simp] theorem writeVec_nBlk : (writeVec j lo n f e).nBlk = e.nBlk := by cases j <;> rfl
@[simp] theorem writeVec_accCnt : (writeVec j lo n f e).accCnt = e.accCnt := by cases j <;> rfl
@[simp] theorem writeVec_degenCnt : (writeVec j lo n f e).degenCnt = e.degenCnt := by cases j <;> rfl
@[simp] theorem writeVec_peakIdx : (writeVec j lo n f e).peakIdx = e.peakIdx := by cases j <;> rfl
@[simp] theorem writeVec_delayMs : (writeVec j lo n f e).delayMs = e.delayMs := by cases j <;> rfl
@[simp] theorem writeVec_acc : (writeVec j lo n f e).acc = e.acc := by cases j <;> rfl
@[simp] theorem writeVec_res : (writeVec j lo n f e).res = e.res := by cases j <;> rfl
@[simp] theorem writeVec_recording : (writeVec j lo n f e).recording = e.recording := by cases j <;> rfl
@[simp] theorem writeVec_cmdLatch : (writeVec j lo n f e).cmdLatch = e.cmdLatch := by cases j <;> rfl
theorem writeVec_vreg (i : VReg) :
    (writeVec j lo n f e).vreg i = if i = j then storeRange lo f n (e.vreg j) else e.vreg i := setVreg_vreg ..
end writeVec

end Sys2Proof.Machine
end

