-- ==== Sys2Proof/Laws/Flags.lean ====
section
/-! SUPPORT. The flags after each update of `STATUS`: one lemma per bit and update. -/

namespace Sys2Proof.Machine

variable {ν : Type}

/-- What `withBit` does to each bit. -/
theorem getLsbD_withBit (n : Nat) (b : Bool) (w : Word) (m : Nat) :
    (withBit n b w).getLsbD m = if m = n ∧ n < 32 then b else w.getLsbD m := by
  unfold withBit
  by_cases hm : m < 32
  · cases b
    · by_cases h : m = n
      · subst h; simp [hm]
      · simp [hm, h]
    · by_cases h : m = n
      · subst h; simp [hm]
      · simp [BitVec.getLsbD_twoPow, h, Ne.symm h]
  · have h1 : ¬(m = n ∧ n < 32) := by omega
    rw [if_neg h1, BitVec.getLsbD_of_ge _ _ (by omega), BitVec.getLsbD_of_ge _ _ (by omega)]

theorem withBit_self {n : Nat} {w : Word} {b : Bool} (h : w.getLsbD n = b) : withBit n b w = w := by
  apply BitVec.eq_of_getLsbD_eq
  intro i hi
  rw [getLsbD_withBit]
  split
  · rename_i h2; rw [h2.1, h]
  · rfl

section
variable (b : Bool) (e : Engine ν)

@[simp] theorem setBusy_busy : (setBusy b e).busy = b := by simp only [Engine.busy, setBusy_status, getLsbD_withBit]; rfl
@[simp] theorem setBusy_done : (setBusy b e).done = e.done := by simp only [Engine.done, setBusy_status, getLsbD_withBit]; rfl
@[simp] theorem setBusy_rej : (setBusy b e).rej = e.rej := by simp only [Engine.rej, setBusy_status, getLsbD_withBit]; rfl
@[simp] theorem setBusy_wDegen : (setBusy b e).wDegen = e.wDegen := by simp only [Engine.wDegen, setBusy_status, getLsbD_withBit]; rfl
@[simp] theorem setBusy_wNonFin : (setBusy b e).wNonFin = e.wNonFin := by simp only [Engine.wNonFin, setBusy_status, getLsbD_withBit]; rfl
@[simp] theorem setDone_busy : (setDone b e).busy = e.busy := by simp only [Engine.busy, setDone_status, getLsbD_withBit]; rfl
@[simp] theorem setDone_done : (setDone b e).done = b := by simp only [Engine.done, setDone_status, getLsbD_withBit]; rfl
@[simp] theorem setDone_rej : (setDone b e).rej = e.rej := by simp only [Engine.rej, setDone_status, getLsbD_withBit]; rfl
@[simp] theorem setDone_wDegen : (setDone b e).wDegen = e.wDegen := by simp only [Engine.wDegen, setDone_status, getLsbD_withBit]; rfl
@[simp] theorem setDone_wNonFin : (setDone b e).wNonFin = e.wNonFin := by simp only [Engine.wNonFin, setDone_status, getLsbD_withBit]; rfl
@[simp] theorem reject_busy : (reject e).busy = e.busy := by simp only [Engine.busy, reject_status, getLsbD_withBit]; rfl
@[simp] theorem reject_done : (reject e).done = e.done := by simp only [Engine.done, reject_status, getLsbD_withBit]; rfl
@[simp] theorem reject_rej : (reject e).rej = true := by simp only [Engine.rej, reject_status, getLsbD_withBit]; rfl
@[simp] theorem reject_wDegen : (reject e).wDegen = e.wDegen := by simp only [Engine.wDegen, reject_status, getLsbD_withBit]; rfl
@[simp] theorem reject_wNonFin : (reject e).wNonFin = e.wNonFin := by simp only [Engine.wNonFin, reject_status, getLsbD_withBit]; rfl
@[simp] theorem warnDegen_busy : (warnDegen b e).busy = e.busy := by simp only [Engine.busy, warnDegen_status, getLsbD_withBit]; rfl
@[simp] theorem warnDegen_done : (warnDegen b e).done = e.done := by simp only [Engine.done, warnDegen_status, getLsbD_withBit]; rfl
@[simp] theorem warnDegen_rej : (warnDegen b e).rej = e.rej := by simp only [Engine.rej, warnDegen_status, getLsbD_withBit]; rfl
@[simp] theorem warnDegen_wDegen : (warnDegen b e).wDegen = (e.wDegen || b) := by
  simp only [Engine.wDegen, warnDegen_status, getLsbD_withBit]; rfl
@[simp] theorem warnDegen_wNonFin : (warnDegen b e).wNonFin = e.wNonFin := by simp only [Engine.wNonFin, warnDegen_status, getLsbD_withBit]; rfl
@[simp] theorem warnNonFin_busy : (warnNonFin b e).busy = e.busy := by simp only [Engine.busy, warnNonFin_status, getLsbD_withBit]; rfl
@[simp] theorem warnNonFin_done : (warnNonFin b e).done = e.done := by simp only [Engine.done, warnNonFin_status, getLsbD_withBit]; rfl
@[simp] theorem warnNonFin_rej : (warnNonFin b e).rej = e.rej := by simp only [Engine.rej, warnNonFin_status, getLsbD_withBit]; rfl
@[simp] theorem warnNonFin_wDegen : (warnNonFin b e).wDegen = e.wDegen := by simp only [Engine.wDegen, warnNonFin_status, getLsbD_withBit]; rfl
@[simp] theorem warnNonFin_wNonFin : (warnNonFin b e).wNonFin = (e.wNonFin || b) := by
  simp only [Engine.wNonFin, warnNonFin_status, getLsbD_withBit]; rfl
@[simp] theorem finish_busy : (finish e).busy = false := by simp [finish]
@[simp] theorem finish_done : (finish e).done = true := by simp [finish]
@[simp] theorem accept_busy (w : Word) : (accept w e).busy = true := by simp [accept]
@[simp] theorem accept_done (w : Word) : (accept w e).done = false := by simp [accept]
@[simp] theorem raise_busy (f : FaultCode) : (raise f e).busy = false := by simp [raise]
@[simp] theorem raise_done (f : FaultCode) : (raise f e).done = e.done := by
  simp only [Engine.done, raise_status, getLsbD_withBit]; rfl
end

/-- What a completion does to `STATUS`, given what the effect did to it. -/
theorem finish_statusAfter {wd wn : Bool} {e t : Engine ν} (h1 : t.rej = e.rej) (h2 : t.wDegen = (e.wDegen || wd))
    (h3 : t.wNonFin = (e.wNonFin || wn)) (h4 : ∀ n, 5 ≤ n → t.status.getLsbD n = e.status.getLsbD n) :
    StatusAfter wd wn e (finish t) where
  busy := finish_busy t
  done := finish_done t
  rej := by simpa [finish] using h1
  wDegen := by simpa [finish] using h2
  wNonFin := by simpa [finish] using h3
  reserved n hn := by
    rw [← h4 n hn, finish_status, getLsbD_withBit, getLsbD_withBit, if_neg (by omega), if_neg (by omega)]

/-- A completion whose effect leaves `STATUS` alone. -/
theorem finish_statusAfter_of_eq {e t : Engine ν} (h : t.status = e.status) : StatusAfter false false e (finish t) :=
  finish_statusAfter (by simp [Engine.rej, h]) (by simp [Engine.wDegen, h]) (by simp [Engine.wNonFin, h])
    (by simp [h])

/-- A completion whose effect raises or keeps `WNONFIN` and leaves the rest of `STATUS` alone. -/
theorem finish_warnNonFin {b : Bool} {e t : Engine ν} (h : t.status = e.status) :
    StatusAfter false b e (finish (warnNonFin b t)) := by
  refine finish_statusAfter ?_ ?_ ?_ fun n hn => ?_
  · rw [warnNonFin_rej]; simp only [Engine.rej, h]
  · rw [warnNonFin_wDegen]; simp [Engine.wDegen, h]
  · rw [warnNonFin_wNonFin]; simp only [Engine.wNonFin, h]
  · rw [warnNonFin_status, getLsbD_withBit, if_neg (by omega), h]

/-- A completion whose effect raises or keeps `WDEGEN` and leaves the rest of `STATUS` alone. -/
theorem finish_warnDegen {b : Bool} {e t : Engine ν} (h : t.status = e.status) :
    StatusAfter b false e (finish (warnDegen b t)) := by
  refine finish_statusAfter ?_ ?_ ?_ fun n hn => ?_
  · rw [warnDegen_rej]; simp only [Engine.rej, h]
  · rw [warnDegen_wDegen]; simp only [Engine.wDegen, h]
  · rw [warnDegen_wNonFin]; simp [Engine.wNonFin, h]
  · rw [warnDegen_status, getLsbD_withBit, if_neg (by omega), h]

/-- The fault entry writes what R247 says and nothing else. -/
theorem raise_faultEntry (f : FaultCode) (e : Engine ν) : FaultEntry f e (raise f e) where
  err := rfl
  errCmd := rfl
  busy := raise_busy e f
  status n hn := by rw [raise_status, getLsbD_withBit, if_neg (by omega)]
  frame :=
    { pieces := by
        intro p hp hw
        cases p with
        | csr i => cases i <;> simp_all [SamePiece, readSlot]
        | _ => simp [SamePiece]
      latch := rfl }

end Sys2Proof.Machine
end

