-- ==== Sys2Proof/Laws/Command.lean ====
section
/-! SUPPORT. The parameter checks in the words of the rules, `perform` once and for all, and the meaning of every command as
`command` on the engine. -/

namespace Sys2Proof.Machine

variable {ν : Type}

/-! ### Validity -/

theorem periodValid_iff (H : Params ν) (e : Engine ν) : e.periodValid H = true ↔ PeriodOk H e := by
  simp [Engine.periodValid, PeriodOk, Engine.P, and_assoc]

theorem f32val_pos_iff (w : Word) : 0 < f32val w ↔ 0 < f32Units w := by
  unfold f32val
  rw [lt_div_iff₀ (by positivity)]
  simp

theorem f32val_nonneg_iff (w : Word) : 0 ≤ f32val w ↔ 0 ≤ f32Units w := by
  unfold f32val
  rw [le_div_iff₀ (by positivity)]
  simp

theorem f32val_lt_one_iff (w : Word) : f32val w < 1 ↔ f32Units w < 2 ^ 149 := by
  unfold f32val
  rw [div_lt_iff₀ (by positivity), one_mul]
  exact_mod_cast Iff.rfl

theorem dutyValid_iff (e : Engine ν) : e.dutyValid = true ↔ DutyOk e := by
  simp [Engine.dutyValid, DutyOk, f32val_pos_iff, f32val_lt_one_iff, and_assoc]

theorem sRateValid_iff (e : Engine ν) : e.sRateValid = true ↔ SRateOk e := by simp [Engine.sRateValid, SRateOk]

theorem recLenValid_iff (H : Params ν) (e : Engine ν) : e.recLenValid H = true ↔ RecLenOk H e := by
  simp [Engine.recLenValid, RecLenOk]

theorem divFloorValid_iff (e : Engine ν) : e.divFloorValid = true ↔ DivFloorOk e := by
  simp [Engine.divFloorValid, DivFloorOk, f32val_nonneg_iff]

/-- At least one block exists iff `M >= 3*P` (R160). -/
theorem one_le_numBlocks_iff {M P : Nat} (hP : 0 < P) : 1 ≤ numBlocks M P ↔ 3 * P ≤ M := by
  unfold numBlocks
  split
  · omega
  · rw [Nat.le_div_iff_mul_le hP]; omega

theorem numBlocks_le (M P : Nat) : numBlocks M P ≤ M := by
  unfold numBlocks
  split
  · omega
  · exact (Nat.div_le_self _ _).trans (Nat.sub_le _ _)

/-- Block `b` lies wholly inside the recording (R160, R161). -/
theorem firstPair_lt {M P b n : Nat} (hb : b < numBlocks M P) (hn : n < P) : firstPair P b + n < M := by
  unfold numBlocks at hb
  split at hb
  · omega
  · have hP : 0 < P := by omega
    have h1 := (Nat.le_div_iff_mul_le hP).mp (Nat.succ_le_of_lt hb)
    rw [Nat.succ_mul] at h1
    unfold firstPair
    omega

theorem PeriodOk.pos {H : Params ν} {e : Engine ν} (h : PeriodOk H e) : 0 < e.P := by have := h.1; omega

/-! ### `perform` -/

@[simp] theorem firstFault_nil : firstFault [] = none := rfl
theorem firstFault_cons_true (f : FaultCode) (l : List (Bool × FaultCode)) : firstFault ((true, f) :: l) = firstFault l := rfl
theorem firstFault_cons_false (f : FaultCode) (l : List (Bool × FaultCode)) : firstFault ((false, f) :: l) = some f := rfl

theorem perform_of_none {cs : List (Bool × FaultCode)} {g : Engine ν → Engine ν} {e : Engine ν} (h : firstFault cs = none) :
    perform cs g e = finish (g e) := by simp [perform, h]

theorem perform_of_some {cs : List (Bool × FaultCode)} {g : Engine ν → Engine ν} {e : Engine ν} {f : FaultCode}
    (h : firstFault cs = some f) : perform cs g e = raise f e := by simp [perform, h]

/-- The effect of a command whose checks pass. -/
def effectOf (H : Params ν) (d : Nat) (i : Instr) (e : Engine ν) : Engine ν :=
  match i with
  | .nop => e
  | .ldblk vd ch => ldblkEffect H d e.blk.toNat vd ch e
  | .fft vd va => fftEffect H d vd va e
  | .ifft vd va => ifftEffect H d vd va e
  | .sweep vd => sweepEffect H vd e
  | .mirror vd => mirrorEffect H d vd e
  | .cdiv vd va vb => cdivEffect H d vd va vb e
  | .aclr => aclrEffect H e
  | .accr va => accrEffect H d va e
  | .avg => avgEffect H d e
  | .realp va => realpEffect H d va e
  | .peak => peakEffect H d e
  | .synth => synthEffect H d e
  | .estimate => estimateEffect H d e

/-- Every command is its checks and its effect. -/
theorem command_eq_perform (H : Params ν) (d : Nat) (i : Instr) (e : Engine ν) :
    command H d i e = perform (checksOf H e i) (effectOf H d i) e := by
  cases i <;> rfl

/-- The meaning of every command in the machine is `command` on the engine; the model's own fields are unchanged. -/
theorem exec_eq_command (i : Instr) (s : State) :
    exec i s = .next { s with toEngine := command Config.params s.draws i s.toEngine } := by
  cases i <;> rfl

theorem exec_of_none {i : Instr} {s : State} (h : faultOf Config.params s.toEngine i = none) :
    exec i s = .next { s with toEngine := finish (effectOf Config.params s.draws i s.toEngine) } := by
  rw [exec_eq_command, command_eq_perform, perform_of_none h]

theorem exec_of_some {i : Instr} {s : State} {f : FaultCode} (h : faultOf Config.params s.toEngine i = some f) :
    exec i s = .next { s with toEngine := raise f s.toEngine } := by
  rw [exec_eq_command, command_eq_perform, perform_of_some h]

theorem firstFault_none {l : List (Bool × FaultCode)} (h : firstFault l = none) : ∀ c ∈ l, c.1 = true := by
  induction l with
  | nil => simp
  | cons c l ih =>
    obtain ⟨b, f⟩ := c
    cases b
    · cases h
    · intro c hc
      rcases List.mem_cons.1 hc with rfl | hc
      · rfl
      · exact ih h c hc

theorem firstFault_of_all {l : List (Bool × FaultCode)} (h : ∀ c ∈ l, c.1 = true) : firstFault l = none := by
  induction l with
  | nil => rfl
  | cons c l ih =>
    obtain ⟨b, f⟩ := c
    obtain rfl : b = true := h (b, f) (by simp)
    exact ih fun c hc => h c (by simp [hc])

end Sys2Proof.Machine
end

