-- ==== Sys2Proof/Laws/Storage.lean ====
section
/-! SUPPORT. The laws of sparse storage: what a read finds after a write, and that every operation keeps the canonical form and the
capacity. -/

namespace Sys2Proof.Machine

variable {α : Type}

/-! ### Reads after writes -/

theorem lookup_store (k i : Nat) (x : α) (m : List (Nat × α)) :
    lookup k (store i x m) = if k = i then some x else lookup k m := by
  induction m with
  | nil => simp [store, lookup]
  | cons c rest ih =>
    obtain ⟨j, y⟩ := c
    simp only [store]
    split
    · simp [lookup]
    · split
      · subst_vars
        by_cases h : k = j <;> simp [lookup, h]
      · by_cases h : k = j
        · subst h
          simp only [lookup, if_true]
          rw [if_neg (by omega)]
        · simp [lookup, h, ih]

theorem lookup_storeRange (k lo : Nat) (f : Nat → α) (n : Nat) (m : List (Nat × α)) :
    lookup k (storeRange lo f n m) = if lo ≤ k ∧ k < lo + n then some (f k) else lookup k m := by
  induction n with
  | zero => simp only [storeRange]; rw [if_neg (by omega)]
  | succ n ih =>
    rw [storeRange, lookup_store, ih]
    by_cases h : k = lo + n
    · subst h; simp
    · rw [if_neg h]
      by_cases h2 : lo ≤ k ∧ k < lo + n
      · rw [if_pos h2, if_pos (by omega)]
      · rw [if_neg h2, if_neg (by omega)]

theorem lookup_storeRange_of_mem {k lo n : Nat} (f : Nat → α) (m : List (Nat × α)) (h1 : lo ≤ k) (h2 : k < lo + n) :
    lookup k (storeRange lo f n m) = some (f k) := by
  rw [lookup_storeRange, if_pos ⟨h1, h2⟩]

theorem lookup_storeRange_of_not_mem {k lo n : Nat} (f : Nat → α) (m : List (Nat × α)) (h : ¬(lo ≤ k ∧ k < lo + n)) :
    lookup k (storeRange lo f n m) = lookup k m := by
  rw [lookup_storeRange, if_neg h]

theorem lookup_forget (k : Nat) (p : Nat → Bool) (m : List (Nat × α)) :
    lookup k (forget p m) = if p k then none else lookup k m := by
  induction m with
  | nil => simp [forget, lookup]
  | cons c rest ih =>
    obtain ⟨j, y⟩ := c
    simp only [forget, List.filter_cons] at ih ⊢
    by_cases hj : p j = true
    · simp only [hj, Bool.not_true, Bool.false_eq_true, if_false, ih, lookup]
      by_cases hk : k = j
      · subst hk; simp [hj]
      · simp [hk]
    · simp only [hj, Bool.not_false, if_true, lookup, ih]
      by_cases hk : k = j
      · subst hk; simp [hj]
      · simp [hk]

/-- An element that a read finds is listed. -/
theorem mem_of_lookup {k : Nat} {x : α} {m : List (Nat × α)} (h : lookup k m = some x) : (k, x) ∈ m := by
  induction m with
  | nil => simp [lookup] at h
  | cons c rest ih =>
    obtain ⟨j, y⟩ := c
    by_cases hk : k = j
    · subst hk; simp [lookup] at h; simp [h]
    · simp only [lookup, hk, if_false] at h
      exact List.mem_cons_of_mem _ (ih h)

/-! ### The canonical form -/

theorem storageWf_cons {i : Nat} {y : α} {m : List (Nat × α)} :
    storageWf ((i, y) :: m) = true ↔ (∀ c ∈ m, i < c.1) ∧ storageWf m = true := by
  induction m generalizing i y with
  | nil => simp [storageWf]
  | cons c rest ih =>
    obtain ⟨j, z⟩ := c
    simp only [storageWf, Bool.and_eq_true, decide_eq_true_eq, List.forall_mem_cons]
    constructor
    · rintro ⟨h, hr⟩
      exact ⟨⟨h, fun c hc => Nat.lt_trans h ((ih.mp hr).1 c hc)⟩, hr⟩
    · rintro ⟨⟨h, _⟩, hr⟩
      exact ⟨h, hr⟩

theorem mem_store {i : Nat} {x : α} {m : List (Nat × α)} {c : Nat × α} (h : c ∈ store i x m) : c = (i, x) ∨ c ∈ m := by
  induction m with
  | nil => simpa [store] using h
  | cons a rest ih =>
    obtain ⟨j, y⟩ := a
    simp only [store] at h
    split at h
    · simpa using h
    · split at h
      · rcases List.mem_cons.mp h with h | h
        · exact .inl h
        · exact .inr (List.mem_cons_of_mem _ h)
      · rcases List.mem_cons.mp h with h | h
        · exact .inr (by simp [h])
        · exact (ih h).imp id (List.mem_cons_of_mem _)

theorem storageWf_store (i : Nat) (x : α) {m : List (Nat × α)} (h : storageWf m = true) :
    storageWf (store i x m) = true := by
  induction m with
  | nil => rfl
  | cons a rest ih =>
    obtain ⟨j, y⟩ := a
    have hc := storageWf_cons.mp h
    simp only [store]
    split
    · rename_i hij
      refine storageWf_cons.mpr ⟨?_, h⟩
      intro c hm
      rcases List.mem_cons.mp hm with rfl | hm
      · exact hij
      · exact Nat.lt_trans hij (hc.1 c hm)
    · split
      · rename_i hij
        subst hij
        exact storageWf_cons.mpr hc
      · refine storageWf_cons.mpr ⟨?_, ih hc.2⟩
        intro c hm
        rcases mem_store hm with rfl | hm
        · show j < i; omega
        · exact hc.1 c hm

theorem storageWf_storeRange (lo : Nat) (f : Nat → α) (n : Nat) {m : List (Nat × α)} (h : storageWf m = true) :
    storageWf (storeRange lo f n m) = true := by
  induction n with
  | zero => exact h
  | succ n ih => exact storageWf_store _ _ ih

theorem storageWf_forget (p : Nat → Bool) {m : List (Nat × α)} (h : storageWf m = true) :
    storageWf (forget p m) = true := by
  induction m with
  | nil => rfl
  | cons a rest ih =>
    obtain ⟨j, y⟩ := a
    have hc := storageWf_cons.mp h
    simp only [forget, List.filter_cons] at ih ⊢
    split
    · refine storageWf_cons.mpr ⟨fun c hm => hc.1 c ?_, ih hc.2⟩
      exact (List.mem_filter.mp hm).1
    · exact ih hc.2

/-- Equal contents are equal data: two buffers in canonical form with the same elements are the same list. -/
theorem storage_ext {m n : List (Nat × α)} (hm : storageWf m = true) (hn : storageWf n = true)
    (h : ∀ k, lookup k m = lookup k n) : m = n := by
  induction m generalizing n with
  | nil =>
    cases n with
    | nil => rfl
    | cons c rest => have := h c.1; simp [lookup] at this
  | cons a rest ih =>
    obtain ⟨i, x⟩ := a
    have hm' := storageWf_cons.mp hm
    cases n with
    | nil => have := h i; simp [lookup] at this
    | cons b rest' =>
      obtain ⟨j, y⟩ := b
      have hn' := storageWf_cons.mp hn
      have key : i = j := by
        rcases Nat.lt_trichotomy i j with hij | hij | hij
        · have h1 := h i
          simp only [lookup, if_true, if_neg (Nat.ne_of_lt hij)] at h1
          have := hn'.1 _ (mem_of_lookup h1.symm)
          omega
        · exact hij
        · have h1 := h j
          simp only [lookup, if_true, if_neg (Nat.ne_of_lt hij)] at h1
          have := hm'.1 _ (mem_of_lookup h1)
          omega
      subst key
      have hxy : x = y := by have := h i; simpa [lookup] using this
      subst hxy
      congr 1
      refine ih hm'.2 hn'.2 fun k => ?_
      by_cases hk : k = i
      · subst hk
        have h1 : lookup k rest = none := by
          cases hl : lookup k rest with
          | none => rfl
          | some z => exact absurd (hm'.1 _ (mem_of_lookup hl)) (Nat.lt_irrefl _)
        have h2 : lookup k rest' = none := by
          cases hl : lookup k rest' with
          | none => rfl
          | some z => exact absurd (hn'.1 _ (mem_of_lookup hl)) (Nat.lt_irrefl _)
        rw [h1, h2]
      · have := h k
        simpa [lookup, hk] using this

/-! ### Capacities -/

theorem indicesBelow_store {n i : Nat} (x : α) {m : List (Nat × α)} (hi : i < n) (h : indicesBelow n m) :
    indicesBelow n (store i x m) := by
  intro c hc
  rcases mem_store hc with rfl | hc
  · exact hi
  · exact h c hc

theorem indicesBelow_storeRange {n lo : Nat} (f : Nat → α) (cnt : Nat) {m : List (Nat × α)} (hi : lo + cnt ≤ n)
    (h : indicesBelow n m) : indicesBelow n (storeRange lo f cnt m) := by
  induction cnt with
  | zero => exact h
  | succ cnt ih => exact indicesBelow_store _ (by omega) (ih (by omega))

theorem indicesBelow_forget {n : Nat} (p : Nat → Bool) {m : List (Nat × α)} (h : indicesBelow n m) :
    indicesBelow n (forget p m) := fun c hc => h c (List.mem_filter.mp hc).1

theorem bufferOk_nil (n : Nat) : bufferOk n ([] : List (Nat × α)) := ⟨rfl, by simp [indicesBelow]⟩

theorem bufferOk_store {n i : Nat} (x : α) {m : List (Nat × α)} (hi : i < n) (h : bufferOk n m) :
    bufferOk n (store i x m) := ⟨storageWf_store _ _ h.1, indicesBelow_store _ hi h.2⟩

theorem bufferOk_storeRange {n lo cnt : Nat} (f : Nat → α) {m : List (Nat × α)} (hi : lo + cnt ≤ n) (h : bufferOk n m) :
    bufferOk n (storeRange lo f cnt m) := ⟨storageWf_storeRange _ _ _ h.1, indicesBelow_storeRange _ _ hi h.2⟩

theorem bufferOk_forget {n : Nat} (p : Nat → Bool) {m : List (Nat × α)} (h : bufferOk n m) :
    bufferOk n (forget p m) := ⟨storageWf_forget _ h.1, indicesBelow_forget _ h.2⟩

/-- Every operation on the recording memory keeps its canonical form: `MemWrite` is the only one that writes it, and soft
reset keeps it as it is. -/
theorem memWrite_wf {ν : Type} (a : Nat) (w : Word) (e : Engine ν) (h : Memory.wf e.recording = true) :
    Memory.wf (memWrite a w e).recording = true :=
  storageWf_store _ _ (storageWf_store _ _ (storageWf_store _ _ (storageWf_store _ _ h)))

theorem reset_memory_wf : Memory.wf State.reset.recording = true := rfl

end Sys2Proof.Machine
end

