-- ==== Sys2Proof/Laws/Effects.lean ====
section
/-! SUPPORT. What each command's effect leaves: the elements it writes, its frame (the write column of 10_state.md R49), and the
completion's `STATUS`. Later proofs cite these and unfold no effect. -/

namespace Sys2Proof.Machine

variable {ν : Type}

/-! ### Frames -/

theorem SamePiece.refl (e : Engine ν) (p : Piece) : SamePiece e e p := by cases p <;> rfl

theorem SamePiece.symm {e t : Engine ν} {p : Piece} (h : SamePiece e t p) : SamePiece t e p := by
  cases p <;> exact Eq.symm h

theorem SamePiece.trans {e t u : Engine ν} {p : Piece} (h : SamePiece e t p) (g : SamePiece t u p) : SamePiece e u p := by
  cases p <;> exact Eq.trans g h

theorem Frame.refl (W : Piece → Prop) (e : Engine ν) : Frame W e e := ⟨fun p _ _ => SamePiece.refl e p, rfl⟩

theorem Frame.mono {W W' : Piece → Prop} {e t : Engine ν} (h : Frame W e t) (hw : ∀ p, W p → W' p) : Frame W' e t :=
  ⟨fun p hp hn => h.pieces p hp (fun x => hn (hw p x)), h.latch⟩

theorem Frame.trans {W : Piece → Prop} {e t u : Engine ν} (h : Frame W e t) (g : Frame W t u) : Frame W e u :=
  ⟨fun p hp hn => (h.pieces p hp hn).trans (g.pieces p hp hn), g.latch.trans h.latch⟩

/-- An update of `STATUS` alone changes no piece of a frame. -/
theorem frame_status (W : Piece → Prop) (w : Word) (e : Engine ν) : Frame W e { e with status := w } where
  pieces p hp _ := by
    cases p with
    | csr i => cases i <;> first | rfl | exact absurd rfl hp
    | vec j k => cases j <;> rfl
    | _ => rfl
  latch := rfl

theorem Frame.finish {W : Piece → Prop} {e t : Engine ν} (h : Frame W e t) : Frame W e (finish t) :=
  h.trans ((frame_status W _ t).trans (frame_status W _ (setBusy false t)))

theorem Frame.warnDegen {W : Piece → Prop} {e t : Engine ν} (b : Bool) (h : Frame W e t) : Frame W e (warnDegen b t) :=
  h.trans (frame_status W _ t)

theorem Frame.warnNonFin {W : Piece → Prop} {e t : Engine ν} (b : Bool) (h : Frame W e t) : Frame W e (warnNonFin b t) :=
  h.trans (frame_status W _ t)

/-! ### The writes of the pseudocode -/

theorem vreg_setVreg (j i : VReg) (m : List (Nat × Cx ν)) (e : Engine ν) :
    (setVreg j m e).vreg i = if i = j then m else e.vreg i := by
  cases j <;> cases i <;> rfl

theorem lookup_writeVec (j i : VReg) (lo n k : Nat) (f : Nat → Cx ν) (e : Engine ν) :
    lookup k ((writeVec j lo n f e).vreg i) =
      if i = j ∧ lo ≤ k ∧ k < lo + n then some (f k) else lookup k (e.vreg i) := by
  rw [writeVec, vreg_setVreg]
  by_cases h : i = j
  · subst h; simp [lookup_storeRange]
  · simp [h]

theorem lookup_writeVec_mem {j : VReg} {lo n k : Nat} (f : Nat → Cx ν) (e : Engine ν) (h1 : lo ≤ k) (h2 : k < lo + n) :
    lookup k ((writeVec j lo n f e).vreg j) = some (f k) := by
  rw [lookup_writeVec, if_pos ⟨rfl, h1, h2⟩]

theorem lookup_writeAcc (n k : Nat) (f : Nat → ν) (e : Engine ν) :
    lookup k (writeAcc n f e).acc = if k < n then some (f k) else lookup k e.acc := by
  simp [writeAcc, lookup_storeRange]

theorem lookup_writeRes (n k : Nat) (f : Nat → ν) (e : Engine ν) :
    lookup k (writeRes n f e).res = if k < n then some (f k) else lookup k e.res := by
  simp [writeRes, lookup_storeRange]

theorem frame_writeVec (j : VReg) (lo n : Nat) (f : Nat → Cx ν) (e : Engine ν) :
    Frame (fun p => ∃ k, lo ≤ k ∧ k < lo + n ∧ p = .vec j k) e (writeVec j lo n f e) where
  pieces p _ hw := by
    cases p with
    | csr i => cases i <;> simp [SamePiece, readSlot]
    | vec i k =>
      show lookup k _ = lookup k _
      rw [lookup_writeVec]
      split
      · rename_i h; exact absurd ⟨k, h.2.1, h.2.2, by rw [h.1]⟩ hw
      · rfl
    | _ => simp [SamePiece]
  latch := by simp

theorem frame_writeAcc (n : Nat) (f : Nat → ν) (e : Engine ν) :
    Frame (fun p => ∃ k < n, p = .acc k) e (writeAcc n f e) where
  pieces p _ hw := by
    cases p with
    | csr i => cases i <;> simp [SamePiece, readSlot]
    | acc k =>
      show lookup k _ = lookup k _
      rw [lookup_writeAcc]
      split
      · rename_i h; exact absurd ⟨k, h, rfl⟩ hw
      · rfl
    | _ => simp [SamePiece]
  latch := by simp

theorem frame_writeRes (n : Nat) (f : Nat → ν) (e : Engine ν) :
    Frame (fun p => ∃ k < n, p = .res k) e (writeRes n f e) where
  pieces p _ hw := by
    cases p with
    | csr i => cases i <;> simp [SamePiece, readSlot]
    | res k =>
      show lookup k _ = lookup k _
      rw [lookup_writeRes]
      split
      · rename_i h; exact absurd ⟨k, h, rfl⟩ hw
      · rfl
    | _ => simp [SamePiece]
  latch := by simp

/-! ### The registers an effect may write -/

theorem frame_accCnt (w : Word) (e : Engine ν) : Frame (fun p => p = .csr .accCnt) e { e with accCnt := w } where
  pieces p _ hw := by
    cases p with
    | csr i => cases i <;> first | rfl | exact absurd rfl hw
    | vec j k => cases j <;> rfl
    | _ => rfl
  latch := rfl

theorem frame_degenCnt (w : Word) (e : Engine ν) : Frame (fun p => p = .csr .degenCnt) e { e with degenCnt := w } where
  pieces p _ hw := by
    cases p with
    | csr i => cases i <;> first | rfl | exact absurd rfl hw
    | vec j k => cases j <;> rfl
    | _ => rfl
  latch := rfl

theorem frame_nBlk (w : Word) (e : Engine ν) : Frame (fun p => p = .csr .nBlk) e { e with nBlk := w } where
  pieces p _ hw := by
    cases p with
    | csr i => cases i <;> first | rfl | exact absurd rfl hw
    | vec j k => cases j <;> rfl
    | _ => rfl
  latch := rfl

theorem frame_peak (w : Word) (x : ν) (e : Engine ν) :
    Frame (fun p => p = .csr .peakIdx ∨ p = .delayMs) e { e with peakIdx := w, delayMs := x } where
  pieces p _ hw := by
    cases p with
    | csr i => cases i <;> first | rfl | exact absurd (Or.inl rfl) hw
    | vec j k => cases j <;> rfl
    | delayMs => exact absurd (Or.inr rfl) hw
    | _ => rfl
  latch := rfl

/-! ### The fields an effect leaves alone -/

section
variable (H : Params ν) (d : Nat) (e : Engine ν)

@[simp] theorem ldblkEffect_fields (b : Nat) (vd : VReg) (ch : Channel) :
    (ldblkEffect H d b vd ch e).ctrl = e.ctrl ∧ (ldblkEffect H d b vd ch e).err = e.err ∧
    (ldblkEffect H d b vd ch e).errCmd = e.errCmd ∧ (ldblkEffect H d b vd ch e).period = e.period ∧
    (ldblkEffect H d b vd ch e).duty = e.duty ∧ (ldblkEffect H d b vd ch e).sRate = e.sRate ∧
    (ldblkEffect H d b vd ch e).recLen = e.recLen ∧ (ldblkEffect H d b vd ch e).blk = e.blk ∧
    (ldblkEffect H d b vd ch e).divFloor = e.divFloor ∧ (ldblkEffect H d b vd ch e).nBlk = e.nBlk ∧
    (ldblkEffect H d b vd ch e).accCnt = e.accCnt ∧ (ldblkEffect H d b vd ch e).degenCnt = e.degenCnt ∧
    (ldblkEffect H d b vd ch e).peakIdx = e.peakIdx ∧ (ldblkEffect H d b vd ch e).delayMs = e.delayMs ∧
    (ldblkEffect H d b vd ch e).recording = e.recording ∧ (ldblkEffect H d b vd ch e).cmdLatch = e.cmdLatch ∧
    (ldblkEffect H d b vd ch e).P = e.P ∧ (ldblkEffect H d b vd ch e).status = e.status ∧
    (ldblkEffect H d b vd ch e).acc = e.acc ∧ (ldblkEffect H d b vd ch e).res = e.res := by
  simp [ldblkEffect, Engine.P]

@[simp] theorem fftEffect_fields (vd va : VReg) :
    (fftEffect H d vd va e).ctrl = e.ctrl ∧ (fftEffect H d vd va e).err = e.err ∧
    (fftEffect H d vd va e).errCmd = e.errCmd ∧ (fftEffect H d vd va e).period = e.period ∧
    (fftEffect H d vd va e).duty = e.duty ∧ (fftEffect H d vd va e).sRate = e.sRate ∧
    (fftEffect H d vd va e).recLen = e.recLen ∧ (fftEffect H d vd va e).blk = e.blk ∧
    (fftEffect H d vd va e).divFloor = e.divFloor ∧ (fftEffect H d vd va e).nBlk = e.nBlk ∧
    (fftEffect H d vd va e).accCnt = e.accCnt ∧ (fftEffect H d vd va e).degenCnt = e.degenCnt ∧
    (fftEffect H d vd va e).peakIdx = e.peakIdx ∧ (fftEffect H d vd va e).delayMs = e.delayMs ∧
    (fftEffect H d vd va e).recording = e.recording ∧ (fftEffect H d vd va e).cmdLatch = e.cmdLatch ∧
    (fftEffect H d vd va e).P = e.P ∧ (fftEffect H d vd va e).status = e.status ∧ (fftEffect H d vd va e).acc = e.acc ∧
    (fftEffect H d vd va e).res = e.res := by
  simp [fftEffect, Engine.P]

@[simp] theorem ifftEffect_fields (vd va : VReg) :
    (ifftEffect H d vd va e).ctrl = e.ctrl ∧ (ifftEffect H d vd va e).err = e.err ∧
    (ifftEffect H d vd va e).errCmd = e.errCmd ∧ (ifftEffect H d vd va e).period = e.period ∧
    (ifftEffect H d vd va e).duty = e.duty ∧ (ifftEffect H d vd va e).sRate = e.sRate ∧
    (ifftEffect H d vd va e).recLen = e.recLen ∧ (ifftEffect H d vd va e).blk = e.blk ∧
    (ifftEffect H d vd va e).divFloor = e.divFloor ∧ (ifftEffect H d vd va e).nBlk = e.nBlk ∧
    (ifftEffect H d vd va e).accCnt = e.accCnt ∧ (ifftEffect H d vd va e).degenCnt = e.degenCnt ∧
    (ifftEffect H d vd va e).peakIdx = e.peakIdx ∧ (ifftEffect H d vd va e).delayMs = e.delayMs ∧
    (ifftEffect H d vd va e).recording = e.recording ∧ (ifftEffect H d vd va e).cmdLatch = e.cmdLatch ∧
    (ifftEffect H d vd va e).P = e.P ∧ (ifftEffect H d vd va e).status = e.status ∧ (ifftEffect H d vd va e).acc = e.acc ∧
    (ifftEffect H d vd va e).res = e.res := by
  simp [ifftEffect, Engine.P]

@[simp] theorem sweepEffect_fields (vd : VReg) :
    (sweepEffect H vd e).ctrl = e.ctrl ∧ (sweepEffect H vd e).err = e.err ∧ (sweepEffect H vd e).errCmd = e.errCmd ∧
    (sweepEffect H vd e).period = e.period ∧ (sweepEffect H vd e).duty = e.duty ∧ (sweepEffect H vd e).sRate = e.sRate ∧
    (sweepEffect H vd e).recLen = e.recLen ∧ (sweepEffect H vd e).blk = e.blk ∧
    (sweepEffect H vd e).divFloor = e.divFloor ∧ (sweepEffect H vd e).nBlk = e.nBlk ∧
    (sweepEffect H vd e).accCnt = e.accCnt ∧ (sweepEffect H vd e).degenCnt = e.degenCnt ∧
    (sweepEffect H vd e).peakIdx = e.peakIdx ∧ (sweepEffect H vd e).delayMs = e.delayMs ∧
    (sweepEffect H vd e).recording = e.recording ∧ (sweepEffect H vd e).cmdLatch = e.cmdLatch ∧
    (sweepEffect H vd e).P = e.P ∧ (sweepEffect H vd e).status = e.status ∧ (sweepEffect H vd e).acc = e.acc ∧
    (sweepEffect H vd e).res = e.res := by
  simp [sweepEffect, Engine.P]

@[simp] theorem mirrorEffect_fields (vd : VReg) :
    (mirrorEffect H d vd e).ctrl = e.ctrl ∧ (mirrorEffect H d vd e).err = e.err ∧
    (mirrorEffect H d vd e).errCmd = e.errCmd ∧ (mirrorEffect H d vd e).period = e.period ∧
    (mirrorEffect H d vd e).duty = e.duty ∧ (mirrorEffect H d vd e).sRate = e.sRate ∧
    (mirrorEffect H d vd e).recLen = e.recLen ∧ (mirrorEffect H d vd e).blk = e.blk ∧
    (mirrorEffect H d vd e).divFloor = e.divFloor ∧ (mirrorEffect H d vd e).nBlk = e.nBlk ∧
    (mirrorEffect H d vd e).accCnt = e.accCnt ∧ (mirrorEffect H d vd e).degenCnt = e.degenCnt ∧
    (mirrorEffect H d vd e).peakIdx = e.peakIdx ∧ (mirrorEffect H d vd e).delayMs = e.delayMs ∧
    (mirrorEffect H d vd e).recording = e.recording ∧ (mirrorEffect H d vd e).cmdLatch = e.cmdLatch ∧
    (mirrorEffect H d vd e).P = e.P ∧ (mirrorEffect H d vd e).status = e.status ∧ (mirrorEffect H d vd e).acc = e.acc ∧
    (mirrorEffect H d vd e).res = e.res := by
  simp [mirrorEffect, Engine.P]

@[simp] theorem cdivEffect_fields (vd va vb : VReg) :
    (cdivEffect H d vd va vb e).ctrl = e.ctrl ∧ (cdivEffect H d vd va vb e).err = e.err ∧
    (cdivEffect H d vd va vb e).errCmd = e.errCmd ∧ (cdivEffect H d vd va vb e).period = e.period ∧
    (cdivEffect H d vd va vb e).duty = e.duty ∧ (cdivEffect H d vd va vb e).sRate = e.sRate ∧
    (cdivEffect H d vd va vb e).recLen = e.recLen ∧ (cdivEffect H d vd va vb e).blk = e.blk ∧
    (cdivEffect H d vd va vb e).divFloor = e.divFloor ∧ (cdivEffect H d vd va vb e).nBlk = e.nBlk ∧
    (cdivEffect H d vd va vb e).accCnt = e.accCnt ∧ (cdivEffect H d vd va vb e).peakIdx = e.peakIdx ∧
    (cdivEffect H d vd va vb e).delayMs = e.delayMs ∧ (cdivEffect H d vd va vb e).recording = e.recording ∧
    (cdivEffect H d vd va vb e).cmdLatch = e.cmdLatch ∧ (cdivEffect H d vd va vb e).P = e.P ∧
    (cdivEffect H d vd va vb e).acc = e.acc ∧ (cdivEffect H d vd va vb e).res = e.res := by
  simp [cdivEffect, Engine.P]

@[simp] theorem aclrEffect_fields :
    (aclrEffect H e).ctrl = e.ctrl ∧ (aclrEffect H e).err = e.err ∧ (aclrEffect H e).errCmd = e.errCmd ∧
    (aclrEffect H e).period = e.period ∧ (aclrEffect H e).duty = e.duty ∧ (aclrEffect H e).sRate = e.sRate ∧
    (aclrEffect H e).recLen = e.recLen ∧ (aclrEffect H e).blk = e.blk ∧ (aclrEffect H e).divFloor = e.divFloor ∧
    (aclrEffect H e).nBlk = e.nBlk ∧ (aclrEffect H e).peakIdx = e.peakIdx ∧ (aclrEffect H e).delayMs = e.delayMs ∧
    (aclrEffect H e).recording = e.recording ∧ (aclrEffect H e).cmdLatch = e.cmdLatch ∧ (aclrEffect H e).P = e.P ∧
    (aclrEffect H e).status = e.status ∧ (aclrEffect H e).v0 = e.v0 ∧ (aclrEffect H e).v1 = e.v1 ∧
    (aclrEffect H e).v2 = e.v2 ∧ (aclrEffect H e).v3 = e.v3 ∧ (aclrEffect H e).res = e.res := by
  simp [aclrEffect, Engine.P]

@[simp] theorem accrEffect_fields (va : VReg) :
    (accrEffect H d va e).ctrl = e.ctrl ∧ (accrEffect H d va e).err = e.err ∧ (accrEffect H d va e).errCmd = e.errCmd ∧
    (accrEffect H d va e).period = e.period ∧ (accrEffect H d va e).duty = e.duty ∧ (accrEffect H d va e).sRate = e.sRate ∧
    (accrEffect H d va e).recLen = e.recLen ∧ (accrEffect H d va e).blk = e.blk ∧
    (accrEffect H d va e).divFloor = e.divFloor ∧ (accrEffect H d va e).nBlk = e.nBlk ∧
    (accrEffect H d va e).degenCnt = e.degenCnt ∧ (accrEffect H d va e).peakIdx = e.peakIdx ∧
    (accrEffect H d va e).delayMs = e.delayMs ∧ (accrEffect H d va e).recording = e.recording ∧
    (accrEffect H d va e).cmdLatch = e.cmdLatch ∧ (accrEffect H d va e).P = e.P ∧ (accrEffect H d va e).status = e.status ∧
    (accrEffect H d va e).v0 = e.v0 ∧ (accrEffect H d va e).v1 = e.v1 ∧ (accrEffect H d va e).v2 = e.v2 ∧
    (accrEffect H d va e).v3 = e.v3 ∧ (accrEffect H d va e).res = e.res := by
  simp [accrEffect, Engine.P]

@[simp] theorem avgEffect_fields :
    (avgEffect H d e).ctrl = e.ctrl ∧ (avgEffect H d e).err = e.err ∧ (avgEffect H d e).errCmd = e.errCmd ∧
    (avgEffect H d e).period = e.period ∧ (avgEffect H d e).duty = e.duty ∧ (avgEffect H d e).sRate = e.sRate ∧
    (avgEffect H d e).recLen = e.recLen ∧ (avgEffect H d e).blk = e.blk ∧ (avgEffect H d e).divFloor = e.divFloor ∧
    (avgEffect H d e).nBlk = e.nBlk ∧ (avgEffect H d e).accCnt = e.accCnt ∧ (avgEffect H d e).degenCnt = e.degenCnt ∧
    (avgEffect H d e).peakIdx = e.peakIdx ∧ (avgEffect H d e).delayMs = e.delayMs ∧
    (avgEffect H d e).recording = e.recording ∧ (avgEffect H d e).cmdLatch = e.cmdLatch ∧ (avgEffect H d e).P = e.P ∧
    (avgEffect H d e).v0 = e.v0 ∧ (avgEffect H d e).v1 = e.v1 ∧ (avgEffect H d e).v2 = e.v2 ∧ (avgEffect H d e).v3 = e.v3 ∧
    (avgEffect H d e).acc = e.acc := by
  simp [avgEffect, Engine.P]

@[simp] theorem realpEffect_fields (va : VReg) :
    (realpEffect H d va e).ctrl = e.ctrl ∧ (realpEffect H d va e).err = e.err ∧ (realpEffect H d va e).errCmd = e.errCmd ∧
    (realpEffect H d va e).period = e.period ∧ (realpEffect H d va e).duty = e.duty ∧
    (realpEffect H d va e).sRate = e.sRate ∧ (realpEffect H d va e).recLen = e.recLen ∧
    (realpEffect H d va e).blk = e.blk ∧ (realpEffect H d va e).divFloor = e.divFloor ∧
    (realpEffect H d va e).nBlk = e.nBlk ∧ (realpEffect H d va e).accCnt = e.accCnt ∧
    (realpEffect H d va e).degenCnt = e.degenCnt ∧ (realpEffect H d va e).peakIdx = e.peakIdx ∧
    (realpEffect H d va e).delayMs = e.delayMs ∧ (realpEffect H d va e).recording = e.recording ∧
    (realpEffect H d va e).cmdLatch = e.cmdLatch ∧ (realpEffect H d va e).P = e.P ∧ (realpEffect H d va e).v0 = e.v0 ∧
    (realpEffect H d va e).v1 = e.v1 ∧ (realpEffect H d va e).v2 = e.v2 ∧ (realpEffect H d va e).v3 = e.v3 ∧
    (realpEffect H d va e).acc = e.acc := by
  simp [realpEffect, Engine.P]

@[simp] theorem peakEffect_fields :
    (peakEffect H d e).ctrl = e.ctrl ∧ (peakEffect H d e).err = e.err ∧ (peakEffect H d e).errCmd = e.errCmd ∧
    (peakEffect H d e).period = e.period ∧ (peakEffect H d e).duty = e.duty ∧ (peakEffect H d e).sRate = e.sRate ∧
    (peakEffect H d e).recLen = e.recLen ∧ (peakEffect H d e).blk = e.blk ∧ (peakEffect H d e).divFloor = e.divFloor ∧
    (peakEffect H d e).nBlk = e.nBlk ∧ (peakEffect H d e).accCnt = e.accCnt ∧ (peakEffect H d e).degenCnt = e.degenCnt ∧
    (peakEffect H d e).recording = e.recording ∧ (peakEffect H d e).cmdLatch = e.cmdLatch ∧ (peakEffect H d e).P = e.P ∧
    (peakEffect H d e).status = e.status ∧ (peakEffect H d e).v0 = e.v0 ∧ (peakEffect H d e).v1 = e.v1 ∧
    (peakEffect H d e).v2 = e.v2 ∧ (peakEffect H d e).v3 = e.v3 ∧ (peakEffect H d e).acc = e.acc ∧
    (peakEffect H d e).res = e.res := by
  simp [peakEffect, Engine.P]

end

/-! ### The effects -/

section
variable (H : Params ν) (d : Nat) (e : Engine ν)

theorem ldblkEffect_frame (b : Nat) (vd : VReg) (ch : Channel) :
    Frame (fun p => ∃ k < e.P, p = .vec vd k) e (ldblkEffect H d b vd ch e) :=
  (frame_writeVec vd 0 e.P _ e).mono (by rintro p ⟨k, _, h, rfl⟩; exact ⟨k, by omega, rfl⟩)

theorem fftEffect_frame (vd va : VReg) : Frame (fun p => ∃ k < e.P, p = .vec vd k) e (fftEffect H d vd va e) :=
  (frame_writeVec vd 0 e.P _ e).mono (by rintro p ⟨k, _, h, rfl⟩; exact ⟨k, by omega, rfl⟩)

theorem ifftEffect_frame (vd va : VReg) : Frame (fun p => ∃ k < e.P, p = .vec vd k) e (ifftEffect H d vd va e) :=
  (frame_writeVec vd 0 e.P _ e).mono (by rintro p ⟨k, _, h, rfl⟩; exact ⟨k, by omega, rfl⟩)

theorem sweepEffect_frame (vd : VReg) : Frame (fun p => ∃ k ≤ e.P / 2, p = .vec vd k) e (sweepEffect H vd e) :=
  (frame_writeVec vd 0 (e.NF + 1) _ e).mono (by rintro p ⟨k, _, h, rfl⟩; exact ⟨k, by simp [Engine.NF] at h; simp [Engine.P]; omega, rfl⟩)

theorem mirrorEffect_frame (vd : VReg) :
    Frame (fun p => ∃ k, e.P / 2 < k ∧ k < e.P ∧ p = .vec vd k) e (mirrorEffect H d vd e) :=
  (frame_writeVec vd (e.NF + 1) (e.P - (e.NF + 1)) _ e).mono
    (by rintro p ⟨k, h1, h2, rfl⟩; exact ⟨k, by simp [Engine.NF, Engine.P] at *; omega, by omega, rfl⟩)

theorem realpEffect_frame (va : VReg) : Frame (fun p => ∃ n < e.P, p = .res n) e (realpEffect H d va e) :=
  (frame_writeRes e.P _ e).warnNonFin _

theorem cdivEffect_frame (vd va vb : VReg) :
    Frame (fun p => p = .csr .degenCnt ∨ ∃ k < e.P, p = .vec vd k) e (cdivEffect H d vd va vb e) :=
  ((((frame_writeVec vd 0 e.P _ e).mono
    (by rintro p ⟨k, _, h, rfl⟩; exact .inr ⟨k, by omega, rfl⟩)).trans
    ((frame_degenCnt _ _).mono (fun _ h => .inl h)))).warnDegen _

theorem aclrEffect_frame :
    Frame (fun p => p = .csr .accCnt ∨ p = .csr .degenCnt ∨ ∃ n < e.P, p = .acc n) e (aclrEffect H e) :=
  (((frame_writeAcc e.P _ e).mono (fun _ h => .inr (.inr h))).trans
    ((frame_accCnt 0#32 _).mono (fun _ h => .inl h))).trans ((frame_degenCnt 0#32 _).mono (fun _ h => .inr (.inl h)))

theorem accrEffect_frame (va : VReg) :
    Frame (fun p => p = .csr .accCnt ∨ ∃ n < e.P, p = .acc n) e (accrEffect H d va e) :=
  ((frame_writeAcc e.P _ e).mono (fun _ h => .inr h)).trans ((frame_accCnt _ _).mono (fun _ h => .inl h))

theorem avgEffect_frame : Frame (fun p => ∃ n < e.P, p = .res n) e (avgEffect H d e) :=
  (frame_writeRes e.P _ e).warnNonFin _

theorem peakEffect_frame : Frame (fun p => p = .csr .peakIdx ∨ p = .delayMs) e (peakEffect H d e) := frame_peak _ _ e

/-! ### The values written -/

theorem ldblkEffect_value (b : Nat) (vd : VReg) (ch : Channel) {n : Nat} (h : n < e.P) :
    lookup n ((ldblkEffect H d b vd ch e).vreg vd) = some (ofReal H.num (blockSample H d e b ch n)) :=
  lookup_writeVec_mem _ e (Nat.zero_le n) (by omega)

theorem fftEffect_value (vd va : VReg) {k : Nat} (h : k < e.P) :
    lookup k ((fftEffect H d vd va e).vreg vd) = some (H.num.dft e.P ((List.range e.P).map (readV H d .a e va)) k) :=
  lookup_writeVec_mem _ e (Nat.zero_le k) (by omega)

theorem ifftEffect_value (vd va : VReg) {n : Nat} (h : n < e.P) :
    lookup n ((ifftEffect H d vd va e).vreg vd) = some (H.num.idft e.P ((List.range e.P).map (readV H d .a e va)) n) :=
  lookup_writeVec_mem _ e (Nat.zero_le n) (by omega)

theorem sweepEffect_value (vd : VReg) {k : Nat} (h : k ≤ e.P / 2) :
    lookup k ((sweepEffect H vd e).vreg vd) = some (sweepBin H.num e.P (H.num.ofF32 e.duty) k) :=
  lookup_writeVec_mem _ e (Nat.zero_le k) (by simp only [Engine.NF, Engine.P] at *; omega)

theorem mirrorEffect_value (vd : VReg) {k : Nat} (h1 : e.P / 2 < k) (h2 : k < e.P) :
    lookup k ((mirrorEffect H d vd e).vreg vd) = some (conj H.num (readV H d .a e vd (e.P - k))) :=
  lookup_writeVec_mem _ e (by simp only [Engine.NF, Engine.P] at *; omega) (by simp only [Engine.NF, Engine.P] at *; omega)

theorem realpEffect_value (va : VReg) {n : Nat} (h : n < e.P) :
    lookup n (realpEffect H d va e).res = some (readV H d .a e va n).re := by
  simp only [realpEffect, warnNonFin_res, lookup_writeRes, h, if_true]

theorem cdivEffect_value (vd va vb : VReg) {k : Nat} (h : k < e.P) :
    lookup k ((cdivEffect H d vd va vb e).vreg vd) =
      some (binQuotient H.num (H.num.ofF32 e.divFloor) (readV H d .a e va k) (readV H d .b e vb k)) := by
  have := lookup_writeVec_mem (j := vd)
    (fun k => binQuotient H.num (H.num.ofF32 e.divFloor) (readV H d .a e va k) (readV H d .b e vb k)) e (Nat.zero_le k)
    (n := e.P) (by omega)
  cases vd <;> exact this

theorem accrEffect_value (va : VReg) {n : Nat} (h : n < e.P) :
    lookup n (accrEffect H d va e).acc = some (H.num.add (readAcc H d e n) (readV H d .a e va n).re) := by
  simp only [accrEffect, lookup_writeAcc, h, if_true]

theorem aclrEffect_value {n : Nat} (h : n < e.P) : lookup n (aclrEffect H e).acc = some H.num.zero := by
  simp only [aclrEffect, lookup_writeAcc, h, if_true]

theorem avgEffect_value {n : Nat} (h : n < e.P) : lookup n (avgEffect H d e).res = some (meanOf H d e n) := by
  simp only [avgEffect, warnNonFin_res, lookup_writeRes, h, if_true]

end

/-! ### Reads of what was written -/

theorem readV_of_lookup {H : Params ν} {d : Nat} {p : Port} {e : Engine ν} {j : VReg} {k : Nat} {z : Cx ν}
    (h : lookup k (e.vreg j) = some z) : readV H d p e j k = z := by simp [readV, h]

theorem readAcc_of_lookup {H : Params ν} {d : Nat} {e : Engine ν} {n : Nat} {x : ν} (h : lookup n e.acc = some x) :
    readAcc H d e n = x := by simp [readAcc, h]

theorem readRes_of_lookup {H : Params ν} {d : Nat} {e : Engine ν} {n : Nat} {x : ν} (h : lookup n e.res = some x) :
    readRes H d e n = x := by simp [readRes, h]

theorem someNonFinite_iff (N : Numerics ν) (cnt : Nat) (f : Nat → ν) :
    someNonFinite N cnt f = true ↔ ∃ n < cnt, N.isFinite (f n) = false := by
  simp [someNonFinite]

end Sys2Proof.Machine
end

