-- ==== Sys2Proof/Laws/Macro.lean ====
section
/-! SUPPORT. The closed forms of the macros: what `SYNTH` leaves in `V0`, what one pass of the loop of `ESTIMATE` leaves, and what
the loop leaves after any list of passes (46_macro.md R211, R212). -/

namespace Sys2Proof.Machine

variable {ν : Type}

/-! ### `SYNTH` -/

section
variable (H : Params ν) (d : Nat) (e : Engine ν)

/-- The spectrum after `SWEEP V0; MIRROR V0`. -/
theorem mirror_sweep_value (vd : VReg) (d : Nat) {k : Nat} (hP : e.P % 2 = 0) (h : k < e.P) :
    lookup k ((mirrorEffect H d vd (sweepEffect H vd e)).vreg vd) =
      some (chirpBin H.num e.P (H.num.ofF32 e.duty) k) := by
  have hp : (sweepEffect H vd e).P = e.P := by simp
  unfold chirpBin
  split
  · rename_i hk
    rw [mirrorEffect, lookup_writeVec, if_neg (by simp only [Engine.NF, Engine.P] at *; omega), sweepEffect_value _ _ _ hk]
  · rename_i hk
    rw [mirrorEffect_value _ _ _ _ (by rw [hp]; omega) (by rw [hp]; omega), hp,
      readV_of_lookup (sweepEffect_value _ _ _ (by omega))]

/-- What the inverse transform of it leaves. -/
theorem synth_value {n : Nat} (hP : e.P % 2 = 0) (h : n < e.P) :
    lookup n ((ifftEffect H d .v0 .v0 (mirrorEffect H d .v0 (sweepEffect H .v0 e))).vreg .v0) =
      some (chirpSample H.num e.P (H.num.ofF32 e.duty) n) := by
  have hp : (mirrorEffect H d .v0 (sweepEffect H .v0 e)).P = e.P := by simp
  rw [ifftEffect_value _ _ _ _ _ (by rw [hp]; exact h), hp, chirpSample]
  congr 2
  refine List.map_congr_left fun k hk => ?_
  exact readV_of_lookup (mirror_sweep_value H e .v0 d hP (List.mem_range.mp hk))

end

/-! ### One pass of the loop -/

/-- A block's samples depend on `PERIOD` and `REC` alone. -/
theorem blockSample_congr {H : Params ν} {d : Nat} {e x : Engine ν} (hp : x.period = e.period)
    (hr : x.recording = e.recording) (b : Nat) (c : Channel) : blockSample H d x b c = blockSample H d e b c := by
  funext n
  simp only [blockSample, memRead, readByte, Engine.P, hp, hr]

theorem blockBin_congr {H : Params ν} {d : Nat} {e x : Engine ν} (hp : x.period = e.period)
    (hr : x.recording = e.recording) (b : Nat) (c : Channel) : blockBin H d x b c = blockBin H d e b c := by
  funext k
  simp only [blockBin, blockSample_congr hp hr, Engine.P, hp]

section
variable (H : Params ν) (d : Nat) (e : Engine ν) (b : Nat)

/-- The state after the two loads and the two transforms of a pass. -/
def loaded : Engine ν :=
  fftEffect H d .v1 .v1 (fftEffect H d .v0 .v0 (ldblkEffect H d b .v1 .ch1 (ldblkEffect H d b .v0 .ch0 e)))

@[simp] theorem loaded_fields :
    (loaded H d e b).P = e.P ∧ (loaded H d e b).divFloor = e.divFloor ∧ (loaded H d e b).acc = e.acc ∧
    (loaded H d e b).status = e.status ∧ (loaded H d e b).degenCnt = e.degenCnt := by simp [loaded]

theorem loaded_v0 {k : Nat} (h : k < e.P) : lookup k ((loaded H d e b).vreg .v0) = some (blockBin H d e b .ch0 k) := by
  have h1 : lookup k ((fftEffect H d .v0 .v0 (ldblkEffect H d b .v1 .ch1 (ldblkEffect H d b .v0 .ch0 e))).vreg .v0) =
      some (blockBin H d e b .ch0 k) := by
    rw [fftEffect_value _ _ _ _ _ (by simpa using h), blockBin]
    simp only [ldblkEffect_fields]
    congr 2
    refine List.map_congr_left fun n hn => readV_of_lookup ?_
    rw [ldblkEffect, lookup_writeVec, if_neg (by simp)]
    exact ldblkEffect_value _ _ _ _ _ _ (List.mem_range.mp hn)
  rw [loaded, fftEffect, lookup_writeVec, if_neg (by simp), h1]

theorem loaded_v1 {k : Nat} (h : k < e.P) : lookup k ((loaded H d e b).vreg .v1) = some (blockBin H d e b .ch1 k) := by
  rw [loaded, fftEffect_value _ _ _ _ _ (by simpa using h), blockBin]
  simp only [ldblkEffect_fields, fftEffect_fields]
  congr 2
  refine List.map_congr_left fun n hn => readV_of_lookup ?_
  rw [fftEffect, lookup_writeVec, if_neg (by simp), ldblkEffect_value _ _ _ _ _ _ (by simpa using List.mem_range.mp hn),
    blockSample_congr (e := e) (by simp) (by simp)]

theorem estimateBlock_eq :
    estimateBlock H d e b = accrEffect H d .v2 (ifftEffect H d .v2 .v2 (cdivEffect H d .v2 .v1 .v0 (loaded H d e b))) := rfl

/-- The fields a pass leaves alone: all but `V0`, `V1`, `V2`, `ACC`, `ACC_CNT`, `DEGEN_CNT` and `STATUS`. -/
@[simp] theorem estimateBlock_fields :
    (estimateBlock H d e b).period = e.period ∧ (estimateBlock H d e b).recording = e.recording ∧
    (estimateBlock H d e b).recLen = e.recLen ∧ (estimateBlock H d e b).divFloor = e.divFloor ∧
    (estimateBlock H d e b).sRate = e.sRate ∧ (estimateBlock H d e b).nBlk = e.nBlk ∧
    (estimateBlock H d e b).err = e.err ∧ (estimateBlock H d e b).res = e.res ∧ (estimateBlock H d e b).P = e.P := by
  simp [estimateBlock]

theorem estimateBlock_accCnt : (estimateBlock H d e b).accCnt = e.accCnt + 1#32 := by
  simp [estimateBlock, accrEffect, ldblkEffect, fftEffect, ifftEffect, cdivEffect]

theorem estimateBlock_vreg (j : VReg) (k : Nat) :
    lookup k ((estimateBlock H d e b).vreg j) =
      lookup k ((ifftEffect H d .v2 .v2 (cdivEffect H d .v2 .v1 .v0 (loaded H d e b))).vreg j) := by
  cases j <;> rw [estimateBlock_eq] <;> simp only [Engine.vreg, accrEffect_fields]

theorem estimateBlock_loaded (j : VReg) (k : Nat) (hj : j ≠ .v2) :
    lookup k ((estimateBlock H d e b).vreg j) = lookup k ((loaded H d e b).vreg j) := by
  rw [estimateBlock_vreg, ifftEffect, lookup_writeVec, if_neg (by simp [hj]), cdivEffect]
  rw [warnDegen_vreg]
  exact (congrArg (lookup k) (by cases j <;> rfl)).trans
    ((lookup_writeVec .v2 j 0 _ k _ (loaded H d e b)).trans (if_neg (by simp [hj])))

theorem estimateBlock_v0 {k : Nat} (h : k < e.P) :
    lookup k ((estimateBlock H d e b).vreg .v0) = some (blockBin H d e b .ch0 k) := by
  rw [estimateBlock_loaded _ _ _ _ _ _ (by decide), loaded_v0 _ _ _ _ h]

theorem estimateBlock_v1 {k : Nat} (h : k < e.P) :
    lookup k ((estimateBlock H d e b).vreg .v1) = some (blockBin H d e b .ch1 k) := by
  rw [estimateBlock_loaded _ _ _ _ _ _ (by decide), loaded_v1 _ _ _ _ h]

theorem divided_value {k : Nat} (h : k < e.P) :
    lookup k ((cdivEffect H d .v2 .v1 .v0 (loaded H d e b)).vreg .v2) = some (transferBin H d e b k) := by
  rw [cdivEffect_value _ _ _ _ _ _ (by simpa using h), readV_of_lookup (loaded_v1 H d e b h),
    readV_of_lookup (loaded_v0 H d e b h)]
  simp only [loaded_fields, transferBin]

theorem response_value {n : Nat} (h : n < e.P) :
    lookup n ((ifftEffect H d .v2 .v2 (cdivEffect H d .v2 .v1 .v0 (loaded H d e b))).vreg .v2) =
      some (responseSample H d e b n) := by
  rw [ifftEffect_value _ _ _ _ _ (by simpa using h), responseSample]
  simp only [cdivEffect_fields, loaded_fields]
  congr 2
  exact List.map_congr_left fun k hk => readV_of_lookup (divided_value H d e b (List.mem_range.mp hk))

theorem estimateBlock_v2 {n : Nat} (h : n < e.P) :
    lookup n ((estimateBlock H d e b).vreg .v2) = some (responseSample H d e b n) := by
  rw [estimateBlock_vreg, response_value _ _ _ _ h]

theorem estimateBlock_acc {n : Nat} (h : n < e.P) :
    lookup n (estimateBlock H d e b).acc = some (H.num.add (readAcc H d e n) (responseSample H d e b n).re) := by
  rw [estimateBlock_eq, accrEffect_value _ _ _ _ (by simpa using h), readV_of_lookup (response_value H d e b h)]
  simp only [readAcc, ifftEffect_fields, cdivEffect_fields, loaded_fields]

/-- The bins forced in the pass are those of the block. -/
theorem loaded_forced :
    forcedCount H.num (H.num.ofF32 (loaded H d e b).divFloor) (readV H d .a (loaded H d e b) .v1)
      (readV H d .b (loaded H d e b) .v0) (loaded H d e b).P = blockForced H d e b := by
  unfold blockForced forcedCount
  simp only [loaded_fields]
  refine List.countP_congr fun k hk => ?_
  have hk' : k < e.P := List.mem_range.mp hk
  rw [readV_of_lookup (loaded_v1 H d e b hk'), readV_of_lookup (loaded_v0 H d e b hk')]

theorem estimateBlock_degenCnt :
    (estimateBlock H d e b).degenCnt = saturatingCount e.degenCnt (blockForced H d e b) := by
  rw [← loaded_forced, estimateBlock_eq]
  simp only [accrEffect, writeAcc_degenCnt, ifftEffect_fields]
  simp only [cdivEffect, warnDegen_degenCnt, loaded_fields]

theorem estimateBlock_status :
    (estimateBlock H d e b).status = withBit 3 (e.wDegen || decide (0 < blockForced H d e b)) e.status := by
  rw [← loaded_forced, estimateBlock_eq]
  simp only [accrEffect_fields, ifftEffect_fields]
  simp only [cdivEffect, warnDegen_status, Engine.wDegen, writeVec_status, loaded_fields]

theorem estimateBlock_frame :
    Frame (fun p => p = .csr .accCnt ∨ p = .csr .degenCnt ∨
        ∃ n < e.P, p = .vec .v0 n ∨ p = .vec .v1 n ∨ p = .vec .v2 n ∨ p = .acc n)
      e (estimateBlock H d e b) := by
  refine ((((((ldblkEffect_frame H d e b .v0 .ch0).mono ?_).trans ((ldblkEffect_frame H d _ b .v1 .ch1).mono ?_)).trans
    ((fftEffect_frame H d _ .v0 .v0).mono ?_)).trans ((fftEffect_frame H d _ .v1 .v1).mono ?_)).trans
    ((cdivEffect_frame H d _ .v2 .v1 .v0).mono ?_)).trans
    (((ifftEffect_frame H d _ .v2 .v2).mono ?_).trans ((accrEffect_frame H d _ .v2).mono ?_))
  all_goals try simp only [ldblkEffect_fields, fftEffect_fields, cdivEffect_fields, ifftEffect_fields]
  all_goals intro p h
  all_goals aesop

end

/-! ### The loop -/

theorem estimateBlocks_cons (H : Params ν) (d : Nat) (b : Nat) (bs : List Nat) (e : Engine ν) :
    estimateBlocks H d (b :: bs) e = estimateBlocks H d bs (estimateBlock H d e b) := by
  simp only [estimateBlocks, List.foldl_cons]

theorem estimateBlocks_concat (H : Params ν) (d : Nat) (b : Nat) (bs : List Nat) (e : Engine ν) :
    estimateBlocks H d (bs ++ [b]) e = estimateBlock H d (estimateBlocks H d bs e) b := by
  simp only [estimateBlocks, List.foldl_append, List.foldl_cons, List.foldl_nil]

/-- What the passes `bs` leave, from the state `e` before the first. -/
structure LoopState (H : Params ν) (d : Nat) (e : Engine ν) (bs : List Nat) (x : Engine ν) : Prop where
  frame : Frame (fun p => p = .csr .accCnt ∨ p = .csr .degenCnt ∨
    ∃ n < e.P, p = .vec .v0 n ∨ p = .vec .v1 n ∨ p = .vec .v2 n ∨ p = .acc n) e x
  period : x.period = e.period
  recording : x.recording = e.recording
  recLen : x.recLen = e.recLen
  divFloor : x.divFloor = e.divFloor
  sRate : x.sRate = e.sRate
  nBlk : x.nBlk = e.nBlk
  acc : ∀ n < e.P, readAcc H d x n = bs.foldl (fun a b => H.num.add a (responseSample H d e b n).re) (readAcc H d e n)
  accListed : ∀ n < e.P, (∃ v, lookup n e.acc = some v) → ∃ v, lookup n x.acc = some v
  accCnt : x.accCnt = e.accCnt + BitVec.ofNat 32 bs.length
  degenCnt : e.degenCnt.toNat ≤ x.degenCnt.toNat ∧
    x.degenCnt.toNat = min (e.degenCnt.toNat + (bs.map (blockForced H d e)).sum) 0xFFFFFFFF
  status : x.status = withBit 3 (e.wDegen || decide (0 < (bs.map (blockForced H d e)).sum)) e.status

theorem responseSample_congr {H : Params ν} {d : Nat} {e x : Engine ν} (hp : x.period = e.period)
    (hr : x.recording = e.recording) (hf : x.divFloor = e.divFloor) (b : Nat) :
    responseSample H d x b = responseSample H d e b := by
  have ht : transferBin H d x b = transferBin H d e b := by
    funext k
    simp only [transferBin, blockBin_congr hp hr, hf]
  funext n
  simp only [responseSample, ht, Engine.P, hp]

theorem blockForced_congr {H : Params ν} {d : Nat} {e x : Engine ν} (hp : x.period = e.period)
    (hr : x.recording = e.recording) (hf : x.divFloor = e.divFloor) (b : Nat) :
    blockForced H d x b = blockForced H d e b := by
  simp only [blockForced, blockBin_congr hp hr, hf, Engine.P, hp]

theorem loopState_nil (H : Params ν) (d : Nat) (e : Engine ν) : LoopState H d e [] e where
  frame := Frame.refl _ _
  period := rfl
  recording := rfl
  recLen := rfl
  divFloor := rfl
  sRate := rfl
  nBlk := rfl
  acc _ _ := rfl
  accListed _ _ h := h
  accCnt := by simp
  degenCnt := ⟨le_refl _, by have := e.degenCnt.isLt; simp; omega⟩
  status := by
    simp only [List.map_nil, List.sum_nil, Nat.lt_irrefl, decide_false, Bool.or_false]
    exact (withBit_self rfl).symm

theorem LoopState.step {H : Params ν} {d : Nat} {e x : Engine ν} {bs : List Nat} (h : LoopState H d e bs x) (b : Nat) :
    LoopState H d e (bs ++ [b]) (estimateBlock H d x b) := by
  have hP : x.P = e.P := by simp only [Engine.P, h.period]
  have hr := responseSample_congr (H := H) (d := d) h.period h.recording h.divFloor b
  have hf := blockForced_congr (H := H) (d := d) h.period h.recording h.divFloor b
  refine ⟨h.frame.trans (by simpa only [hP] using estimateBlock_frame H d x b), by simp [h.period], by simp [h.recording],
    by simp [h.recLen], by simp [h.divFloor], by simp [h.sRate], by simp [h.nBlk], ?_, ?_, ?_, ?_, ?_⟩
  · intro n hn
    rw [readAcc_of_lookup (estimateBlock_acc H d x b (by omega)), h.acc n hn, hr, List.foldl_append]
    rfl
  · intro n hn _
    exact ⟨_, estimateBlock_acc H d x b (by omega)⟩
  · rw [estimateBlock_accCnt, h.accCnt, List.length_append, BitVec.add_assoc]
    congr 1
    exact (BitVec.ofNat_add _ _).symm
  · have h1 := h.degenCnt.2
    have h2 : (estimateBlock H d x b).degenCnt.toNat = min (x.degenCnt.toNat + blockForced H d e b) 0xFFFFFFFF := by
      rw [estimateBlock_degenCnt, hf, saturatingCount, BitVec.toNat_ofNat, Nat.mod_eq_of_lt (by omega)]
    have h3 := e.degenCnt.isLt
    simp only [List.map_append, List.map_cons, List.map_nil, List.sum_append, List.sum_cons, List.sum_nil]
    omega
  · rw [estimateBlock_status, hf]
    have hw : x.wDegen = (e.wDegen || decide (0 < (bs.map (blockForced H d e)).sum)) := by
      simp only [Engine.wDegen, h.status, getLsbD_withBit]
      rfl
    rw [hw, h.status]
    apply BitVec.eq_of_getLsbD_eq
    intro i _
    simp only [getLsbD_withBit, List.map_append, List.map_cons, List.map_nil, List.sum_append, List.sum_cons, List.sum_nil]
    split
    · cases e.wDegen <;> simp
    · rfl

theorem loopState (H : Params ν) (d : Nat) (e : Engine ν) (bs : List Nat) :
    LoopState H d e bs (estimateBlocks H d bs e) := by
  induction bs using List.reverseRecOn with
  | nil => exact loopState_nil H d e
  | append_singleton bs b ih =>
    rw [estimateBlocks_concat]
    exact ih.step b

/-- The vector registers after the loop hold the last pass's values. -/
theorem estimateBlocks_last (H : Params ν) (d : Nat) (e : Engine ν) (bs : List Nat) (b : Nat) {n : Nat} (h : n < e.P) :
    let x := estimateBlocks H d (bs ++ [b]) e
    lookup n (x.vreg .v0) = some (blockBin H d e b .ch0 n) ∧ lookup n (x.vreg .v1) = some (blockBin H d e b .ch1 n) ∧
      lookup n (x.vreg .v2) = some (responseSample H d e b n) := by
  intro x
  have hl := loopState H d e bs
  have hP : (estimateBlocks H d bs e).P = e.P := by simp only [Engine.P, hl.period]
  have hx : x = estimateBlock H d (estimateBlocks H d bs e) b := estimateBlocks_concat H d b bs e
  rw [hx, estimateBlock_v0 _ _ _ _ (by omega), estimateBlock_v1 _ _ _ _ (by omega), estimateBlock_v2 _ _ _ _ (by omega),
    blockBin_congr hl.period hl.recording, blockBin_congr hl.period hl.recording,
    responseSample_congr hl.period hl.recording hl.divFloor]
  exact ⟨rfl, rfl, rfl⟩

/-! ### The peak -/

theorem peakScan_succ (N : Numerics ν) (x : Nat → ν) (k : Nat) :
    peakScan N x (k + 2) = peakPass N x (peakScan N x (k + 1)) (k + 1) := by
  simp only [peakScan, Nat.add_sub_cancel, Nat.reduceSubDiff]
  rw [List.range'_1_concat, List.foldl_append, Nat.add_comm 1 k]
  rfl

/-- The candidate is an index scanned, and its magnitude is the best so far. -/
theorem peakScan_spec (N : Numerics ν) (x : Nat → ν) (k : Nat) :
    (peakScan N x (k + 1)).1 ≤ k ∧ (peakScan N x (k + 1)).2 = N.abs (x (peakScan N x (k + 1)).1) := by
  induction k with
  | zero => exact ⟨Nat.le_refl 0, rfl⟩
  | succ k ih =>
    rw [peakScan_succ, peakPass]
    split
    · exact ⟨Nat.le_refl _, rfl⟩
    · exact ⟨by omega, ih.2⟩

/-- `PEAK_IDX` is in `0 .. P-1` whatever `RES` holds (R203). -/
theorem peakIndex_lt (N : Numerics ν) (x : Nat → ν) {P : Nat} (h : 1 ≤ P) : peakIndex N x P < P := by
  obtain ⟨k, rfl⟩ : ∃ k, P = k + 1 := ⟨P - 1, by omega⟩
  have := (peakScan_spec N x k).1
  unfold peakIndex
  omega

/-- The peak depends on `RES[0..P-1]` alone. -/
theorem peakIndex_congr (N : Numerics ν) {x y : Nat → ν} {P : Nat} (hP : 1 ≤ P) (h : ∀ n < P, x n = y n) :
    peakIndex N x P = peakIndex N y P := by
  obtain ⟨k, rfl⟩ : ∃ k, P = k + 1 := ⟨P - 1, by omega⟩
  suffices hs : ∀ j ≤ k, peakScan N x (j + 1) = peakScan N y (j + 1) by unfold peakIndex; rw [hs k (Nat.le_refl k)]
  intro j
  induction j with
  | zero => intro _; simp only [peakScan, Nat.reduceAdd, Nat.reduceSub, List.range'_zero, List.foldl, h 0 (by omega)]
  | succ j ih =>
    intro hj
    rw [peakScan_succ, peakScan_succ, ih (by omega), peakPass, peakPass, h (j + 1) (by omega)]

/-! ### What the macros leave alone, and how many blocks there can be -/

theorem synthEffect_frame (H : Params ν) (d : Nat) (e : Engine ν) (h0 : 0 < e.P) :
    Frame (fun p => ∃ n < e.P, p = .vec .v0 n ∨ p = .res n) e (synthEffect H d e) := by
  unfold synthEffect
  refine ((((sweepEffect_frame H e .v0).mono ?_).trans ((mirrorEffect_frame H d _ .v0).mono ?_)).trans
    ((ifftEffect_frame H d _ .v0 .v0).mono ?_)).trans ((realpEffect_frame H d _ .v0).mono ?_)
  all_goals try simp only [sweepEffect_fields, mirrorEffect_fields, ifftEffect_fields]
  · rintro p ⟨k, hk, rfl⟩
    exact ⟨k, by omega, .inl rfl⟩
  all_goals intro p h
  all_goals aesop

/-- The state `ESTIMATE` starts its loop from. -/
def cleared (H : Params ν) (e : Engine ν) : Engine ν := aclrEffect H { e with nBlk := BitVec.ofNat 32 e.blocks }

theorem cleared_fields (H : Params ν) (e : Engine ν) :
    (cleared H e).P = e.P ∧ (cleared H e).period = e.period ∧ (cleared H e).recording = e.recording ∧
    (cleared H e).divFloor = e.divFloor ∧ (cleared H e).sRate = e.sRate ∧ (cleared H e).recLen = e.recLen ∧
    (cleared H e).degenCnt = 0#32 ∧ (cleared H e).accCnt = 0#32 ∧ (cleared H e).nBlk = BitVec.ofNat 32 e.blocks ∧
    (cleared H e).status = e.status ∧ (cleared H e).err = e.err := by
  simp [cleared]
  refine ⟨rfl, ?_, ?_⟩ <;> simp [aclrEffect]

theorem cleared_acc (H : Params ν) (d : Nat) (e : Engine ν) {n : Nat} (h : n < e.P) :
    readAcc H d (cleared H e) n = H.num.zero := readAcc_of_lookup (aclrEffect_value _ _ h)

theorem estimateOrder_eq (H : Params ν) (d : Nat) (bs : List Nat) (e : Engine ν) :
    estimateOrder H d bs e = peakEffect H d (avgEffect H d (estimateBlocks H d bs (cleared H e))) := rfl

theorem estimateOrder_frame (H : Params ν) (d : Nat) (bs : List Nat) (e : Engine ν) :
    Frame (fun p => p = .csr .nBlk ∨ p = .csr .accCnt ∨ p = .csr .degenCnt ∨ p = .csr .peakIdx ∨ p = .delayMs ∨
      ∃ n < e.P, p = .vec .v0 n ∨ p = .vec .v1 n ∨ p = .vec .v2 n ∨ p = .acc n ∨ p = .res n) e (estimateOrder H d bs e) := by
  have L := loopState H d (cleared H e) bs
  have hP := (cleared_fields H e).1
  have hP' : ({ e with nBlk := BitVec.ofNat 32 e.blocks } : Engine ν).P = e.P := rfl
  have hL : (estimateBlocks H d bs (cleared H e)).P = e.P := by
    rw [← hP]
    simp only [Engine.P, L.period]
  rw [estimateOrder_eq]
  refine ((((frame_nBlk _ _).mono ?_).trans ((aclrEffect_frame _ _).mono ?_)).trans (L.frame.mono ?_)).trans
    (((avgEffect_frame H d _).mono ?_).trans ((peakEffect_frame _ _ _).mono ?_))
  · intro p h; aesop
  · rw [hP']; intro p h; aesop
  · rw [hP]; intro p h; aesop
  · rw [hL]; intro p h; aesop
  · intro p h; aesop

/-- The closed form of what `ESTIMATE` leaves when it takes the blocks in the order `bs` (R212), but for the vector
registers and `STATUS`. -/
structure OrderState (H : Params ν) (d : Nat) (bs : List Nat) (e : Engine ν) (h : Nat → ν) (t : Engine ν) : Prop where
  acc : ∀ n < e.P, lookup n t.acc = some (bs.foldl (fun a b => H.num.add a (responseSample H d e b n).re) H.num.zero)
  res : ∀ n < e.P, lookup n t.res = some (h n)
  nBlk : t.nBlk = BitVec.ofNat 32 e.blocks
  accCnt : t.accCnt.toNat = bs.length
  degenCnt : t.degenCnt.toNat = min (bs.map (blockForced H d e)).sum 0xFFFFFFFF
  peakIdx : t.peakIdx.toNat = peakIndex H.num h e.P
  delayMs : t.delayMs = delayOf H.num (peakIndex H.num h e.P) e.sRate.toNat
  err : t.err = e.err
  status : t.status = withBit 4 (e.wNonFin || someNonFinite H.num e.P h)
    (withBit 3 (e.wDegen || decide (0 < (bs.map (blockForced H d e)).sum)) e.status)

theorem orderState (H : Params ν) (d : Nat) (bs : List Nat) (e : Engine ν) (hP : 0 < e.P) (hb : bs.length < 2 ^ 32) :
    OrderState H d bs e (fun n => H.num.div
        (bs.foldl (fun a b => H.num.add a (responseSample H d e b n).re) H.num.zero) (H.num.ofNat bs.length))
      (estimateOrder H d bs e) := by
  obtain ⟨f1, f2, f3, f4, f5, f6, f7, f8, f9, f10, f11⟩ := cleared_fields H e
  have L := loopState H d (cleared H e) bs
  have hresp : ∀ b, responseSample H d (cleared H e) b = responseSample H d e b := responseSample_congr f2 f3 f4
  have hforced : blockForced H d (cleared H e) = blockForced H d e := funext (blockForced_congr f2 f3 f4)
  have hw : (cleared H e).wDegen = e.wDegen := by simp only [Engine.wDegen, f10]
  have hacc0 : ∀ n < e.P, ∃ v, lookup n (cleared H e).acc = some v := fun n hn => ⟨_, aclrEffect_value _ _ hn⟩
  rw [estimateOrder_eq]
  generalize estimateBlocks H d bs (cleared H e) = x at L
  have hxP : x.P = e.P := by simp only [Engine.P, L.period, f2]
  have hsum : ∀ n < e.P, readAcc H d x n = bs.foldl (fun a b => H.num.add a (responseSample H d e b n).re) H.num.zero := by
    intro n hn
    rw [L.acc n (by rw [f1]; exact hn), cleared_acc _ _ _ hn]
    simp only [hresp]
  have hcnt : x.accCnt.toNat = bs.length := by
    rw [L.accCnt, f8, BitVec.toNat_add, BitVec.toNat_ofNat]
    simp
    omega
  have hmean : ∀ n < e.P, meanOf H d x n = H.num.div
      (bs.foldl (fun a b => H.num.add a (responseSample H d e b n).re) H.num.zero) (H.num.ofNat bs.length) := by
    intro n hn
    rw [meanOf, hsum n hn, hcnt]
  generalize hh : (fun n => H.num.div
    (bs.foldl (fun a b => H.num.add a (responseSample H d e b n).re) H.num.zero) (H.num.ofNat bs.length)) = h
  have hmean' : ∀ n < e.P, meanOf H d x n = h n := fun n hn => by rw [hmean n hn, ← hh]
  have hres : ∀ n < e.P, lookup n (avgEffect H d x).res = some (h n) := fun n hn => by
    rw [avgEffect_value _ _ _ (by rw [hxP]; exact hn), hmean' n hn]
  have hidx : peakIndex H.num (readRes H d (avgEffect H d x)) (avgEffect H d x).P = peakIndex H.num h e.P := by
    simp only [avgEffect_fields, hxP]
    exact peakIndex_congr _ hP fun n hn => readRes_of_lookup (hres n hn)
  have hlt := peakIndex_lt H.num h (P := e.P) hP
  have h32 : e.P < 2 ^ 32 := e.period.isLt
  have hnf : someNonFinite H.num e.P (meanOf H d x) = someNonFinite H.num e.P h := by
    rw [Bool.eq_iff_iff, someNonFinite_iff, someNonFinite_iff]
    exact ⟨fun ⟨n, hn, k⟩ => ⟨n, hn, by rw [← hmean' n hn]; exact k⟩, fun ⟨n, hn, k⟩ => ⟨n, hn, by rw [hmean' n hn]; exact k⟩⟩
  refine ⟨?_, hres, L.nBlk.trans f9, hcnt, ?_, ?_, ?_, ?_, ?_⟩
  · intro n hn
    obtain ⟨v, hv⟩ := L.accListed n (by rw [f1]; exact hn) (hacc0 n hn)
    show lookup n x.acc = _
    rw [hv, ← hsum n hn, readAcc_of_lookup hv]
  · have := L.degenCnt.2
    rw [hforced, f7] at this
    simpa using this
  · show (BitVec.ofNat 32 (peakIndex H.num _ _)).toNat = _
    rw [hidx, BitVec.toNat_ofNat, Nat.mod_eq_of_lt (by omega)]
  · show delayOf H.num (peakIndex H.num _ _) x.sRate.toNat = _
    rw [hidx, L.sRate, f5]
  · show x.err = _
    have h1 := L.frame.pieces (.csr .err) (by simp) (by simp)
    simp only [SamePiece, readSlot] at h1
    exact h1.trans f11
  · have hs := L.status
    rw [hforced, hw, f10] at hs
    simp only [peakEffect_fields, avgEffect, warnNonFin_status, writeRes_status, Engine.wNonFin, hxP]
    rw [hnf, hs, getLsbD_withBit]
    rfl

/-- The block count never reaches the full count of `ACC_CNT` (R160). -/
theorem blocks_lt (e : Engine ν) : e.blocks < 2 ^ 32 - 1 := by
  have := e.recLen.isLt
  unfold Engine.blocks numBlocks
  split
  · omega
  · rcases Nat.eq_zero_or_pos e.P with h | h
    · rw [h]; simp
    · have : (e.recLen.toNat - 2 * e.P) / e.P ≤ e.recLen.toNat - 2 * e.P := Nat.div_le_self _ _
      omega

end Sys2Proof.Machine
end

