-- ==== Sys2Proof/Laws/Exact.lean ====
section
/-! SUPPORT. The transforms of `NUM_EXACT` as sums over a root of unity: orthogonality, inversion, shift and the Hermitian
criterion (40_transform.md R120, R121), and the fields of `exactNum` as equations. -/

namespace Sys2Proof.Machine

open Finset

/-! ### Pairs and complex numbers -/

@[simp] theorem toC_ofC (z : ℂ) : toC (ofC z) = z := rfl
@[simp] theorem ofC_toC (z : Cx ℝ) : ofC (toC z) = z := rfl
theorem toC_injective : Function.Injective toC := fun x y h => by
  rw [← ofC_toC x, ← ofC_toC y, h]

theorem element_map_range (x : Nat → Cx ℝ) {N n : Nat} (h : n < N) :
    element ((List.range N).map x) n = toC (x n) := by
  simp [element, List.getD, h]

/-! ### The fields of `NUM_EXACT` -/

section
variable (u : Word → ℝ) (x y : ℝ)
@[simp] theorem exactNum_zero : (exactNum u).zero = 0 := rfl
@[simp] theorem exactNum_one : (exactNum u).one = 1 := rfl
@[simp] theorem exactNum_twoPi : (exactNum u).twoPi = 2 * Real.pi := rfl
@[simp] theorem exactNum_ofNat (n : Nat) : (exactNum u).ofNat n = n := rfl
@[simp] theorem exactNum_ofInt (i : Int) : (exactNum u).ofInt i = i := rfl
@[simp] theorem exactNum_add : (exactNum u).add x y = x + y := rfl
@[simp] theorem exactNum_sub : (exactNum u).sub x y = x - y := rfl
@[simp] theorem exactNum_mul : (exactNum u).mul x y = x * y := rfl
@[simp] theorem exactNum_div : (exactNum u).div x y = x / y := rfl
@[simp] theorem exactNum_neg : (exactNum u).neg x = -x := rfl
@[simp] theorem exactNum_abs : (exactNum u).abs x = |x| := rfl
@[simp] theorem exactNum_lt : (exactNum u).lt x y = decide (x < y) := rfl
@[simp] theorem exactNum_isFinite : (exactNum u).isFinite x = true := rfl
@[simp] theorem exactNum_ceilInt : (exactNum u).ceilInt x = ⌈x⌉ := rfl
@[simp] theorem exactNum_cos : (exactNum u).cos x = Real.cos x := rfl
@[simp] theorem exactNum_sin : (exactNum u).sin x = Real.sin x := rfl
@[simp] theorem exactNum_dft : (exactNum u).dft = exactDft := rfl
@[simp] theorem exactNum_idft : (exactNum u).idft = exactIdft := rfl
theorem exactNum_ofF32 {w : Word} (h : f32Finite w = true) : (exactNum u).ofF32 w = ((f32val w : ℚ) : ℝ) := by
  simp [exactNum, h]
end

/-! ### The kernel -/

theorem kernel_add (c d : ℂ) (N n k : Nat) : kernel c N n k * kernel d N n k = kernel (c + d) N n k := by
  rw [kernel, kernel, kernel, ← Complex.exp_add]
  congr 1
  ring

theorem kernel_comm (c : ℂ) (N n k : Nat) : kernel c N n k = kernel c N k n := by
  unfold kernel
  congr 1
  ring

theorem kernel_add_left (c : ℂ) (N n m k : Nat) : kernel c N (n + m) k = kernel c N n k * kernel c N m k := by
  rw [kernel, kernel, kernel, ← Complex.exp_add]
  congr 1
  push_cast
  ring

/-- The kernel has period `N` in its first index. -/
theorem kernel_period (c : ℤ) {N : Nat} (hN : 1 ≤ N) (k : Nat) : kernel c N N k = 1 := by
  have hN' : (N : ℂ) ≠ 0 := by exact_mod_cast (by omega : N ≠ 0)
  rw [kernel, Complex.exp_eq_one_iff]
  refine ⟨c * k, ?_⟩
  push_cast
  field_simp

theorem kernel_mod (c : ℤ) {N : Nat} (hN : 1 ≤ N) (n k : Nat) : kernel c N (n % N) k = kernel c N n k := by
  have h : ∀ q r : Nat, kernel c N (r + N * q) k = kernel c N r k := by
    intro q r
    induction q with
    | zero => simp
    | succ q ih => rw [Nat.mul_succ, ← Nat.add_assoc, kernel_add_left, ih, kernel_period c hN, mul_one]
  conv_rhs => rw [← Nat.mod_add_div n N]
  rw [h]

/-- Orthogonality of the kernels. -/
theorem sum_kernel {N n m : Nat} (hn : n < N) (hm : m < N) :
    ∑ k ∈ range N, kernel 1 N n k * kernel (-1) N m k = if n = m then (N : ℂ) else 0 := by
  have hN : (N : ℂ) ≠ 0 := by exact_mod_cast (by omega : N ≠ 0)
  have hk : ∀ k, kernel 1 N n k * kernel (-1) N m k =
      (Complex.exp (2 * Real.pi * Complex.I * ((n : ℂ) - m) / N)) ^ k := by
    intro k
    rw [kernel, kernel, ← Complex.exp_add, ← Complex.exp_nat_mul]
    congr 1
    field_simp
    ring
  simp only [hk]
  split
  · rename_i h
    subst h
    simp
  · rename_i h
    have h1 : Complex.exp (2 * Real.pi * Complex.I * ((n : ℂ) - m) / N) ≠ 1 := by
      intro he
      obtain ⟨q, hq⟩ := Complex.exp_eq_one_iff.mp he
      have hpi : (2 * (Real.pi : ℂ) * Complex.I) ≠ 0 := Complex.two_pi_I_ne_zero
      have hq2 : ((n : ℂ) - m) = q * N := by
        have : 2 * (Real.pi : ℂ) * Complex.I * ((n : ℂ) - m) = 2 * (Real.pi : ℂ) * Complex.I * (q * N) := by
          rw [div_eq_iff hN] at hq
          linear_combination hq
        exact mul_left_cancel₀ hpi this
      have hq3 : ((n : ℤ) - m) = q * N := by exact_mod_cast hq2
      have hq4 : q = 0 := by
        by_contra hne
        rcases lt_or_gt_of_ne hne with hlt | hgt
        · nlinarith
        · nlinarith
      rw [hq4, zero_mul] at hq3
      omega
    have h2 : Complex.exp (2 * Real.pi * Complex.I * ((n : ℂ) - m) / N) ^ N = 1 := by
      rw [← Complex.exp_nat_mul, Complex.exp_eq_one_iff]
      refine ⟨(n : ℤ) - m, ?_⟩
      push_cast
      field_simp
    rw [geom_sum_eq h1, h2, sub_self, zero_div]

/-! ### The transforms -/

theorem toC_exactDft (N : Nat) (x : Nat → Cx ℝ) (k : Nat) :
    toC (exactDft N ((List.range N).map x) k) = ∑ n ∈ range N, toC (x n) * kernel (-1) N n k := by
  rw [exactDft, toC_ofC]
  exact sum_congr rfl fun n hn => by rw [element_map_range x (mem_range.mp hn)]

theorem toC_exactIdft (N : Nat) (X : Nat → Cx ℝ) (n : Nat) :
    toC (exactIdft N ((List.range N).map X) n) = (1 / (N : ℂ)) * ∑ k ∈ range N, toC (X k) * kernel 1 N n k := by
  rw [exactIdft, toC_ofC]
  congr 1
  exact sum_congr rfl fun k hk => by rw [element_map_range X (mem_range.mp hk)]

/-- The inverse transform undoes the forward one. -/
theorem exactIdft_exactDft {N : Nat} (x : Nat → Cx ℝ) {n : Nat} (hn : n < N) :
    exactIdft N ((List.range N).map (exactDft N ((List.range N).map x))) n = x n := by
  apply toC_injective
  have hN : (N : ℂ) ≠ 0 := by exact_mod_cast (by omega : N ≠ 0)
  rw [toC_exactIdft]
  simp only [toC_exactDft, sum_mul]
  rw [sum_comm]
  have : ∀ m ∈ range N, ∑ k ∈ range N, toC (x m) * kernel (-1) N m k * kernel 1 N n k =
      toC (x m) * (if n = m then (N : ℂ) else 0) := by
    intro m hm
    rw [← sum_kernel hn (mem_range.mp hm), mul_sum]
    exact sum_congr rfl fun k _ => by ring
  rw [sum_congr rfl this, sum_eq_single_of_mem n (mem_range.mpr hn) fun m _ hne => by rw [if_neg (Ne.symm hne), mul_zero],
    if_pos rfl]
  field_simp

/-- The forward transform undoes the inverse one. -/
theorem exactDft_exactIdft {N : Nat} (X : Nat → Cx ℝ) {k : Nat} (hk : k < N) :
    exactDft N ((List.range N).map (exactIdft N ((List.range N).map X))) k = X k := by
  apply toC_injective
  have hN : (N : ℂ) ≠ 0 := by exact_mod_cast (by omega : N ≠ 0)
  rw [toC_exactDft]
  simp only [toC_exactIdft, mul_sum, sum_mul]
  rw [sum_comm]
  have : ∀ m ∈ range N, ∑ n ∈ range N, 1 / (N : ℂ) * (toC (X m) * kernel 1 N n m) * kernel (-1) N n k =
      1 / (N : ℂ) * toC (X m) * (if m = k then (N : ℂ) else 0) := by
    intro m hm
    rw [← sum_kernel (mem_range.mp hm) hk, mul_sum]
    exact sum_congr rfl fun n _ => by rw [kernel_comm 1 N m n, kernel_comm (-1) N k n]; ring
  rw [sum_congr rfl this, sum_eq_single_of_mem k (mem_range.mpr hk) fun m _ hne => by rw [if_neg hne, mul_zero], if_pos rfl]
  field_simp

/-- A circular shift multiplies a sum against a kernel by the kernel at the shift, whatever the sign convention (R127). -/
theorem sum_shift_kernel (c : ℤ) {N s : Nat} (x : Nat → Cx ℝ) (hs : s < N) (k : Nat) :
    ∑ n ∈ range N, toC (x ((n + (N - s)) % N)) * kernel c N n k =
      kernel c N s k * ∑ n ∈ range N, toC (x n) * kernel c N n k := by
  rw [mul_sum]
  refine sum_nbij' (fun n => (n + (N - s)) % N) (fun m => (m + s) % N) ?_ ?_ ?_ ?_ ?_
  · intro n _; exact mem_range.mpr (Nat.mod_lt _ (by omega))
  · intro m _; exact mem_range.mpr (Nat.mod_lt _ (by omega))
  · intro n hn
    have hn := mem_range.mp hn
    simp only [Nat.mod_add_mod]
    rw [show n + (N - s) + s = n + N by omega, Nat.add_mod_right, Nat.mod_eq_of_lt hn]
  · intro m hm
    have hm := mem_range.mp hm
    simp only [Nat.mod_add_mod]
    rw [show m + s + (N - s) = m + N by omega, Nat.add_mod_right, Nat.mod_eq_of_lt hm]
  · intro n hn
    have hn := mem_range.mp hn
    have h1 : kernel c N s k * kernel c N ((n + (N - s)) % N) k = kernel c N n k := by
      rw [kernel_mod c (by omega), ← kernel_add_left, show s + (n + (N - s)) = n + N by omega, kernel_add_left,
        kernel_period c (by omega), mul_one]
    rw [← h1]
    ring

/-- The forward transform of a circular shift (R127). -/
theorem toC_exactDft_shift {N s : Nat} (x : Nat → Cx ℝ) (hs : s < N) (k : Nat) :
    toC (exactDft N ((List.range N).map (fun n => x ((n + (N - s)) % N))) k) =
      kernel (-1) N s k * toC (exactDft N ((List.range N).map x) k) := by
  have h := sum_shift_kernel (-1) x hs k
  push_cast at h
  rw [toC_exactDft, toC_exactDft, h]

/-- The forward transform of the opposite sign convention (R127). -/
theorem toC_oppositeDft (u : Word → ℝ) (N : Nat) (x : Nat → Cx ℝ) (k : Nat) :
    toC ((oppositeNum u).dft N ((List.range N).map x) k) = ∑ n ∈ range N, toC (x n) * kernel 1 N n k := by
  rw [oppositeNum, toC_ofC]
  exact sum_congr rfl fun n hn => by rw [element_map_range x (mem_range.mp hn)]

/-- The forward transform of a circular shift under the opposite sign convention (R127). -/
theorem toC_oppositeDft_shift (u : Word → ℝ) {N s : Nat} (x : Nat → Cx ℝ) (hs : s < N) (k : Nat) :
    toC ((oppositeNum u).dft N ((List.range N).map (fun n => x ((n + (N - s)) % N))) k) =
      kernel 1 N s k * toC ((oppositeNum u).dft N ((List.range N).map x) k) := by
  have h := sum_shift_kernel 1 x hs k
  push_cast at h
  rw [toC_oppositeDft, toC_oppositeDft, h]

/-- A shift by any integer is one by its residue. -/
theorem exists_shift_residue {N : Nat} (hN : 1 ≤ N) (s : ℤ) : ∃ r : Nat, r < N ∧ (r : ℤ) = s % (N : ℤ) := by
  have h1 := Int.emod_nonneg s (by omega : (N : ℤ) ≠ 0)
  have h2 := Int.emod_lt_of_pos s (by omega : (0 : ℤ) < N)
  exact ⟨(s % N).toNat, by omega, by omega⟩

theorem circularShift_eq {α : Type} {N r : Nat} {s : ℤ} (hr : r < N) (h : (r : ℤ) = s % (N : ℤ)) (x : Nat → α) :
    circularShift N s x = fun n => x ((n + (N - r)) % N) := by
  funext n
  unfold circularShift
  congr 1
  have e : (n : ℤ) + (N - s % N) = (n - s) + N * (1 + s / N) := by
    have := Int.mul_ediv_add_emod s N
    linear_combination -this
  have : ((n : ℤ) - s) % N = ((n + (N - r) : Nat) : ℤ) % N := by
    push_cast [Nat.cast_sub hr.le]
    rw [h, e, Int.add_mul_emod_self_left]
  rw [this]
  norm_cast

theorem kernel_eq_shiftPhase {N r : Nat} {s : ℤ} (hN : 1 ≤ N) (h : (r : ℤ) = s % (N : ℤ)) (k : Nat) :
    kernel (-1) N r k = shiftPhase N s k := by
  have hN' : (N : ℂ) ≠ 0 := by exact_mod_cast (by omega : N ≠ 0)
  unfold kernel shiftPhase
  rw [Complex.exp_eq_exp_iff_exists_int]
  refine ⟨s / N * k, ?_⟩
  have e : (s : ℂ) = N * (s / N : ℤ) + r := by
    have := Int.mul_ediv_add_emod s N
    rw [← h] at this
    exact_mod_cast this.symm
  rw [e]
  push_cast
  field_simp
  ring

/-- A Hermitian spectrum has a real inverse transform. -/
theorem exactIdft_im {N : Nat} (hN : 1 ≤ N) (X : Nat → Cx ℝ)
    (h : ∀ k < N, toC (X ((N - k) % N)) = (starRingEnd ℂ) (toC (X k))) (n : Nat) :
    (exactIdft N ((List.range N).map X) n).im = 0 := by
  have key : (starRingEnd ℂ) (toC (exactIdft N ((List.range N).map X) n)) = toC (exactIdft N ((List.range N).map X) n) := by
    rw [toC_exactIdft, map_mul, map_sum]
    congr 1
    · simp
    · refine sum_nbij' (fun k => (N - k) % N) (fun k => (N - k) % N) ?_ ?_ ?_ ?_ ?_
      · intro k _; exact mem_range.mpr (Nat.mod_lt _ (by omega))
      · intro k _; exact mem_range.mpr (Nat.mod_lt _ (by omega))
      · intro k hk
        have := mem_range.mp hk
        rcases Nat.eq_zero_or_pos k with rfl | hp
        · simp
        · show (N - (N - k) % N) % N = k
          rw [Nat.mod_eq_of_lt (by omega : N - k < N), Nat.mod_eq_of_lt (by omega)]; omega
      · intro k hk
        have := mem_range.mp hk
        rcases Nat.eq_zero_or_pos k with rfl | hp
        · simp
        · show (N - (N - k) % N) % N = k
          rw [Nat.mod_eq_of_lt (by omega : N - k < N), Nat.mod_eq_of_lt (by omega)]; omega
      · intro k hk
        have hk' := mem_range.mp hk
        rw [map_mul, ← h k hk']
        congr 1
        have h1 : kernel 1 N n ((N - k) % N) = kernel 1 N n (N - k) := by
          have := kernel_mod 1 hN (N - k) n
          push_cast at this
          rw [kernel_comm, this, kernel_comm]
        have h2 : kernel 1 N n (N - k) * kernel 1 N n k = 1 := by
          rw [kernel_comm 1 N n (N - k), kernel_comm 1 N n k, ← kernel_add_left, Nat.sub_add_cancel hk'.le]
          have := kernel_period 1 hN n
          push_cast at this
          exact this
        have h3 : (starRingEnd ℂ) (kernel 1 N n k) * kernel 1 N n k = 1 := by
          rw [kernel, ← Complex.exp_conj, ← Complex.exp_add]
          simp only [map_mul, map_div₀, Complex.conj_ofReal, Complex.conj_I, map_natCast, map_one, map_ofNat]
          rw [show (1 * (2 * (Real.pi : ℂ) * -Complex.I * n * k / N) + 1 * (2 * (Real.pi : ℂ) * Complex.I * n * k / N)) = 0 by
            ring, Complex.exp_zero]
        rw [h1]
        exact mul_right_cancel₀ (right_ne_zero_of_mul_eq_one h3) (h3.trans h2.symm)
  have := congrArg Complex.im key
  simp only [Complex.conj_im] at this
  show (toC (exactIdft N ((List.range N).map X) n)).im = 0
  linarith

/-! ### The divider -/

theorem toC_eq_zero_iff (z : Cx ℝ) : toC z = 0 ↔ z = ⟨0, 0⟩ :=
  ⟨fun h => toC_injective h, fun h => by rw [h]; rfl⟩

/-- Off zero the divider's quotient is the complex quotient (R171). -/
theorem toC_cdiv (u : Word → ℝ) (a z : Cx ℝ) (hz : z ≠ ⟨0, 0⟩) : toC ((exactNum u).cdiv a z) = toC a / toC z := by
  have hz' : z.re * z.re + z.im * z.im ≠ 0 := by
    intro h
    apply hz
    have h1 : z.re = 0 := by nlinarith [mul_self_nonneg z.re, mul_self_nonneg z.im]
    have h2 : z.im = 0 := by nlinarith [mul_self_nonneg z.re, mul_self_nonneg z.im]
    cases z
    simp_all
  have e1 : (a.re * z.re + a.im * z.im) / (z.re * z.re + z.im * z.im) * z.re -
      (a.im * z.re - a.re * z.im) / (z.re * z.re + z.im * z.im) * z.im = a.re := by
    rw [div_mul_eq_mul_div, div_mul_eq_mul_div, ← sub_div, div_eq_iff hz']
    ring
  have e2 : (a.re * z.re + a.im * z.im) / (z.re * z.re + z.im * z.im) * z.im +
      (a.im * z.re - a.re * z.im) / (z.re * z.re + z.im * z.im) * z.re = a.im := by
    rw [div_mul_eq_mul_div, div_mul_eq_mul_div, ← add_div, div_eq_iff hz']
    ring
  rw [eq_div_iff ((toC_eq_zero_iff z).not.2 hz)]
  exact Complex.ext e1 e2

/-- The inverse transform of `g` times the transform of a unit sample at `s`. -/
theorem exactIdft_shiftKernel {N s : Nat} (hs : s < N) (Z : Nat → Cx ℝ) (g : ℝ)
    (hZ : ∀ k < N, toC (Z k) = g * kernel (-1) N s k) (n : Nat) (hn : n < N) :
    exactIdft N ((List.range N).map Z) n = if n = s then ⟨g, 0⟩ else ⟨0, 0⟩ := by
  apply toC_injective
  rw [toC_exactIdft]
  have hN : (N : ℂ) ≠ 0 := by exact_mod_cast (by omega : N ≠ 0)
  have : ∑ k ∈ range N, toC (Z k) * kernel 1 N n k = g * (if n = s then (N : ℂ) else 0) := by
    rw [← sum_kernel hn hs, mul_sum]
    exact sum_congr rfl fun k hk => by rw [hZ k (mem_range.1 hk)]; ring
  rw [this]
  split
  · field_simp
    rfl
  · simp
    rfl

/-- The forward transform is linear in a real factor. -/
theorem toC_exactDft_smul (N : Nat) (g : ℝ) (x : Nat → ℝ) (k : Nat) :
    toC (exactDft N ((List.range N).map (fun n => (⟨g * x n, 0⟩ : Cx ℝ))) k) =
      g * toC (exactDft N ((List.range N).map (fun n => (⟨x n, 0⟩ : Cx ℝ))) k) := by
  rw [toC_exactDft, toC_exactDft, mul_sum]
  refine sum_congr rfl fun n _ => ?_
  have : toC ⟨g * x n, 0⟩ = g * toC ⟨x n, 0⟩ := by apply Complex.ext <;> simp [toC]
  rw [this]
  ring

/-- In `NUM_EXACT` a bin is forced to zero exactly when its divisor is degenerate (R172). -/
theorem exact_binForced (u : Word → ℝ) (fl : ℝ) (a z : Cx ℝ) : binForced (exactNum u) fl a z = degenerate (exactNum u) fl z := by
  simp [binForced]

/-! ### The chirp's spectrum -/

/-- The first and the Nyquist bin of the half-spectrum are 1 (R141). -/
theorem exact_sweepBin_edges (u : Word → ℝ) (P : Nat) (d : ℝ) (h2 : 2 ≤ P) (he : P % 2 = 0) :
    sweepBin (exactNum u) P d 0 = ⟨1, 0⟩ ∧ sweepBin (exactNum u) P d (P / 2) = ⟨1, 0⟩ := by
  obtain ⟨F, hF⟩ : ∃ F, P = 2 * F := ⟨P / 2, by omega⟩
  have hNF : P / 2 = F := by omega
  have hFne : (F : ℝ) ≠ 0 := by exact_mod_cast (by omega : F ≠ 0)
  have pine := Real.pi_pos.ne'
  constructor
  · simp [sweepBin, phasor, sweepPhase]
  · have hp : sweepPhase (exactNum u) P d (P / 2) = (sweepRawAlpha (exactNum u) P d : ℝ) * (2 * Real.pi) := by
      simp only [sweepPhase, sweepAlpha, exactNum_add, exactNum_mul, exactNum_ofNat, exactNum_sub, exactNum_div,
        exactNum_ofInt, exactNum_twoPi, hNF]
      push_cast
      field_simp
      ring
    have hs := Real.sin_int_mul_pi (sweepRawAlpha (exactNum u) P d * 2)
    push_cast at hs
    rw [sweepBin, hp]
    simp only [phasor, exactNum_cos, exactNum_sin, exactNum_neg, Real.cos_int_mul_two_pi]
    rw [show (sweepRawAlpha (exactNum u) P d : ℝ) * (2 * Real.pi) = sweepRawAlpha (exactNum u) P d * 2 * Real.pi by ring, hs]
    simp

/-- The full spectrum is Hermitian (R145). -/
theorem exact_chirpBin_hermitian (u : Word → ℝ) (P : Nat) (d : ℝ) (h2 : 2 ≤ P) (he : P % 2 = 0) (k : Nat) (hk : k < P) :
    chirpBin (exactNum u) P d ((P - k) % P) = conj (exactNum u) (chirpBin (exactNum u) P d k) := by
  obtain ⟨n0, nN⟩ := exact_sweepBin_edges u P d h2 he
  rcases Nat.eq_zero_or_pos k with rfl | hp
  · simp [chirpBin, n0, conj]
  rw [Nat.mod_eq_of_lt (by omega)]
  rcases lt_trichotomy k (P / 2) with h | h | h
  · rw [chirpBin, if_neg (by omega), chirpBin, if_pos (by omega), show P - (P - k) = k by omega]
  · subst h
    rw [show P - P / 2 = P / 2 by omega, chirpBin, if_pos (le_refl _), nN]
    simp [conj]
  · rw [chirpBin, if_pos (by omega), chirpBin, if_neg (by omega)]
    simp [conj]

/-- The samples of the chirp are real. -/
theorem exact_chirpSample_ofReal (u : Word → ℝ) (P : Nat) (d : ℝ) (h2 : 2 ≤ P) (he : P % 2 = 0) (n : Nat) :
    ofReal (exactNum u) (chirpSample (exactNum u) P d n).re = chirpSample (exactNum u) P d n := by
  have h : (chirpSample (exactNum u) P d n).im = 0 :=
    exactIdft_im (by omega) _ (fun k hk => by rw [exact_chirpBin_hermitian u P d h2 he k hk]; rfl) n
  cases hc : chirpSample (exactNum u) P d n
  rw [hc] at h
  simp only at h
  simp [ofReal, h]

end Sys2Proof.Machine
end

