-- ==== Sys2Proof/Laws/Host.lean ====
section
/-! SUPPORT. The laws of the host's side: the recording memory under `MemWrite`, the buffers under soft reset, a step that is a
host action, and where the address map puts each register and element (20_memory.md R61 to R67). -/

namespace Sys2Proof.Machine

variable {ν : Type}

/-! ### The recording memory -/

theorem word_of_bytes (w : Word) :
    w.extractLsb' 24 8 ++ w.extractLsb' 16 8 ++ w.extractLsb' 8 8 ++ w.extractLsb' 0 8 = w := by
  apply BitVec.eq_of_getLsbD_eq
  intro i hi
  simp only [BitVec.getLsbD_append, BitVec.getLsbD_extractLsb']
  interval_cases i <;> rfl

/-- A write of a word leaves every byte outside its four alone. -/
theorem readByte_memWrite_of_ne (H : Params ν) (d a b : Nat) (w : Word) (e : Engine ν) (h : b < a ∨ a + 4 ≤ b) :
    readByte H d (memWrite a w e) b = readByte H d e b := by
  simp only [readByte, memWrite, lookup_store]
  rw [if_neg (by omega), if_neg (by omega), if_neg (by omega), if_neg (by omega)]

/-- A read after a write to the same place gives the word written. -/
theorem memRead_memWrite (H : Params ν) (d a : Nat) (w : Word) (e : Engine ν) : memRead H d (memWrite a w e) a = w := by
  have h0 : readByte H d (memWrite a w e) a = w.extractLsb' 0 8 := by
    simp only [readByte, memWrite, lookup_store]
    rw [if_neg (by omega), if_neg (by omega), if_neg (by omega), if_pos trivial]; rfl
  have h1 : readByte H d (memWrite a w e) (a + 1) = w.extractLsb' 8 8 := by
    simp only [readByte, memWrite, lookup_store]
    rw [if_neg (by omega), if_neg (by omega), if_pos trivial]; rfl
  have h2 : readByte H d (memWrite a w e) (a + 2) = w.extractLsb' 16 8 := by
    simp only [readByte, memWrite, lookup_store]
    rw [if_neg (by omega), if_pos trivial]; rfl
  have h3 : readByte H d (memWrite a w e) (a + 3) = w.extractLsb' 24 8 := by
    simp only [readByte, memWrite, lookup_store]
    rw [if_pos trivial]; rfl
  rw [memRead, h0, h1, h2, h3]
  exact word_of_bytes w

/-- A read of another word is unchanged by a write. -/
theorem memRead_memWrite_of_ne (H : Params ν) (d a b : Nat) (w : Word) (e : Engine ν) (h : b + 4 ≤ a ∨ a + 4 ≤ b) :
    memRead H d (memWrite a w e) b = memRead H d e b := by
  simp only [memRead]
  rw [readByte_memWrite_of_ne _ _ _ _ _ _ (by omega), readByte_memWrite_of_ne _ _ _ _ _ _ (by omega),
    readByte_memWrite_of_ne _ _ _ _ _ _ (by omega), readByte_memWrite_of_ne _ _ _ _ _ _ (by omega)]

/-! ### Soft reset -/

theorem softReset_vreg (H : Params ν) (e : Engine ν) (j : VReg) :
    (softReset H e).vreg j = forget (fun k => discarded e (.vec j k)) (e.vreg j) := by cases j <;> rfl
theorem softReset_acc (H : Params ν) (e : Engine ν) : (softReset H e).acc = forget (fun n => discarded e (.acc n)) e.acc := rfl
theorem softReset_res (H : Params ν) (e : Engine ν) : (softReset H e).res = forget (fun n => discarded e (.res n)) e.res := rfl

/-- When nothing is discarded, nothing is forgotten. -/
theorem forget_none {α : Type} {p : Nat → Bool} (h : ∀ k, p k = false) (m : List (Nat × α)) : forget p m = m := by
  simp [forget, h]

theorem discarded_of_idle {e : Engine ν} (h : e.busy = false) (p : Piece) : discarded e p = false := by simp [discarded, h]

theorem discarded_of_legal {e : Engine ν} {i : Instr} (h : e.busy = true) (hd : decode e.cmdLatch = .ok i) (p : Piece) :
    discarded e p = mayWrite e.P i p := by simp [discarded, h, fetch, hd]

theorem discarded_of_illegal {e : Engine ν} {r : Illegal} (hd : decode e.cmdLatch = .error r) (p : Piece) :
    discarded e p = false := by simp [discarded, fetch, hd]

/-! ### A step that is a host action -/

/-- The step of an action that exists, given what its effect is. -/
theorem step_host {s : State} {a : HostAction NumVal} {rest : List (Event NumVal)} (h : s.script = .host a :: rest)
    (ha : actionExists Config.params a = true) {e : Engine NumVal} (he : actionEffect Config.params a s.toEngine = e) :
    step s = .next ⟨e, rest, replyAfter (actionReply Config.params (s.draws + 1) s.toEngine a) s.reply, s.draws + 1⟩ := by
  subst he
  simp only [step, h, hostAct, ha, if_true]

/-! ### The address map -/

theorem slotOfNat_number (i : Slot) : slotOfNat i.number = i := by cases i <;> rfl

theorem slot_number_lt (i : Slot) : i.number < 16 := by cases i <;> decide

theorem locate_csr (H : Params ν) (i : Slot) : locate H (4 * i.number) = .csr i := by
  have := slot_number_lt i
  simp only [locate]
  rw [if_pos (by omega), Nat.mul_div_cancel_left _ (by omega), slotOfNat_number]

/-- The map's constraints as facts about the rows that follow the registers (R65). -/
theorem map_rows {m : AddressMap} {ew pMax recCap : Nat} (h : m.Fits ew pMax recCap) (hew : 1 ≤ ew) :
    64 + 4 * ew ≤ m.offRes ∧
    (m.offRes + 4 * ew * pMax ≤ m.offAcc ∨ m.offAcc + 4 * ew * pMax ≤ m.offRes) ∧
    (m.offRes + 4 * ew * pMax ≤ m.offV ∨ m.offV + 32 * ew * pMax ≤ m.offRes) ∧
    (m.offRes + 4 * ew * pMax ≤ m.offRec ∨ m.offRec + 8 * recCap ≤ m.offRes) ∧
    (m.offAcc + 4 * ew * pMax ≤ m.offV ∨ m.offV + 32 * ew * pMax ≤ m.offAcc) ∧
    (m.offAcc + 4 * ew * pMax ≤ m.offRec ∨ m.offRec + 8 * recCap ≤ m.offAcc) ∧
    (m.offV + 32 * ew * pMax ≤ m.offRec ∨ m.offRec + 8 * recCap ≤ m.offV) ∧
    (64 ≤ m.offRec ∨ m.offRec + 8 * recCap ≤ 0) ∧ (64 + 4 * ew ≤ m.offRec ∨ m.offRec + 8 * recCap ≤ 64) := by
  obtain ⟨_, _, _, _, _, h6, h7⟩ := h
  simp only [AddressMap.rows, List.pairwise_cons, List.mem_cons, List.not_mem_nil, or_false, forall_eq_or_imp, forall_eq] at h7
  omega

/-- `ACC` and `V` follow the register rows too (R65: no overlap). -/
theorem map_after_registers {m : AddressMap} {ew pMax recCap : Nat} (h : m.Fits ew pMax recCap) (hew : 1 ≤ ew) (hp : 2 ≤ pMax) :
    64 + 4 * ew ≤ m.offAcc ∧ 64 + 4 * ew ≤ m.offV := by
  obtain ⟨_, _, _, _, _, h6, h7⟩ := h
  have e1 : 4 * ew * pMax = 4 * (ew * pMax) := by ring
  have e2 : 32 * ew * pMax = 32 * (ew * pMax) := by ring
  have e3 : 2 ≤ ew * pMax := by calc 2 = 1 * 2 := rfl
      _ ≤ _ := Nat.mul_le_mul hew hp
  simp only [AddressMap.rows, List.pairwise_cons, List.mem_cons, List.not_mem_nil, or_false, forall_eq_or_imp, forall_eq, e1,
    e2] at h7
  omega

/-- The window of `REC` (R65). -/
theorem locate_rec (i : Nat) (c : Channel) (hi : i < Config.recCap) :
    locate Config.params (Config.map.offRec + 8 * i + 4 * Channel.index c) = .sample i c := by
  obtain ⟨m1, m2, m3, m4, m5, m6, m7, m8, m9⟩ := map_rows Config.map_fits Config.ew_pos
  have hc : Channel.index c ≤ 1 := by cases c <;> decide
  have e5 : 4 * (2 * (4 * Config.ew * Config.pMax)) = 32 * Config.ew * Config.pMax := by ring
  have w : ∀ lo n k, within lo n k = decide (lo ≤ k ∧ k < lo + n) := by intro lo n k; simp [within]
  unfold locate
  rw [show Config.params.num.ew = Config.ew from rfl, show Config.params.map = Config.map from rfl,
    show Config.params.recCap = Config.recCap from rfl, show Config.params.pMax = Config.pMax from rfl]
  simp only [w, e5, decide_eq_true_eq]
  generalize 4 * Config.ew * Config.pMax = X at *
  generalize 32 * Config.ew * Config.pMax = Y at *
  rw [if_neg (by omega), if_neg (by omega), if_neg (by omega), if_neg (by omega), if_neg (by omega), if_pos (by omega)]
  cases c
  · rw [if_pos (by simp [Channel.index]), show (Config.map.offRec + 8 * i + 4 * Channel.index .ch0 - Config.map.offRec) / 8 = i by
      simp [Channel.index]]
  · rw [if_neg (by simp [Channel.index]; omega), show (Config.map.offRec + 8 * i + 4 * Channel.index .ch1 - Config.map.offRec) / 8 = i by
      simp [Channel.index]; omega]

/-- The window of `RES` (R65). -/
theorem locate_res (n u : Nat) (hn : n < Config.pMax) (hu : u < Config.ew) :
    locate Config.params (Config.map.offRes + 4 * Config.ew * n + 4 * u) = .res n u := by
  obtain ⟨m1, m2, m3, m4, m5, m6, m7, m8, m9⟩ := map_rows Config.map_fits Config.ew_pos
  have w : ∀ lo n k, within lo n k = decide (lo ≤ k ∧ k < lo + n) := by intro lo n k; simp [within]
  have hlt : 4 * Config.ew * n + 4 * u < 4 * Config.ew * Config.pMax := by
    calc _ < 4 * Config.ew * n + 4 * Config.ew := by omega
      _ = 4 * Config.ew * (n + 1) := by ring
      _ ≤ _ := Nat.mul_le_mul_left _ hn
  unfold locate
  rw [show Config.params.num.ew = Config.ew from rfl, show Config.params.map = Config.map from rfl,
    show Config.params.pMax = Config.pMax from rfl]
  simp only [w, decide_eq_true_eq]
  rw [if_neg (by omega), if_neg (by omega), if_pos (by omega),
    show Config.map.offRes + 4 * Config.ew * n + 4 * u - Config.map.offRes = 4 * u + 4 * Config.ew * n by omega,
    Nat.add_mul_div_left _ _ (by omega), Nat.div_eq_of_lt (by omega), Nat.add_mul_mod_self_left, Nat.mod_eq_of_lt (by omega)]
  rw [Nat.zero_add, Nat.mul_div_cancel_left _ (by omega)]

/-- A bus write is the host action `busWrite` names, if there is one. -/
theorem busEffect_of_some {H : Params ν} {d : Nat} {w : Word} {t : Target} {e : Engine ν} {a : HostAction ν}
    (h : busWrite H d w e t = some a) : busEffect H d w t e = actionEffect H a e := by
  simp only [busEffect, h]

/-- A bus write to `DELAY_MS` is ignored (R39, R67). -/
@[simp] theorem busEffect_delayMs (H : Params ν) (d u : Nat) (w : Word) (e : Engine ν) :
    busEffect H d w (.delayMs u) e = e := rfl

/-- A bus write to a hole is ignored (R65). -/
@[simp] theorem busEffect_hole (H : Params ν) (d : Nat) (w : Word) (e : Engine ν) : busEffect H d w .hole e = e := rfl

/-- The window of `DELAY_MS` (R65). -/
theorem locate_delayMs (u : Nat) (hu : u < Config.ew) : locate Config.params (0x40 + 4 * u) = .delayMs u := by
  have w : ∀ lo n k, within lo n k = decide (lo ≤ k ∧ k < lo + n) := by intro lo n k; simp [within]
  unfold locate
  rw [show Config.params.num.ew = Config.ew from rfl]
  simp only [w, decide_eq_true_eq]
  rw [if_neg (by omega), if_pos (by omega), show 0x40 + 4 * u - 0x40 = 4 * u by omega, Nat.mul_div_cancel_left _ (by omega)]

/-- The window of `ACC` (R65). -/
theorem locate_acc (n u : Nat) (hn : n < Config.pMax) (hu : u < Config.ew) :
    locate Config.params (Config.map.offAcc + 4 * Config.ew * n + 4 * u) = .acc n u := by
  obtain ⟨m1, m2, m3, m4, m5, m6, m7, m8, m9⟩ := map_rows Config.map_fits Config.ew_pos
  obtain ⟨a1, a2⟩ := map_after_registers Config.map_fits Config.ew_pos Config.pMax_ge
  have w : ∀ lo n k, within lo n k = decide (lo ≤ k ∧ k < lo + n) := by intro lo n k; simp [within]
  have hlt : 4 * Config.ew * n + 4 * u < 4 * Config.ew * Config.pMax := by
    calc _ < 4 * Config.ew * n + 4 * Config.ew := by omega
      _ = 4 * Config.ew * (n + 1) := by ring
      _ ≤ _ := Nat.mul_le_mul_left _ hn
  unfold locate
  rw [show Config.params.num.ew = Config.ew from rfl, show Config.params.map = Config.map from rfl,
    show Config.params.pMax = Config.pMax from rfl]
  simp only [w, decide_eq_true_eq]
  rw [if_neg (by omega), if_neg (by omega), if_neg (by omega), if_pos (by omega),
    show Config.map.offAcc + 4 * Config.ew * n + 4 * u - Config.map.offAcc = 4 * u + 4 * Config.ew * n by omega,
    Nat.add_mul_div_left _ _ (by omega), Nat.div_eq_of_lt (by omega), Nat.add_mul_mod_self_left, Nat.mod_eq_of_lt (by omega)]
  rw [Nat.zero_add, Nat.mul_div_cancel_left _ (by omega)]

/-- The windows of the vector registers (R65): register `j`, element `k`, real part first, word `u`. -/
theorem locate_vec (j : VReg) (k u : Nat) (imag : Bool) (hk : k < Config.pMax) (hu : u < Config.ew) :
    locate Config.params (Config.map.offV + 8 * Config.ew * Config.pMax * VReg.index j + 8 * Config.ew * k +
      (if imag then 4 * Config.ew else 0) + 4 * u) = .vec j k imag u := by
  obtain ⟨m1, m2, m3, m4, m5, m6, m7, m8, m9⟩ := map_rows Config.map_fits Config.ew_pos
  obtain ⟨a1, a2⟩ := map_after_registers Config.map_fits Config.ew_pos Config.pMax_ge
  have w : ∀ lo n k, within lo n k = decide (lo ≤ k ∧ k < lo + n) := by intro lo n k; simp [within]
  have hj : VReg.index j ≤ 3 := by cases j <;> decide
  have hjv : vregOfNat (VReg.index j) = j := by cases j <;> rfl
  have e2 : 2 * (4 * Config.ew * Config.pMax) = 8 * Config.ew * Config.pMax := by ring
  have e4 : 4 * (8 * Config.ew * Config.pMax) = 32 * Config.ew * Config.pMax := by ring
  generalize hi : (if imag then 4 * Config.ew else 0) = y
  have hy : y + 4 * u < 8 * Config.ew := by subst hi; split <;> omega
  have hlt : 8 * Config.ew * k + (y + 4 * u) < 8 * Config.ew * Config.pMax := by
    calc _ < 8 * Config.ew * k + 8 * Config.ew := by omega
      _ = 8 * Config.ew * (k + 1) := by ring
      _ ≤ _ := Nat.mul_le_mul_left _ hk
  have hall : 8 * Config.ew * Config.pMax * VReg.index j + (8 * Config.ew * k + (y + 4 * u)) < 32 * Config.ew * Config.pMax := by
    calc _ < 8 * Config.ew * Config.pMax * VReg.index j + 8 * Config.ew * Config.pMax := by omega
      _ = 8 * Config.ew * Config.pMax * (VReg.index j + 1) := by ring
      _ ≤ 8 * Config.ew * Config.pMax * 4 := Nat.mul_le_mul_left _ (by omega)
      _ = _ := by ring
  have hr : Config.map.offV + 8 * Config.ew * Config.pMax * VReg.index j + 8 * Config.ew * k + y + 4 * u - Config.map.offV =
      (8 * Config.ew * k + (y + 4 * u)) + 8 * Config.ew * Config.pMax * VReg.index j := by omega
  have hpos : 0 < 8 * Config.ew * Config.pMax := by omega
  unfold locate
  rw [show Config.params.num.ew = Config.ew from rfl, show Config.params.map = Config.map from rfl,
    show Config.params.pMax = Config.pMax from rfl]
  simp only [w, decide_eq_true_eq, e2, e4]
  rw [if_neg (by omega), if_neg (by omega), if_neg (by omega), if_neg (by omega), if_pos (by omega), hr,
    Nat.add_mul_div_left _ _ hpos, Nat.div_eq_of_lt hlt, Nat.zero_add, hjv, Nat.add_mul_mod_self_left, Nat.mod_eq_of_lt hlt,
    Nat.add_comm (8 * Config.ew * k), Nat.add_mul_div_left _ _ (by omega), Nat.div_eq_of_lt hy, Nat.zero_add,
    Nat.add_mul_mod_self_left, Nat.mod_eq_of_lt hy]
  cases imag
  · obtain rfl : y = 0 := by simpa using hi.symm
    rw [Nat.zero_add, decide_eq_false (by omega), Nat.mod_eq_of_lt (by omega), Nat.mul_div_cancel_left _ (by omega)]
  · obtain rfl : y = 4 * Config.ew := by simpa using hi.symm
    rw [decide_eq_true (by omega), Nat.add_mod_left, Nat.mod_eq_of_lt (by omega), Nat.mul_div_cancel_left _ (by omega)]

/-- An offset that no row of the map covers is a hole (R65). -/
theorem locate_hole (o : Nat) (h : ∀ r ∈ Config.map.rows Config.ew Config.pMax Config.recCap, ¬(r.1 ≤ o ∧ o < r.1 + r.2)) :
    locate Config.params o = .hole := by
  have w : ∀ lo n k, within lo n k = decide (lo ≤ k ∧ k < lo + n) := by intro lo n k; simp [within]
  have e5 : 4 * (2 * (4 * Config.ew * Config.pMax)) = 32 * Config.ew * Config.pMax := by ring
  simp only [AddressMap.rows, List.mem_cons, List.not_mem_nil, or_false, forall_eq_or_imp, forall_eq] at h
  obtain ⟨h1, h2, h3, h4, h5, h6⟩ := h
  unfold locate
  rw [show Config.params.num.ew = Config.ew from rfl, show Config.params.map = Config.map from rfl,
    show Config.params.recCap = Config.recCap from rfl, show Config.params.pMax = Config.pMax from rfl]
  simp only [w, e5, decide_eq_true_eq]
  rw [if_neg (by omega), if_neg h2, if_neg h3, if_neg h4, if_neg h5, if_neg h6]

/-- Replacing word `u` of an image leaves its other words alone (R66). -/
theorem spliceImage_word {n : Nat} (u v : Nat) (w : Word) (b : BitVec (32 * n)) (hu : u < n) (hv : v < n) :
    (spliceImage u w b).extractLsb' (32 * v) 32 = if v = u then w else b.extractLsb' (32 * v) 32 := by
  apply BitVec.eq_of_getLsbD_eq
  intro i hi
  have hb : 32 * v + i < 32 * n := by omega
  unfold spliceImage
  simp only [BitVec.getLsbD_extractLsb', BitVec.getLsbD_or, BitVec.getLsbD_and, BitVec.getLsbD_not, BitVec.getLsbD_shiftLeft,
    BitVec.getLsbD_setWidth, BitVec.getLsbD_allOnes]
  split
  · rename_i h
    subst h
    have : i < 32 * n := by omega
    simp [hi, hb, this]
  · rename_i h
    simp only [BitVec.getLsbD_extractLsb', hi]
    by_cases h2 : 32 * v + i < 32 * u
    · simp [h2, hb]
    · have h3 : ¬32 * v + i - 32 * u < 32 := by omega
      have h4 : w.getLsbD (32 * v + i - 32 * u) = false := BitVec.getLsbD_of_ge _ _ (by omega)
      simp [*]

/-- The step of an aligned word access on the bus, given what its offset from `BASE` addresses. -/
theorem step_bus {s : State} {b : BusAccess} {rest : List (Event NumVal)} {o : Nat} {t : Target} (h : s.script = .bus b :: rest)
    (h4 : b.bytes = 4) (hb : b.addr = Config.map.base + o) (ho : o % 4 = 0) (ht : locate Config.params o = t) :
    (b.write = none → step s = .next { s with
      script := rest, draws := s.draws + 1, reply := .word (busRead Config.params (s.draws + 1) s.toEngine t) }) ∧
    (∀ w, b.write = some w → step s = .next { s with
      toEngine := busEffect Config.params (s.draws + 1) w t s.toEngine, script := rest, draws := s.draws + 1 }) := by
  have hm : Config.map.base % 4 = 0 := Config.map_fits.1
  have h1 : ¬(b.bytes ≠ 4 ∨ b.addr % 4 ≠ 0) := by omega
  have h2 : ¬b.addr < Config.params.map.base := by show ¬(_ < Config.map.base); omega
  have h3 : busTarget b = t := by
    subst ht
    show locate _ (_ - Config.map.base) = _
    congr 1
    omega
  constructor
  · intro hw
    simp only [step, h, busAct]
    rw [if_neg h1, if_neg h2, h3, hw]
  · intro w hw
    simp only [step, h, busAct]
    rw [if_neg h1, if_neg h2, h3, hw]

end Sys2Proof.Machine
end

