-- ==== Sys2Proof/Laws/Invariant.lean ====
section
/-! SUPPORT. What the invariant needs of the parts of a step: an effect keeps the buffers canonical and the registers in range
(`EffOk`), and the fault entry, the completion, the dropped write, reset and a write to `REC` keep `Inv`. -/

namespace Sys2Proof.Machine

variable {ν : Type} {H : Params ν} {e t : Engine ν}

/-! ### Fault entry, completion, dropped write, reset -/

theorem inv_raise (f : FaultCode) (h : Inv H e) (hb : e.busy = true) : Inv H (raise f e) where
  v := by simpa using h.v
  acc := by simpa using h.acc
  res := by simpa using h.res
  recording := by simpa using h.recording
  ctrlReserved := by simpa using h.ctrlReserved
  statusReserved n hn := by
    rw [raise_status, getLsbD_withBit, if_neg (by omega)]
    exact h.statusReserved n hn
  errRange := by show f.number.toNat ≤ 3; cases f <;> decide
  busyClear := by simp
  doneClear := by simp [(h.busyClear hb).1]
  nBlkRange := by simpa using h.nBlkRange
  peakRange := by simpa using h.peakRange

theorem inv_reject (h : Inv H e) : Inv H (reject e) where
  v := by simpa using h.v
  acc := by simpa using h.acc
  res := by simpa using h.res
  recording := by simpa using h.recording
  ctrlReserved := by simpa using h.ctrlReserved
  statusReserved n hn := by
    rw [reject_status, getLsbD_withBit, if_neg (by omega)]
    exact h.statusReserved n hn
  errRange := by simpa using h.errRange
  busyClear := by simpa using h.busyClear
  doneClear := by simpa using h.doneClear
  nBlkRange := by simpa using h.nBlkRange
  peakRange := by simpa using h.peakRange

theorem inv_engineReset (hp : 1 ≤ H.pMax) (z : ν) : Inv H (Engine.reset z) where
  v j := by cases j <;> exact bufferOk_nil _
  acc := bufferOk_nil _
  res := bufferOk_nil _
  recording := bufferOk_nil _
  ctrlReserved n _ := by show (0#32).getLsbD n = false; simp
  statusReserved n _ := by show (0#32).getLsbD n = false; simp
  errRange := Nat.zero_le _
  busyClear _ := by simp [Engine.done, Engine.reset]
  doneClear _ := rfl
  nBlkRange := Nat.zero_le _
  peakRange := hp

theorem inv_memWrite (h : Inv H e) (a : Nat) (w : Word) (ha : a + 4 ≤ 8 * H.recCap) : Inv H (memWrite a w e) where
  v j := by cases j; exacts [h.v .v0, h.v .v1, h.v .v2, h.v .v3]
  acc := h.acc
  res := h.res
  recording := bufferOk_store _ (by omega) (bufferOk_store _ (by omega) (bufferOk_store _ (by omega)
    (bufferOk_store _ (by omega) h.recording)))
  ctrlReserved := h.ctrlReserved
  statusReserved := h.statusReserved
  errRange := h.errRange
  busyClear := h.busyClear
  doneClear := h.doneClear
  nBlkRange := h.nBlkRange
  peakRange := h.peakRange

/-- With the range of `ERR`, no fault outstanding means `ERR = 0` (R26). -/
theorem err_eq_zero (h : Inv H e) (hc : e.code = 0) : e.err = 0#32 := by
  have := h.errRange
  unfold Engine.code at hc
  apply BitVec.eq_of_toNat_eq
  simp [BitVec.extractLsb] at hc
  simp
  omega

/-- A bus write is a host action with its index in range (R65, R67). -/
theorem busWrite_exists {d : Nat} {w : Word} {o : Nat} {a : HostAction ν} (hew : 1 ≤ H.num.ew)
    (h : busWrite H d w e (locate H o) = some a) : actionExists H a = true := by
  unfold locate at h
  simp only at h
  have e4 : 0 < 4 * H.num.ew := by omega
  split at h
  · cases h; rfl
  split at h
  · cases h
  split at h
  · rename_i hw; cases h
    simp [within] at hw
    simp only [actionExists, decide_eq_true_eq]
    rw [Nat.div_lt_iff_lt_mul e4, Nat.mul_comm]
    omega
  split at h
  · rename_i hw; cases h
    simp [within] at hw
    simp only [actionExists, decide_eq_true_eq]
    rw [Nat.div_lt_iff_lt_mul e4, Nat.mul_comm]
    omega
  split at h
  · rename_i hw; cases h
    simp only [actionExists, decide_eq_true_eq]
    rw [Nat.div_lt_iff_lt_mul (by omega)]
    have : 0 < 2 * (4 * H.num.ew * H.pMax) := by
      simp [within] at hw
      rcases Nat.eq_zero_or_pos (4 * H.num.ew * H.pMax) with h0 | h0
      · rw [h0] at hw; omega
      · omega
    refine lt_of_lt_of_eq (Nat.mod_lt _ this) ?_
    ring
  split at h
  · rename_i hw; cases h
    simp [within] at hw
    simp only [actionExists, decide_eq_true_eq]
    omega
  · cases h

/-! ### Effects -/

/-- What the effect of a command leaves in order. -/
structure EffOk (H : Params ν) (e t : Engine ν) : Prop where
  v : ∀ j, bufferOk H.pMax (t.vreg j)
  acc : bufferOk H.pMax t.acc
  res : bufferOk H.pMax t.res
  recording : t.recording = e.recording
  ctrl : t.ctrl = e.ctrl
  err : t.err = e.err
  status : ∀ n, 5 ≤ n → t.status.getLsbD n = e.status.getLsbD n
  nBlk : t.nBlk.toNat ≤ H.recCap
  peak : t.peakIdx.toNat < H.pMax
  P : t.P = e.P

/-- The completion of an effect in order keeps the invariant. -/
theorem inv_finish (h : Inv H e) (hb : e.busy = true) (k : EffOk H e t) : Inv H (finish t) where
  v := by simpa using k.v
  acc := by simpa using k.acc
  res := by simpa using k.res
  recording := by simpa [k.recording] using h.recording
  ctrlReserved := by simpa [k.ctrl] using h.ctrlReserved
  statusReserved n hn := by
    rw [finish_status, getLsbD_withBit, getLsbD_withBit, if_neg (by omega), if_neg (by omega), k.status n hn]
    exact h.statusReserved n hn
  errRange := by simpa [k.err] using h.errRange
  busyClear := by simp
  doneClear _ := by simp [k.err, (h.busyClear hb).2]
  nBlkRange := by simpa using k.nBlk
  peakRange := by simpa using k.peak

theorem EffOk.refl (h : Inv H e) : EffOk H e e where
  v := h.v
  acc := h.acc
  res := h.res
  recording := rfl
  ctrl := rfl
  err := rfl
  status _ _ := rfl
  nBlk := h.nBlkRange
  peak := h.peakRange
  P := rfl

section
variable (hP : t.P ≤ H.pMax) (k : EffOk H e t)
include k

theorem EffOk.writeVec (j : VReg) (lo n : Nat) (f : Nat → Cx ν) (hn : lo + n ≤ H.pMax) : EffOk H e (writeVec j lo n f t) where
  v i := by
    rw [Machine.writeVec, vreg_setVreg]
    split
    · exact bufferOk_storeRange _ hn (k.v j)
    · exact k.v i
  acc := by simpa using k.acc
  res := by simpa using k.res
  recording := by simpa using k.recording
  ctrl := by simpa using k.ctrl
  err := by simpa using k.err
  status := by simpa using k.status
  nBlk := by simpa using k.nBlk
  peak := by simpa using k.peak
  P := by simpa [Engine.P] using k.P

theorem EffOk.writeAcc (n : Nat) (f : Nat → ν) (hn : n ≤ H.pMax) : EffOk H e (writeAcc n f t) where
  v := by simpa using k.v
  acc := bufferOk_storeRange _ (by omega) k.acc
  res := by simpa using k.res
  recording := by simpa using k.recording
  ctrl := by simpa using k.ctrl
  err := by simpa using k.err
  status := by simpa using k.status
  nBlk := by simpa using k.nBlk
  peak := by simpa using k.peak
  P := by simpa [Engine.P] using k.P

theorem EffOk.writeRes (n : Nat) (f : Nat → ν) (hn : n ≤ H.pMax) : EffOk H e (writeRes n f t) where
  v := by simpa using k.v
  acc := by simpa using k.acc
  res := bufferOk_storeRange _ (by omega) k.res
  recording := by simpa using k.recording
  ctrl := by simpa using k.ctrl
  err := by simpa using k.err
  status := by simpa using k.status
  nBlk := by simpa using k.nBlk
  peak := by simpa using k.peak
  P := by simpa [Engine.P] using k.P

theorem EffOk.warnDegen (b : Bool) : EffOk H e (warnDegen b t) where
  v := by simpa using k.v
  acc := by simpa using k.acc
  res := by simpa using k.res
  recording := by simpa using k.recording
  ctrl := by simpa using k.ctrl
  err := by simpa using k.err
  status n hn := by
    rw [warnDegen_status, getLsbD_withBit, if_neg (by omega)]
    exact k.status n hn
  nBlk := by simpa using k.nBlk
  peak := by simpa using k.peak
  P := by simpa [Engine.P] using k.P

theorem EffOk.warnNonFin (b : Bool) : EffOk H e (warnNonFin b t) where
  v := by simpa using k.v
  acc := by simpa using k.acc
  res := by simpa using k.res
  recording := by simpa using k.recording
  ctrl := by simpa using k.ctrl
  err := by simpa using k.err
  status n hn := by
    rw [warnNonFin_status, getLsbD_withBit, if_neg (by omega)]
    exact k.status n hn
  nBlk := by simpa using k.nBlk
  peak := by simpa using k.peak
  P := by simpa [Engine.P] using k.P

theorem EffOk.setDegenCnt (w : Word) : EffOk H e { t with degenCnt := w } :=
  ⟨fun j => by cases j; exacts [k.v .v0, k.v .v1, k.v .v2, k.v .v3], k.acc, k.res, k.recording, k.ctrl, k.err, k.status,
    k.nBlk, k.peak, k.P⟩

theorem EffOk.setAccCnt (w : Word) : EffOk H e { t with accCnt := w } :=
  ⟨fun j => by cases j; exacts [k.v .v0, k.v .v1, k.v .v2, k.v .v3], k.acc, k.res, k.recording, k.ctrl, k.err, k.status,
    k.nBlk, k.peak, k.P⟩

theorem EffOk.setNBlk (w : Word) (hw : w.toNat ≤ H.recCap) : EffOk H e { t with nBlk := w } :=
  ⟨fun j => by cases j; exacts [k.v .v0, k.v .v1, k.v .v2, k.v .v3], k.acc, k.res, k.recording, k.ctrl, k.err, k.status,
    hw, k.peak, k.P⟩

include hP

theorem EffOk.ldblk (d b : Nat) (vd : VReg) (ch : Channel) : EffOk H e (ldblkEffect H d b vd ch t) :=
  k.writeVec _ _ _ _ (by omega)
theorem EffOk.fft (d : Nat) (vd va : VReg) : EffOk H e (fftEffect H d vd va t) := k.writeVec _ _ _ _ (by omega)
theorem EffOk.ifft (d : Nat) (vd va : VReg) : EffOk H e (ifftEffect H d vd va t) := k.writeVec _ _ _ _ (by omega)
theorem EffOk.sweep (vd : VReg) (h0 : 2 ≤ t.P) : EffOk H e (sweepEffect H vd t) :=
  k.writeVec _ _ _ _ (by simp only [Engine.P, Engine.NF] at *; omega)
theorem EffOk.mirror (d : Nat) (vd : VReg) (h0 : 2 ≤ t.P) : EffOk H e (mirrorEffect H d vd t) :=
  k.writeVec _ _ _ _ (by simp only [Engine.P, Engine.NF] at *; omega)
theorem EffOk.cdiv (d : Nat) (vd va vb : VReg) : EffOk H e (cdivEffect H d vd va vb t) :=
  ((k.writeVec _ _ _ _ (by omega)).setDegenCnt _).warnDegen _
theorem EffOk.aclr : EffOk H e (aclrEffect H t) :=
  ⟨fun j => by cases j; exacts [k.v .v0, k.v .v1, k.v .v2, k.v .v3], (k.writeAcc t.P (fun _ => H.num.zero) hP).acc, k.res,
    k.recording, k.ctrl, k.err, k.status, k.nBlk, k.peak, k.P⟩
theorem EffOk.accr (d : Nat) (va : VReg) : EffOk H e (accrEffect H d va t) := (k.writeAcc _ _ hP).setAccCnt _
theorem EffOk.avg (d : Nat) : EffOk H e (avgEffect H d t) := (k.writeRes _ _ hP).warnNonFin _
theorem EffOk.realp (d : Nat) (va : VReg) : EffOk H e (realpEffect H d va t) := (k.writeRes _ _ hP).warnNonFin _

theorem EffOk.peakEffect (d : Nat) (h0 : 2 ≤ t.P) : EffOk H e (peakEffect H d t) where
  v j := by cases j; exacts [k.v .v0, k.v .v1, k.v .v2, k.v .v3]
  acc := k.acc
  res := k.res
  recording := k.recording
  ctrl := k.ctrl
  err := k.err
  status := k.status
  nBlk := k.nBlk
  peak := by
    have := peakIndex_lt H.num (readRes H d t) (P := t.P) (by omega)
    have h2 : t.P < 2 ^ 32 := t.period.isLt
    show (BitVec.ofNat 32 _).toNat < _
    rw [BitVec.toNat_ofNat, Nat.mod_eq_of_lt (by omega)]
    omega
  P := k.P
end

/-- One pass of the loop of `ESTIMATE`. -/
theorem EffOk.block (hP : e.P ≤ H.pMax) (k : EffOk H e t) (d b : Nat) : EffOk H e (estimateBlock H d t b) := by
  have hp : ∀ {x}, EffOk H e x → x.P ≤ H.pMax := fun h => by rw [h.P]; exact hP
  have k1 := k.ldblk (hp k) d b .v0 .ch0
  have k2 := k1.ldblk (hp k1) d b .v1 .ch1
  have k3 := k2.fft (hp k2) d .v0 .v0
  have k4 := k3.fft (hp k3) d .v1 .v1
  have k5 := k4.cdiv (hp k4) d .v2 .v1 .v0
  have k6 := k5.ifft (hp k5) d .v2 .v2
  have k7 := k6.accr (hp k6) d .v2
  unfold estimateBlock
  exact k7

theorem EffOk.blocks (hP : e.P ≤ H.pMax) (k : EffOk H e t) (d : Nat) (bs : List Nat) :
    EffOk H e (estimateBlocks H d bs t) := by
  induction bs generalizing t with
  | nil => exact k
  | cons b bs ih =>
    rw [estimateBlocks_cons]
    exact ih (k.block hP d b)

end Sys2Proof.Machine
end

