-- ==== Sys2Proof/Laws/PerInstr.lean ====
section
/-! SUPPORT. Statements about every command as syntax, one lemma per constructor. -/

namespace Sys2Proof.Laws

/-- The word of a command has the pattern of its row under the mask of its format (30_encoding.md R92, R93). -/
def EncodedForm.Statement (i : Instr) : Prop := encode i &&& Decode.mask i.format = Encode.opcode i

theorem EncodedForm.nop : EncodedForm.Statement .nop := by unfold Statement; decide
theorem EncodedForm.ldblk (vd : VReg) (ch : Channel) : EncodedForm.Statement (.ldblk vd ch) := by
  unfold Statement; cases vd <;> cases ch <;> decide
theorem EncodedForm.fft (vd va : VReg) : EncodedForm.Statement (.fft vd va) := by
  unfold Statement; cases vd <;> cases va <;> decide
theorem EncodedForm.ifft (vd va : VReg) : EncodedForm.Statement (.ifft vd va) := by
  unfold Statement; cases vd <;> cases va <;> decide
theorem EncodedForm.sweep (vd : VReg) : EncodedForm.Statement (.sweep vd) := by unfold Statement; cases vd <;> decide
theorem EncodedForm.mirror (vd : VReg) : EncodedForm.Statement (.mirror vd) := by unfold Statement; cases vd <;> decide
theorem EncodedForm.cdiv (vd va vb : VReg) : EncodedForm.Statement (.cdiv vd va vb) := by
  unfold Statement; cases vd <;> cases va <;> cases vb <;> decide
theorem EncodedForm.aclr : EncodedForm.Statement .aclr := by unfold Statement; decide
theorem EncodedForm.accr (va : VReg) : EncodedForm.Statement (.accr va) := by unfold Statement; cases va <;> decide
theorem EncodedForm.avg : EncodedForm.Statement .avg := by unfold Statement; decide
theorem EncodedForm.realp (va : VReg) : EncodedForm.Statement (.realp va) := by unfold Statement; cases va <;> decide
theorem EncodedForm.peak : EncodedForm.Statement .peak := by unfold Statement; decide
theorem EncodedForm.synth : EncodedForm.Statement .synth := by unfold Statement; decide
theorem EncodedForm.estimate : EncodedForm.Statement .estimate := by unfold Statement; decide

end Sys2Proof.Laws
end

