-- ==== Sys2Proof/Laws/Step.lean ====
section
/-! SUPPORT. What a step does to the model's own fields: `exec` and the engine's move always answer a next state with the engine
idle, and a step takes exactly the head off the script (70_reset_and_hazards.md R283, R291). -/

namespace Sys2Proof.Machine

/-- Every command completes: `exec` answers a next state, the engine idle and the model's own fields alone. -/
theorem exec_next (i : Instr) (s : State) :
    ∃ t, exec i s = .next t ∧ t.busy = false ∧ t.script = s.script ∧ t.draws = s.draws ∧ t.reply = s.reply := by
  refine ⟨_, exec_eq_command i s, ?_, rfl, rfl, rfl⟩
  show (command _ _ _ _).busy = false
  rw [command_eq_perform]
  unfold perform
  split <;> simp

/-- The engine's move always answers a next state, idle. -/
theorem engineMove_next (s : State) : ∃ t, engineMove s = .next t ∧ t.busy = false ∧ t.script = s.script := by
  unfold engineMove
  split
  · split
    · obtain ⟨t, h⟩ := exec_next _ s
      exact ⟨t, h.1, h.2.1, h.2.2.1⟩
    · refine ⟨_, rfl, ?_, rfl⟩
      show (raise _ _).busy = _
      simp
  · rename_i h
    exact ⟨s, rfl, by simpa using h, rfl⟩

/-- A step takes the head off the script and schedules nothing. -/
theorem step_script {s t : State} (h : step s = .next t) : t.script = s.script.tail := by
  unfold step at h
  split at h
  · rename_i hs
    split at h
    · obtain ⟨t', h1, _, h2⟩ := engineMove_next { s with draws := s.draws + 1 }
      rw [h1] at h; cases h; rw [h2]; simp [hs]
    · cases h; simp [hs]
  · rename_i rest hs
    obtain ⟨t', h1, _, h2⟩ := engineMove_next { s with script := rest, draws := s.draws + 1 }
    rw [h1] at h; cases h; rw [h2]; simp [hs]
  · rename_i a rest hs
    unfold hostAct at h
    split at h
    · cases h; simp [hs]
    · cases h
  · rename_i a rest hs
    unfold busAct at h
    split at h
    · cases h
    split at h
    · cases h
    split at h
    · cases h; simp [hs]
    · cases h; simp [hs]
  · rename_i rest hs
    cases h; simp [hs]

end Sys2Proof.Machine
end

