-- ==== Sys2Proof/Tests/Slice0.lean ====
section
/-! SUPPORT. Tests, with the expected values of 95_test_vectors.md and 30_encoding.md R97, and for every statement with
hypotheses a witness that meets them. -/

open Sys2Proof Sys2Proof.Machine

namespace Sys2Proof.Tests

-- One proof after another: each `decide +kernel` would else hold a thread of its own.
set_option Elab.async false

/-! ### Legal words (R95), one refused word for each check -/

theorem smoke_opcode : WellFormed.opcodeDefined 0x0000000C#32 = false ∧ WellFormed.legal 0x0000000C#32 = false := by decide
theorem smoke_high_bits : WellFormed.highBitsClear 0x80000000#32 = false ∧ WellFormed.legal 0x80000000#32 = false ∧
    WellFormed.highBitsClear 0x00008011#32 = false ∧ WellFormed.legal 0x00008011#32 = false := by decide
theorem smoke_vd : WellFormed.vdClear 0x00000111#32 = false ∧ WellFormed.legal 0x00000111#32 = false := by decide
theorem smoke_va : WellFormed.vaClear 0x00000404#32 = false ∧ WellFormed.legal 0x00000404#32 = false := by decide
theorem smoke_vb : WellFormed.vbClear 0x00001002#32 = false ∧ WellFormed.legal 0x00001002#32 = false := by decide
theorem smoke_ch : WellFormed.chClear 0x00004006#32 = false ∧ WellFormed.legal 0x00004006#32 = false := by decide
theorem smoke_unused : WellFormed.unusedFieldsClear .z 0x00000100#32 = false ∧
    WellFormed.unusedFieldsClear .a 0x00000108#32 = false ∧ WellFormed.unusedFieldsClear .dc 0x00000401#32 = false := by decide
theorem smoke_legal : WellFormed.legal 0x00003F06#32 = true ∧ WellFormed.legal 0x00004301#32 = true := by decide

/-! ### Decoding: the words of 95_test_vectors.md part 2, one for every constructor -/

theorem decode_nop : decode 0b00000000000000000000000000000000#32 = .ok .nop := by decide
theorem decode_ldblk : decode 0b00000000000000000100001100000001#32 = .ok (.ldblk .v3 .ch1) := by decide
theorem decode_fft : decode 0b00000000000000000000010000000010#32 = .ok (.fft .v0 .v1) := by decide
theorem decode_ifft : decode 0b00000000000000000000101000000011#32 = .ok (.ifft .v2 .v2) := by decide
theorem decode_sweep : decode 0b00000000000000000000001100000100#32 = .ok (.sweep .v3) := by decide
theorem decode_mirror : decode 0b00000000000000000000001100000101#32 = .ok (.mirror .v3) := by decide
theorem decode_cdiv : decode 0b00000000000000000000011000000110#32 = .ok (.cdiv .v2 .v1 .v0) := by decide
theorem decode_aclr : decode 0b00000000000000000000000000000111#32 = .ok .aclr := by decide
theorem decode_accr : decode 0b00000000000000000000100000001000#32 = .ok (.accr .v2) := by decide
theorem decode_avg : decode 0b00000000000000000000000000001001#32 = .ok .avg := by decide
theorem decode_realp : decode 0b00000000000000000000110000001010#32 = .ok (.realp .v3) := by decide
theorem decode_peak : decode 0b00000000000000000000000000001011#32 = .ok .peak := by decide
theorem decode_synth : decode 0b00000000000000000000000000010000#32 = .ok .synth := by decide
theorem decode_estimate : decode 0b00000000000000000000000000010001#32 = .ok .estimate := by decide
theorem decode_illegal : decode 0x000000FF#32 = .error .undefinedOpcode ∧ decode 0x00004002#32 = .error .strayBits := by decide
theorem table_word : decodeTableWord 32 0x00004101 = some (.ldblk .v1 .ch1) ∧ decodeTableWord 32 0x0000000C = none := by decide

/-! ### A rational instance: phases in turns, exact transforms for `P` a divisor of 4 -/

def quarter : Nat → Cx ℚ
  | 0 => ⟨1, 0⟩
  | 1 => ⟨0, 1⟩
  | 2 => ⟨-1, 0⟩
  | _ => ⟨0, -1⟩

def mulC (a b : Cx ℚ) : Cx ℚ := ⟨a.re * b.re - a.im * b.im, a.re * b.im + a.im * b.re⟩

def sumC (N s : Nat) (x : List (Cx ℚ)) (k : Nat) : Cx ℚ :=
  (List.range N).foldl (fun a n =>
    let y := mulC (x.getD n ⟨0, 0⟩) (quarter (s * n * k * (4 / N) % 4))
    ⟨a.re + y.re, a.im + y.im⟩) ⟨0, 0⟩

def turn (t : ℚ) (a b c d : ℚ) : ℚ :=
  let q := t - ⌊t⌋
  if q = 0 then a else if q = 1 / 4 then b else if q = 1 / 2 then c else d

def ratNum : Numerics ℚ where
  zero := 0
  one := 1
  twoPi := 1
  ofNat n := n
  ofInt i := i
  ofF32 w := f32val w
  add x y := x + y
  sub x y := x - y
  mul x y := x * y
  div x y := x / y
  neg x := -x
  abs x := |x|
  lt x y := decide (x < y)
  isFinite _ := true
  ceilInt x := ⌈x⌉
  cos t := turn t 1 0 (-1) 0
  sin t := turn t 0 1 0 (-1)
  dft N x k := sumC N 3 x k
  idft N X n := mulC ⟨1 / N, 0⟩ (sumC N 1 X n)
  cdiv a z := ⟨(a.re * z.re + a.im * z.im) / (z.re * z.re + z.im * z.im),
    (a.im * z.re - a.re * z.im) / (z.re * z.re + z.im * z.im)⟩
  ew := 1
  enc _ := 0
  dec _ := 0

def ratH : Params ℚ where
  pMax := 16
  recCap := 32
  num := ratNum
  map := AddressMap.standard 1 16
  free := { byte := fun _ _ => 0xAA, cx := fun _ _ _ _ => ⟨7, 7⟩, num := fun _ _ _ => 7, word := fun _ => 7 }

/-- A listed buffer from index 0. -/
def buf {α : Type} (l : List α) : List (Nat × α) := (List.range l.length).zip l

/-- `P = 4`, `SRATE = 8`. -/
def e4 : Engine ℚ := { Engine.reset (0 : ℚ) with period := 4, sRate := 8 }

/-- The recording of part 5, with `M = 18`. -/
def rec18 : Engine ℚ :=
  [(8, 0x3F800000#32, 0x00000000#32), (9, 0, 0), (10, 0, 0), (11, 0, 0x40400000#32), (12, 0x40000000#32, 0x3F800000#32),
    (13, 0x3F800000#32, 0), (14, 0, 0), (15, 0, 0x40000000#32)].foldl
    (fun e p => memWrite (8 * p.1 + 4) p.2.2 (memWrite (8 * p.1) p.2.1 e)) { e4 with recLen := 18 }

/-- The recording of vector T2. -/
def rec12 : Engine ℚ :=
  [(8, 0x3F800000#32, 0x00000000#32), (9, 0x3F800000#32, 0x3F800000#32), (10, 0, 0x3F800000#32), (11, 0, 0)].foldl
    (fun e p => memWrite (8 * p.1 + 4) p.2.2 (memWrite (8 * p.1) p.2.1 e)) { e4 with recLen := 12 }

abbrev run (i : Instr) (e : Engine ℚ) : Engine ℚ := command ratH 0 i e

theorem test_ldblk : (run (.ldblk .v1 .ch1) { rec18 with blk := 1 }).v1 = buf [⟨1, 0⟩, ⟨0, 0⟩, ⟨0, 0⟩, ⟨2, 0⟩] := by
  decide +kernel
theorem test_ldblk_beyond : (run (.ldblk .v1 .ch1) { rec18 with blk := 0xFFFFFFFF }).err = 2 ∧
    (run (.ldblk .v1 .ch1) { rec18 with recLen := 33, blk := 0xFFFFFFFF }).err = 1 := by decide +kernel
theorem test_fft : (run (.fft .v1 .v0) { e4 with v0 := buf [⟨0, 0⟩, ⟨1, 0⟩, ⟨0, 0⟩, ⟨0, 0⟩] }).v1 =
    buf [⟨1, 0⟩, ⟨0, -1⟩, ⟨-1, 0⟩, ⟨0, 1⟩] := by decide +kernel
theorem test_fft_in_place : (run (.fft .v0 .v0) { e4 with v0 := buf [⟨1, 0⟩, ⟨0, 0⟩, ⟨0, 0⟩, ⟨2, 0⟩, ⟨9, 9⟩] }).v0 =
    buf [⟨3, 0⟩, ⟨1, 2⟩, ⟨-1, 0⟩, ⟨1, -2⟩, ⟨9, 9⟩] := by decide +kernel
theorem test_ifft : (run (.ifft .v1 .v0) { e4 with v0 := buf [⟨1, 0⟩, ⟨0, -1⟩, ⟨0, 0⟩, ⟨0, 1⟩] }).v1 =
    buf [⟨1 / 4, 0⟩, ⟨3 / 4, 0⟩, ⟨1 / 4, 0⟩, ⟨-1 / 4, 0⟩] := by decide +kernel
/-- `P = 8`, `d = 1/2`: bins 0, 2 and 4 are `1`, `-i` and `1`; `NF + 1` bins are written. -/
theorem test_sweep : let v := (run (.sweep .v2) { e4 with period := 8, duty := 0x3F000000 }).v2
    lookup 0 v = some ⟨1, 0⟩ ∧ lookup 2 v = some ⟨0, -1⟩ ∧ lookup 4 v = some ⟨1, 0⟩ ∧ lookup 5 v = none := by decide +kernel
/-- `P = 8`, `d = 3/4`: the phases in turns. -/
theorem test_sweep_phase : (List.range 5).map (sweepPhase ratNum 8 (3 / 4)) = [0, 7 / 32, 5 / 8, 39 / 32, 2] := by decide +kernel
theorem test_mirror : (run (.mirror .v2) { e4 with v2 := buf [⟨1, 0⟩, ⟨2, 3⟩, ⟨5, 0⟩, ⟨8, 8⟩] }).v2 =
    buf [⟨1, 0⟩, ⟨2, 3⟩, ⟨5, 0⟩, ⟨2, -3⟩] := by decide +kernel
theorem test_realp : (run (.realp .v3) { e4 with period := 2, v3 := buf [⟨1, 7⟩, ⟨-2, -1⟩] }).res = buf [1, -2] := by decide +kernel
theorem test_cdiv_floor : let t := run (.cdiv .v2 .v1 .v0) { e4 with
      divFloor := 0x3F800000, v1 := buf [⟨4, 0⟩, ⟨4, 0⟩, ⟨4, 0⟩, ⟨4, 0⟩], v0 := buf [⟨1, 0⟩, ⟨1 / 2, 0⟩, ⟨0, 1⟩, ⟨3 / 5, 4 / 5⟩] }
    t.v2 = buf [⟨4, 0⟩, ⟨0, 0⟩, ⟨0, -4⟩, ⟨12 / 5, -16 / 5⟩] ∧ t.degenCnt = 1 ∧ t.status = 0xA := by decide +kernel
theorem test_cdiv_saturates : (run (.cdiv .v0 .v0 .v0) { e4 with
      degenCnt := 0xFFFFFFFE, v0 := buf [⟨0, 0⟩, ⟨0, 0⟩, ⟨0, 0⟩, ⟨0, 0⟩] }).degenCnt = 0xFFFFFFFF := by decide +kernel
theorem test_aclr : let t := run .aclr { e4 with accCnt := 5, degenCnt := 6, status := 9, acc := buf [1, 2, 3, 4, 5] }
    t.acc = buf [0, 0, 0, 0, 5] ∧ t.accCnt = 0 ∧ t.degenCnt = 0 ∧ t.status = 0xA := by decide +kernel
theorem test_accr : let t := run (.accr .v2) { e4 with
      acc := buf [0, 0, 0, 3], accCnt := 1, v2 := buf [⟨0, 9⟩, ⟨0, 0⟩, ⟨0, 0⟩, ⟨1, 0⟩] }
    t.acc = buf [0, 0, 0, 4] ∧ t.accCnt = 2 := by decide +kernel
theorem test_accr_full : let t := run (.accr .v2) { e4 with accCnt := 0xFFFFFFFF }
    t.err = 3 ∧ t.acc = [] ∧ t.accCnt = 0xFFFFFFFF := by decide +kernel
theorem test_avg : (run .avg { e4 with acc := buf [3, 0, 0, 3], accCnt := 3 }).res = buf [1, 0, 0, 1] := by decide +kernel
theorem test_avg_empty : let t := run .avg { e4 with acc := buf [3, 0, 0, 3] }
    t.err = 2 ∧ t.res = [] := by decide +kernel
theorem test_peak : let t := run .peak { e4 with res := buf [0, -5, 5, 1] }
    t.peakIdx = 1 ∧ t.delayMs = 125 := by decide +kernel
theorem test_peak_tie : let t := run .peak { e4 with res := buf [1, 0, -1, 0], peakIdx := 3 }
    t.peakIdx = 0 ∧ t.delayMs = 0 := by decide +kernel
theorem test_synth : let t := run .synth { e4 with period := 2, duty := 0x00000001 }
    t.res = buf [1, 0] ∧ t.v0 = buf [⟨1, 0⟩, ⟨0, 0⟩] ∧ t.status = 2 := by decide +kernel
theorem test_synth_duty : (run .synth { e4 with duty := 0x3F800000 }).err = 1 ∧ (run .synth { e4 with duty := 0x80000000 }).err = 1 ∧
    (run .synth { e4 with duty := 0x7FC00000 }).err = 1 := by decide +kernel
/-- Vector T3. -/
theorem test_estimate : let t := run .estimate rec18
    t.res = buf [0, 0, 0, 2] ∧ t.acc = buf [0, 0, 0, 4] ∧ t.nBlk = 2 ∧ t.accCnt = 2 ∧ t.degenCnt = 0 ∧ t.peakIdx = 3 ∧
    t.delayMs = 375 ∧ t.status = 2 ∧ t.v0 = buf [⟨3, 0⟩, ⟨2, -1⟩, ⟨1, 0⟩, ⟨2, 1⟩] ∧
    t.v1 = buf [⟨3, 0⟩, ⟨1, 2⟩, ⟨-1, 0⟩, ⟨1, -2⟩] ∧ t.v2 = buf [⟨0, 0⟩, ⟨0, 0⟩, ⟨0, 0⟩, ⟨1, 0⟩] := by decide +kernel
/-- Vector T2. -/
theorem test_estimate_degenerate : let t := run .estimate rec12
    t.res = buf [1 / 4, 3 / 4, 1 / 4, -1 / 4] ∧ t.degenCnt = 1 ∧ t.peakIdx = 1 ∧ t.delayMs = 125 ∧ t.status = 0xA := by decide +kernel

/-- `numBlocks` of part 5. -/
theorem test_num_blocks : numBlocks 7 4 = 0 ∧ numBlocks 11 4 = 0 ∧ numBlocks 12 4 = 1 ∧ numBlocks 15 4 = 1 ∧
    numBlocks 16 4 = 2 ∧ numBlocks 5220 1024 = 3 ∧ numBlocks 3071 1024 = 0 := by decide

/-! ### `NUM_B64` -/

def lib : B64Library where
  cos x := x
  sin x := x
  dft _ x k := x.getD k ⟨0, 0⟩
  idft _ x k := x.getD k ⟨0, 0⟩
  cdiv a _ := a
  nanSign := false
  nanPayload := 0#51
  ceilNonFinite _ := 0

/-- Infinity less infinity, zero by zero, and the conversion of a binary32 NaN are NaNs; an infinity converts to one. -/
theorem test_nan_b64 : let N := b64Num lib
    B64.isNaN (N.sub (B64.inf false) (B64.inf false)) = true ∧ B64.isNaN (N.div 0#64 0#64) = true ∧
      B64.isNaN (N.ofF32 0x7F800001#32) = true ∧ N.ofF32 0xFF800000#32 = B64.inf true := by decide +kernel
/-- `RES = [NaN, 1, 2, 0]` gives 0; `[1, NaN, 2, 0]` gives 2; `[1, +infinity, 2, -infinity]` gives 1 (part 8). -/
theorem test_peak_nan :
    let one := 0x3FF0000000000000#64
    let two := 0x4000000000000000#64
    let nan := 0x7FF8000000000000#64
    peakIndex (b64Num lib) (fun n => [nan, one, two, 0#64].getD n 0) 4 = 0 ∧
    peakIndex (b64Num lib) (fun n => [one, nan, two, 0#64].getD n 0) 4 = 2 ∧
    peakIndex (b64Num lib) (fun n => [one, 0x7FF0000000000000#64, two, 0xFFF0000000000000#64].getD n 0) 4 = 1 := by
  decide +kernel
/-- `37000/44100` is the datum nearest `0.8390022675736961` (E1). -/
theorem test_delay_b64 : delayOf (b64Num lib) 37 44100 = 0x3FEAD91B488FF6B6#64 := by decide +kernel
/-- `P = 1024`, `d = 1/2`: `rawAlpha = 128` and `alpha = 0` exactly (part 4). -/
theorem test_sweep_b64 : sweepRawAlpha (b64Num lib) 1024 ((b64Num lib).ofF32 0x3F000000#32) = 128 ∧
    sweepAlpha (b64Num lib) 1024 ((b64Num lib).ofF32 0x3F000000#32) = 0#64 := by decide +kernel

/-! ### One step of the machine -/

/-- The next state of a step meets `p`. -/
def next (o : Host.Outcome State Fault Refusal) (p : State → Bool) : Bool :=
  match o with
  | .next t => p t
  | _ => false

/-- `NOP` after reset: `STATUS` reads 1 between issue and completion, and 2 after (part 9). -/
theorem test_nop : (State.reset.withFetchWord 32 0x00000000).status = 1#32 ∧
    next (step (State.reset.withFetchWord 32 0x00000000)) (fun t => t.status == 2#32 && t.err == 0#32) = true := by decide
/-- `ESTIMATE` with nothing configured (program P4, step 1). -/
theorem test_estimate_unconfigured :
    next (step (State.reset.withFetchWord 32 0x00000011))
      (fun t => t.err == 1#32 && t.errCmd == 0x11#32 && t.status == 0#32) = true := by decide
/-- An illegal word (program P4, step 6). -/
theorem test_illegal_word :
    next (step (State.reset.withFetchWord 32 0x00000111))
      (fun t => t.err == 3#32 && t.errCmd == 0x111#32 && t.status == 0#32) = true := by decide
/-- A command issued while a fault is outstanding is dropped (program P4, step 2). -/
theorem test_dropped :
    next (step { State.reset with err := 1#32, script := [.host (.writeCsr .cmd 0#32)] })
      (fun t => t.status == 4#32 && t.err == 1#32) = true := by decide
/-- `0x7FFFFFFF` written to `CTRL` leaves 3 (part 9). -/
theorem test_ctrl :
    next (step { State.reset with script := [.host (.writeCsr .ctrl 0x7FFFFFFF#32)] }) (fun t => t.ctrl == 3#32) = true := by decide
/-- `STATUS` is write 1 to clear (part 9). -/
theorem test_w1c :
    next (step { State.reset with status := 2#32, script := [.host (.writeCsr .status 2#32)] })
      (fun t => t.status == 0#32) = true := by decide

/-! ### The words a program is, as bus writes (R99) -/

/-- Lines of program P1. -/
theorem test_program_writes : programWrites (AddressMap.standard 1 16)
    [.wr .period 4, .wr .duty 0x3F000000, .cmd .synth, .rd .err] =
      [(0x14, 4), (0x18, 0x3F000000), (0x10, 0x10)] := by decide

/-! ### Witnesses: states that meet the hypotheses of the statements -/

/-- Every parameter valid: `P = 2`, one block, the least valid `DUTY` and `SRATE`, `DIV_FLOOR = 0`. -/
def good : State := { State.reset with period := 2#32, duty := 1#32, sRate := 1#32, recLen := 6#32, accCnt := 1#32 }

theorem good_period : PeriodOk Config.params good.toEngine := ⟨by decide, by decide, Config.pMax_ge⟩
theorem good_duty : DutyOk good.toEngine := (dutyValid_iff _).1 (by decide +kernel)
theorem good_sRate : SRateOk good.toEngine := Nat.le_refl 1
/-- `REC_LEN = 6` fits wherever `REC_CAP` is at least 6: where it is not, no recording is sufficient (R7, R160). -/
theorem good_recLen (h : 6 ≤ Config.recCap) : RecLenOk Config.params good.toEngine := h
theorem good_divFloor : DivFloorOk good.toEngine := (divFloorValid_iff _).1 (by decide +kernel)
theorem good_sufficient : Sufficient good.toEngine := by unfold Sufficient; decide

/-- The largest period is valid too. -/
theorem witness_period_max : PeriodOk Config.params { good.toEngine with period := BitVec.ofNat 32 Config.pMax } := by
  have h1 := Config.pMax_ge
  have h2 := Config.pMax_le
  have h3 := Config.pMax_even
  have h : (BitVec.ofNat 32 Config.pMax).toNat = Config.pMax := by rw [BitVec.toNat_ofNat, Nat.mod_eq_of_lt (by omega)]
  refine ⟨?_, ?_, ?_⟩ <;> simp only [Engine.P, h]
  · exact h1
  · exact h3
  · exact Nat.le_refl _

theorem witness_EncodeOfDecode : decode 0x00000606#32 = .ok (.cdiv .v2 .v1 .v0) := by decide
theorem witness_StepRunsDecodedCommand :
    let s := State.reset.withFetchWord 32 0x11
    s.script = [.engine] ∧ s.busy = true ∧ decode s.cmdLatch = .ok .estimate := by decide
theorem witness_StepRunsDecodedCommand_unscheduled :
    let s := { State.reset with status := 1#32 }
    s.script = [] ∧ s.busy = true ∧ decode s.cmdLatch = .ok .nop := by decide
theorem witness_IdleEngineStays :
    State.reset.busy = false ∧ State.reset.script = [] ∧ ({ State.reset with script := [.engine] } : State).busy = false := by decide
theorem witness_AcceptedCommandCompletes :
    let s := { State.reset with script := [.host (.writeCsr .cmd 0#32)] }
    ∃ t, runSteps (s.script.length + 1) s = some t := ⟨_, rfl⟩
theorem witness_ResetValues : ({ good with status := 1#32, script := [.rst] } : State).script = [.rst] ∧
    ∃ t, step { good with status := 1#32, script := [.rst] } = .next t := ⟨rfl, _, rfl⟩
theorem witness_StepKeepsInvariant :
    Inv Config.params (State.reset.withFetchWord 32 0x11).toEngine ∧ ∃ t, step (State.reset.withFetchWord 32 0x11) = .next t := by
  refine ⟨⟨fun j => by cases j <;> exact bufferOk_nil _, bufferOk_nil _, bufferOk_nil _, bufferOk_nil _, ?_, ?_, ?_, ?_, ?_, ?_, ?_⟩, ?_⟩
  · intro n _; show (0#32).getLsbD n = false; simp
  · intro n hn
    show (accept _ State.reset.toEngine).status.getLsbD n = false
    rw [accept_status, getLsbD_withBit, getLsbD_withBit, if_neg (by omega), if_neg (by omega)]
    show (0#32).getLsbD n = false
    simp
  · exact Nat.zero_le _
  · intro _; exact ⟨by decide, rfl⟩
  · intro _; rfl
  · exact Nat.zero_le _
  · have := Config.pMax_ge; show 0 < Config.pMax; omega
  · exact ⟨_, rfl⟩
theorem witness_FaultTable :
    faultOf Config.params State.reset.toEngine .peak = some .invalidParameter ∧
    faultOf Config.params State.reset.toEngine .nop = none ∧
    (let s := { State.reset with status := 1#32, cmdLatch := 0x111#32 };
      s.script = [] ∧ s.busy = true ∧ WellFormed.legal s.cmdLatch = false) ∧
    (let s := State.reset.withFetchWord 32 0x111;
      s.script = [.engine] ∧ s.busy = true ∧ WellFormed.legal s.cmdLatch = false) := by decide
theorem witness_MacroStepsCannotFault :
    faultOf ratH { rec18 with duty := 1#32 } .synth = none ∧ faultOf ratH rec18 .estimate = none ∧ 1 < rec18.blocks := by
  decide +kernel
theorem witness_LdblkLoadsBlock :
    (PeriodOk ratH rec18 ∧ RecLenOk ratH rec18 ∧ rec18.blk.toNat < numBlocks rec18.recLen.toNat rec18.P) ∧
    ¬PeriodOk ratH (Engine.reset 0) ∧ ¬RecLenOk ratH { rec18 with recLen := 33#32 } ∧
    numBlocks rec18.recLen.toNat rec18.P ≤ ({ rec18 with blk := 2#32 } : Engine ℚ).blk.toNat := by
  refine ⟨⟨⟨by decide +kernel, by decide +kernel, by decide +kernel⟩, ?_, by decide +kernel⟩,
    fun h => absurd h.1 (by decide), ?_, by decide +kernel⟩
  · unfold RecLenOk; decide +kernel
  · unfold RecLenOk; decide +kernel
theorem witness_commands : PeriodOk Config.params good.toEngine ∧ DutyOk good.toEngine ∧ SRateOk good.toEngine ∧
    DivFloorOk good.toEngine ∧ good.accCnt ≠ 0xFFFFFFFF#32 ∧ good.accCnt ≠ 0#32 ∧ ¬PeriodOk Config.params State.reset.toEngine :=
  ⟨good_period, good_duty, good_sRate, good_divFloor, by decide, by decide, fun h => absurd h.1 (by decide)⟩
theorem witness_DutyOk_greatest : DutyOk { good.toEngine with duty := 0x3F7FFFFF#32 } :=
  (dutyValid_iff _).1 (by decide +kernel)
theorem witness_DivFloorOk_minus_zero : DivFloorOk { good.toEngine with divFloor := 0x80000000#32 } :=
  (divFloorValid_iff _).1 (by decide +kernel)
theorem witness_AccrAccumulates_full : PeriodOk Config.params ({ good with accCnt := 0xFFFFFFFF#32 } : State).toEngine := good_period
theorem witness_AvgTakesMean_empty : PeriodOk Config.params ({ good with accCnt := 0#32 } : State).toEngine := good_period
theorem rec12_ok : EstimateOk ratH rec12 := by
  refine ⟨⟨by decide +kernel, by decide +kernel, by decide +kernel⟩, ?_, ?_, (divFloorValid_iff _).1 (by decide +kernel), ?_⟩
  · unfold SRateOk; decide +kernel
  · unfold RecLenOk; decide +kernel
  · unfold Sufficient; decide +kernel
theorem witness_EstimateIsDelayEstimate : EstimateOk ratH rec12 ∧ ¬PeriodOk ratH (Engine.reset 0) ∧
    ¬Sufficient { rec12 with recLen := 11#32 } :=
  ⟨rec12_ok, fun h => absurd h.1 (by decide), by unfold Sufficient; decide +kernel⟩
/-- On the machine itself the same holds of a state wherever `REC_CAP` has room for a block. -/
theorem witness_estimate_machine (h : 6 ≤ Config.recCap) : EstimateOk Config.params good.toEngine ∧
    good.blk.toNat < numBlocks good.recLen.toNat good.P :=
  ⟨⟨good_period, good_sRate, good_recLen h, good_divFloor, good_sufficient⟩, by decide⟩
theorem witness_CommandFrame : ∃ t, exec .peak good = .next t := ⟨_, rfl⟩
theorem witness_CommandReadsOnlyItsReadSet :
    let e1 := { e4 with blk := 1#32 }
    (∀ p, mayRead e1 .aclr p = true → SamePiece e1 { e1 with blk := 2#32 } p) ∧ faultOf ratH e1 .aclr = none := by
  refine ⟨fun p hp => ?_, by decide +kernel⟩
  cases p with
  | csr i => cases i <;> first | rfl | exact absurd hp (by decide)
  | delayMs => rfl
  | vec j k => cases j <;> rfl
  | acc n => rfl
  | res n => rfl
  | byte a => rfl
theorem witness_EngineIsDeterministic :
    let e := { e4 with period := 2#32, v3 := buf [⟨1, 7⟩, ⟨-2, -1⟩] }
    (∀ p, mayRead e (.realp .v3) p = true → Held e p ∧ SamePiece e { e with blk := 2#32 } p) ∧
      faultOf ratH e (.realp .v3) = none := by
  refine ⟨fun p hp => ?_, by decide +kernel⟩
  cases p with
  | csr i => cases i <;> first | exact ⟨trivial, rfl⟩ | exact absurd hp (by decide)
  | delayMs => exact ⟨trivial, rfl⟩
  | vec j k =>
    cases j
    case v3 =>
      have hk : k < 2 := by simpa [mayRead, within, Engine.P] using hp
      interval_cases k <;> exact ⟨rfl, rfl⟩
    all_goals exact absurd hp (by simp [mayRead])
  | acc n => exact absurd hp (by simp [mayRead])
  | res n => exact absurd hp (by simp [mayRead])
  | byte a => exact absurd hp (by simp [mayRead])
theorem witness_Binary32Value :
    (0x00800000#32).extractLsb' 23 8 = 1#8 ∧ (0x7F7FFFFF#32).extractLsb' 23 8 = 254#8 ∧ (0x00000001#32).extractLsb' 23 8 = 0#8 := by
  decide
theorem witness_BlockGeometry : 3 < 2 * 2 ∧ 2 * 2 ≤ 4 ∧ 0 < numBlocks 6 2 := by decide
theorem witness_CmdWriteAcceptedOrDropped :
    let s := { State.reset with script := [.host (.writeCsr .cmd 0x10#32)] }
    s.busy = false ∧ s.code = 0 ∧ ({ s with status := 1#32 } : State).busy = true ∧ ({ s with err := 3#32 } : State).code ≠ 0 := by
  decide
theorem witness_BusyWritesDropped :
    let s := { State.reset with status := 1#32, script := [.host (.writeCsr .divFloor 1#32)] }
    s.busy = true ∧ actionExists Config.params (.writeCsr .divFloor 1#32) = true := by decide
theorem witness_BusyWritesDropped_element : actionExists Config.params (.writeV .v3 (Config.pMax - 1) (zeroCx Config.num)) = true ∧
    actionExists Config.params (.writeRec (Config.recCap - 1) .ch1 0#32) = true := by
  have h1 := Config.pMax_ge
  have h2 := Config.recCap_ge
  simp only [actionExists, decide_eq_true_eq]
  exact ⟨by show Config.pMax - 1 < Config.pMax; omega, by show Config.recCap - 1 < Config.recCap; omega⟩
theorem witness_IdleWritesTakeEffect :
    let s := { State.reset with script := [.host (.writeCsr .period 4#32)] }
    s.busy = false ∧ Config.pMax - 1 < Config.pMax ∧ Config.recCap - 1 < Config.recCap := by
  have h1 := Config.pMax_ge
  have h2 := Config.recCap_ge
  exact ⟨by decide, by omega, by omega⟩
theorem witness_ControlWrites : (0x7FFFFFFF#32).getLsbD 31 = false := by decide
theorem witness_SoftReset :
    (0x80000000#32).getLsbD 31 = true ∧
    (let s := { State.reset with status := 1#32, cmdLatch := 0x11#32 };
      s.busy = true ∧ decode s.cmdLatch = .ok .estimate) ∧
    (let s := { State.reset with status := 1#32, cmdLatch := 0xC#32 };
      s.busy = true ∧ WellFormed.legal s.cmdLatch = false) := by decide
theorem witness_CsrReads :
    let s := { State.reset with status := 1#32, script := [.host (.readCsr .period)] }
    s.busy = true ∧ ¬(Slot.period = .nBlk ∨ Slot.period = .accCnt ∨ Slot.period = .degenCnt ∨ Slot.period = .peakIdx) := by decide
theorem witness_ElementReads :
    let s := { State.reset with v1 := [(0, zeroCx Config.num)], acc := [(0, Config.num.zero)], res := [(0, Config.num.one)] }
    s.busy = false ∧ lookup 0 (s.vreg .v1) = some (zeroCx Config.num) ∧ lookup 0 s.acc = some Config.num.zero ∧
      lookup 0 s.res = some Config.num.one ∧ 0 < Config.pMax := by
  have h1 := Config.pMax_ge
  exact ⟨by decide, rfl, rfl, rfl, by omega⟩
theorem witness_ElementReads_sample :
    let m : List Host.Cell := [(4, 1#8), (5, 2#8), (6, 3#8), (7, 4#8)]
    0 < Config.recCap ∧ lookup (sampleAddr 0 .ch1) m = some 1#8 ∧ lookup (sampleAddr 0 .ch1 + 1) m = some 2#8 ∧
      lookup (sampleAddr 0 .ch1 + 2) m = some 3#8 ∧ lookup (sampleAddr 0 .ch1 + 3) m = some 4#8 := by
  have h2 := Config.recCap_ge
  exact ⟨by omega, by decide, by decide, by decide, by decide⟩
theorem witness_NoSuchElementStops :
    ({ State.reset with script := [.host (.readAcc Config.pMax)] } : State).script = [.host (.readAcc Config.pMax)] ∧
    Config.pMax ≤ Config.pMax ∧ Config.recCap ≤ Config.recCap := ⟨rfl, Nat.le_refl _, Nat.le_refl _⟩
theorem witness_BusyHostActionsUnseen : ({ e4 with status := 1#32 } : Engine ℚ).busy = true ∧
    (∀ w, (HostAction.writeCsr .ctrl 3#32 : HostAction ℚ) = .writeCsr .ctrl w → w.getLsbD 31 = false) :=
  ⟨by decide +kernel, fun w h => by cases h; decide⟩
theorem witness_BusReachesRegistersAndRecording :
    Config.recCap - 1 < Config.recCap ∧ State.reset.busy = false ∧ ({ State.reset with status := 1#32 } : State).busy = true := by
  have h2 := Config.recCap_ge
  exact ⟨by omega, by decide, by decide⟩
/-- The last word of the last element of every window, written and not; `readV` of a written element is it. -/
theorem witness_WindowWriteSplicesImage :
    let s := { State.reset with
      res := [(Config.pMax - 1, Config.num.one)], v2 := [(Config.pMax - 1, ⟨Config.num.one, Config.num.zero⟩)] }
    Config.pMax - 1 < Config.pMax ∧ Config.ew - 1 < Config.ew ∧ s.busy = false ∧
      readRes Config.params 1 s.toEngine (Config.pMax - 1) = Config.num.one ∧
      readV Config.params 1 .host s.toEngine .v2 (Config.pMax - 1) = ⟨Config.num.one, Config.num.zero⟩ ∧
      ({ s with status := 1#32 } : State).busy = true := by
  have h1 := Config.pMax_ge
  have h2 := Config.ew_pos
  refine ⟨by omega, by omega, by decide, ?_, ?_, by decide⟩
  · simp [readRes, lookup]
  · simp [readV, lookup, Engine.vreg]
/-- On a map with the default offsets every offset from 0x40 + 4*EW to 0x0FFC is a hole. -/
theorem witness_WindowReadsAndHoles :
    ∀ r ∈ (AddressMap.standard 2 16).rows 2 16 32, ¬(r.1 ≤ 0x0FFC ∧ 0x0FFC < r.1 + r.2) := by decide
/-- On the machine's own map, some aligned offset is a hole: the rows are finitely many. -/
theorem witness_hole : ∃ o, o % 4 = 0 ∧
    ∀ r ∈ Config.map.rows Config.ew Config.pMax Config.recCap, ¬(r.1 ≤ o ∧ o < r.1 + r.2) := by
  refine ⟨4 * ((Config.map.rows Config.ew Config.pMax Config.recCap).map fun r => r.1 + r.2).sum, by omega, fun r hr h => ?_⟩
  have := List.single_le_sum (l := (Config.map.rows Config.ew Config.pMax Config.recCap).map fun r => r.1 + r.2)
    (by simp) (r.1 + r.2) (List.mem_map.2 ⟨r, hr, rfl⟩)
  omega
theorem witness_UnsupportedAccessRefused : (⟨0, 2, none⟩ : BusAccess).bytes ≠ 4 ∧ (⟨2, 4, none⟩ : BusAccess).addr % 4 ≠ 0 := by decide
theorem witness_CdivResultsFinite : ratH.num.isFinite ratH.num.zero = true ∧ PeriodOk ratH e4 ∧ DivFloorOk e4 :=
  ⟨rfl, ⟨by decide +kernel, by decide +kernel, by decide +kernel⟩, (divFloorValid_iff _).1 (by decide +kernel)⟩
theorem witness_DegenerateBinSafety : EstimateOk ratH rec12 ∧ 2 < rec12.P ∧
    ∀ b < rec12.blocks, degenerate ratH.num (ratH.num.ofF32 rec12.divFloor) (blockBin ratH 0 rec12 b .ch0 2) = true :=
  ⟨rec12_ok, by decide +kernel, by decide +kernel⟩
theorem witness_PeakIgnoresNaN : B64.isNaN 0x7FF8000000000000#64 = true ∧ B64.isNaN 0x3FF0000000000000#64 = false := by decide

/-! ### Witnesses in `NUM_EXACT` -/

noncomputable def exactH : Params ℝ where
  pMax := 16
  recCap := 32
  num := exactNum (fun _ => 0)
  map := AddressMap.standard 1 16
  free := { byte := fun _ _ => 0, cx := fun _ _ _ _ => ⟨0, 0⟩, num := fun _ _ _ => 0, word := fun _ => 0 }

theorem exactH_exact : IsExact exactH := ⟨_, rfl⟩

/-- `P = 2`; channel 0 is `1, 0` and channel 1 is `0, w`: the reference shifted by 1, with the gain `w` denotes. -/
noncomputable def shifted (w : Word) : Engine ℝ :=
  memWrite 44 w (memWrite 40 0#32 (memWrite 36 0#32 (memWrite 32 0x3F800000#32
    { Engine.reset (0 : ℝ) with period := 2#32, duty := 1#32, sRate := 1#32, recLen := 6#32 })))

theorem shifted_words (w : Word) : memRead exactH 0 (shifted w) 32 = 0x3F800000#32 ∧ memRead exactH 0 (shifted w) 36 = 0#32 ∧
    memRead exactH 0 (shifted w) 40 = 0#32 ∧ memRead exactH 0 (shifted w) 44 = w := by
  refine ⟨?_, ?_, ?_, ?_⟩
  · rw [shifted, memRead_memWrite_of_ne _ _ _ _ _ _ (by omega), memRead_memWrite_of_ne _ _ _ _ _ _ (by omega),
      memRead_memWrite_of_ne _ _ _ _ _ _ (by omega), memRead_memWrite]
  · rw [shifted, memRead_memWrite_of_ne _ _ _ _ _ _ (by omega), memRead_memWrite_of_ne _ _ _ _ _ _ (by omega), memRead_memWrite]
  · rw [shifted, memRead_memWrite_of_ne _ _ _ _ _ _ (by omega), memRead_memWrite]
  · rw [shifted, memRead_memWrite]

theorem f32val_one : f32val 0x3F800000#32 = 1 := by decide +kernel
theorem f32val_two : f32val 0x40000000#32 = 2 := by decide +kernel
theorem f32val_zero : f32val 0#32 = 0 := by decide +kernel

theorem shifted_samples (w : Word) :
    blockSample exactH 0 (shifted w) 0 .ch0 0 = 1 ∧ blockSample exactH 0 (shifted w) 0 .ch0 1 = 0 ∧
    blockSample exactH 0 (shifted w) 0 .ch1 0 = 0 ∧ blockSample exactH 0 (shifted w) 0 .ch1 1 = exactH.num.ofF32 w := by
  obtain ⟨h0, h1, h2, h3⟩ := shifted_words w
  refine ⟨?_, ?_, ?_, ?_⟩
  · show exactH.num.ofF32 (memRead exactH 0 (shifted w) 32) = 1
    rw [h0, exactH, exactNum_ofF32 _ (by decide), f32val_one, Rat.cast_one]
  · show exactH.num.ofF32 (memRead exactH 0 (shifted w) 40) = 0
    rw [h2, exactH, exactNum_ofF32 _ (by decide), f32val_zero, Rat.cast_zero]
  · show exactH.num.ofF32 (memRead exactH 0 (shifted w) 36) = 0
    rw [h1, exactH, exactNum_ofF32 _ (by decide), f32val_zero, Rat.cast_zero]
  · show exactH.num.ofF32 (memRead exactH 0 (shifted w) 44) = _
    rw [h3]

theorem shifted_period (w : Word) : PeriodOk exactH (shifted w) :=
  ⟨by show 2 ≤ (2#32).toNat; decide, by show (2#32).toNat % 2 = 0; decide, by show (2#32).toNat ≤ 16; decide⟩

theorem shifted_ok (w : Word) : EstimateOk exactH (shifted w) :=
  ⟨shifted_period w, Nat.le_refl 1, by show (6#32).toNat ≤ 32; decide,
    (divFloorValid_iff _).1 (by show (f32Finite 0#32 && decide (0 ≤ f32Units 0#32)) = true; decide +kernel),
    by show 3 * (2#32).toNat ≤ (6#32).toNat; decide⟩

theorem shifted_bin (w : Word) (k : Nat) : blockBin exactH 0 (shifted w) 0 .ch0 k = ⟨1, 0⟩ := by
  obtain ⟨h0, h1, -, -⟩ := shifted_samples w
  apply toC_injective
  show toC (exactDft 2 ((List.range 2).map _) k) = _
  rw [toC_exactDft]
  simp only [Finset.sum_range_succ, Finset.sum_range_zero, h0, h1, kernel, ofReal]
  simp [toC, exactH]
  rfl

theorem witness_ExactRoundTrip : IsExact exactH ∧ PeriodOk exactH (shifted 0#32) := ⟨exactH_exact, shifted_period _⟩
theorem witness_ExactShift : 1 ≤ 2 ∧
    ∀ k < 2, exactDft 2 ((List.range 2).map (fun n => if n = 0 then ⟨1, 0⟩ else ⟨0, 0⟩)) k ≠ ⟨0, 0⟩ := by
  refine ⟨by omega, fun k _ h => ?_⟩
  have h2 := congrArg toC h
  rw [toC_exactDft] at h2
  simp [Finset.sum_range_succ, kernel, toC, Complex.ext_iff] at h2
theorem witness_ExactShift_opposite :
    ∀ k < 2, (oppositeNum fun _ => 0).dft 2 ((List.range 2).map (fun n => if n = 0 then ⟨1, 0⟩ else ⟨0, 0⟩)) k ≠ ⟨0, 0⟩ := by
  intro k _ h
  have h2 := congrArg toC h
  rw [toC_oppositeDft] at h2
  simp [Finset.sum_range_succ, kernel, toC, Complex.ext_iff] at h2
/-- `1, 2, 3` shifted by 1 and by -4 (R127 by hand). -/
theorem test_circularShift :
    (List.range 3).map (circularShift 3 1 fun n => [1, 2, 3].getD n 0) = [3, 1, 2] ∧
    (List.range 3).map (circularShift 3 (-4) fun n => [1, 2, 3].getD n 0) = [2, 3, 1] := by decide
theorem witness_ExactSweepCoefficients : 2 ≤ 2 ∧ 2 % 2 = 0 ∧ (0 : ℝ) < 1 / 2 ∧ (1 / 2 : ℝ) < 1 := by norm_num
theorem witness_ExactChirp : IsExact exactH ∧ PeriodOk exactH (shifted 0#32) ∧ DutyOk (shifted 0#32) :=
  ⟨exactH_exact, shifted_period _, (dutyValid_iff _).1 (by
    show (f32Finite 1#32 && decide (0 < f32Units 1#32) && decide (f32Units 1#32 < 2 ^ 149)) = true
    decide +kernel)⟩
theorem witness_ExactPeakIsFirstMaximum : IsExact exactH ∧ PeriodOk exactH (shifted 0#32) ∧ SRateOk (shifted 0#32) :=
  ⟨exactH_exact, shifted_period _, (shifted_ok _).2.1⟩
theorem witness_ExactDividerScales : (0 : ℝ) < 2 := by norm_num
theorem shifted_blocks (w : Word) : (shifted w).blocks = 1 := by show numBlocks (6#32).toNat (2#32).toNat = 1; decide
theorem witness_ExactDelayAccuracy : IsExact exactH ∧ EstimateOk exactH (shifted 0x40000000#32) ∧ (2 : ℝ) ≠ 0 ∧
    (∀ b < (shifted 0x40000000#32).blocks, ∀ k < (shifted 0x40000000#32).P,
      degenerate exactH.num (exactH.num.ofF32 (shifted 0x40000000#32).divFloor)
        (blockBin exactH 0 (shifted 0x40000000#32) b .ch0 k) = false) ∧
    (∀ b < (shifted 0x40000000#32).blocks, ∀ n < (shifted 0x40000000#32).P,
      blockSample exactH 0 (shifted 0x40000000#32) b .ch1 n =
        2 * circularShift (shifted 0x40000000#32).P 1 (blockSample exactH 0 (shifted 0x40000000#32) b .ch0) n) := by
  have hP : (shifted 0x40000000#32).P = 2 := rfl
  refine ⟨exactH_exact, shifted_ok _, two_ne_zero, ?_, ?_⟩
  · intro b hb k _
    rw [shifted_blocks] at hb
    obtain rfl : b = 0 := by omega
    rw [shifted_bin]
    have h : exactH.num.ofF32 (shifted 0x40000000#32).divFloor = 0 := by
      show exactH.num.ofF32 0#32 = 0
      rw [exactH, exactNum_ofF32 _ (by decide), f32val_zero, Rat.cast_zero]
    rw [h]
    simp [degenerate, magSq, exactH]
  · intro b hb n hn
    rw [shifted_blocks] at hb
    obtain rfl : b = 0 := by omega
    rw [hP] at hn ⊢
    obtain ⟨h0, h1, h2, h3⟩ := shifted_samples 0x40000000#32
    have h2' : exactH.num.ofF32 0x40000000#32 = 2 := by
      rw [exactH, exactNum_ofF32 _ (by decide), f32val_two]
      norm_num
    interval_cases n
    · show blockSample _ _ _ _ _ _ = 2 * blockSample exactH 0 (shifted 0x40000000#32) 0 .ch0 1
      rw [h2, h1]
      norm_num
    · show blockSample _ _ _ _ _ _ = 2 * blockSample exactH 0 (shifted 0x40000000#32) 0 .ch0 0
      rw [h3, h0, h2']
      norm_num
theorem witness_ExactScaleInvariance :
    let e := shifted 0x3F800000#32
    let e' := shifted 0x40000000#32
    EstimateOk exactH e ∧ (0 : ℝ) < 2 ∧ e'.period = e.period ∧ e'.sRate = e.sRate ∧ e'.recLen = e.recLen ∧
      e'.divFloor = e.divFloor ∧
      ∀ b < e.blocks, ∀ n < e.P, blockSample exactH 0 e' b .ch0 n = blockSample exactH 0 e b .ch0 n ∧
        blockSample exactH 0 e' b .ch1 n = 2 * blockSample exactH 0 e b .ch1 n := by
  refine ⟨shifted_ok _, two_pos, rfl, rfl, rfl, rfl, ?_⟩
  intro b hb n hn
  rw [shifted_blocks] at hb
  obtain rfl : b = 0 := by omega
  have hP : (shifted 0x3F800000#32).P = 2 := rfl
  rw [hP] at hn
  obtain ⟨a0, a1, a2, a3⟩ := shifted_samples 0x3F800000#32
  obtain ⟨b0, b1, b2, b3⟩ := shifted_samples 0x40000000#32
  have h1 : exactH.num.ofF32 0x3F800000#32 = 1 := by rw [exactH, exactNum_ofF32 _ (by decide), f32val_one, Rat.cast_one]
  have h2 : exactH.num.ofF32 0x40000000#32 = 2 := by
    rw [exactH, exactNum_ofF32 _ (by decide), f32val_two]
    norm_num
  interval_cases n
  · exact ⟨by rw [a0, b0], by rw [a2, b2]; norm_num⟩
  · exact ⟨by rw [a1, b1], by rw [a3, b3, h1, h2]; norm_num⟩
/-- Two blocks, taken in the other order. -/
theorem witness_ExactBlockOrder :
    let e := { shifted 0#32 with recLen := 8#32 }
    IsExact exactH ∧ EstimateOk exactH e ∧ [1, 0].Perm (List.range e.blocks) := by
  refine ⟨exactH_exact, ⟨shifted_period 0#32, Nat.le_refl 1, by show (8#32).toNat ≤ 32; decide, (shifted_ok 0#32).2.2.2.1,
    by show 3 * (2#32).toNat ≤ (8#32).toNat; decide⟩, ?_⟩
  show [1, 0].Perm (List.range (numBlocks (8#32).toNat (2#32).toNat))
  decide

end Sys2Proof.Tests
end

section
/-! PROOFS. The value of a binary32 pattern (00_scope.md R14). -/

namespace Sys2Proof.Machine

/-- The sign bit read as a bit vector of one bit. -/
theorem f32Sign_toNat (w : Word) : (w.extractLsb' 31 1).toNat = (f32Sign w).toNat := by
  rw [f32Sign, ← BitVec.toNat_ofBool]
  congr 1
  ext i hi
  obtain rfl : i = 0 := by omega
  simp

/-- The value is `(-1)^s` times the magnitude, in units of 2^-149. -/
theorem f32val_eq_sign_mul (w : Word) :
    f32val w = (-1) ^ (f32Sign w).toNat * ((f32Magnitude w : ℚ) / 2 ^ 149) := by
  unfold f32val f32Units
  cases f32Sign w <;> simp [neg_div]

/-- The magnitude of a normal pattern, in R14's form. -/
theorem f32Magnitude_normal {w : Word} (h : 1 ≤ f32Exp w) :
    (f32Magnitude w : ℚ) / 2 ^ 149 = 2 ^ ((f32Exp w : ℤ) - 127) * (1 + (f32Frac w : ℚ) / 2 ^ 23) := by
  obtain ⟨n, hn⟩ : ∃ n, f32Exp w = n + 1 := ⟨f32Exp w - 1, by omega⟩
  rw [f32Magnitude, if_neg (by omega), hn, show ((n + 1 : ℕ) : ℤ) - 127 = n - 126 by push_cast; ring,
    zpow_sub₀ two_ne_zero, zpow_natCast, Nat.add_sub_cancel]
  push_cast
  field_simp
  ring

/-- The magnitude of a subnormal pattern, in R14's form. -/
theorem f32Magnitude_subnormal {w : Word} (h : f32Exp w = 0) :
    (f32Magnitude w : ℚ) / 2 ^ 149 = 2 ^ (-126 : ℤ) * ((f32Frac w : ℚ) / 2 ^ 23) := by
  rw [f32Magnitude, if_pos h, zpow_neg]
  field_simp

/-- Settles O30: the sign, and the magnitude of a normal and of a subnormal pattern. -/
theorem binary32Value : Obligations.Binary32Value := by
  intro w
  dsimp only
  rw [f32Sign_toNat, f32val_eq_sign_mul]
  refine ⟨by simp [f32Finite, f32Exp, BitVec.extractLsb], fun h _ => ?_, fun h => ?_⟩
  · rw [mul_assoc]
    exact congrArg _ (f32Magnitude_normal h)
  · rw [mul_assoc]
    exact congrArg _ (f32Magnitude_subnormal h)

end Sys2Proof.Machine
end

section
/-! PROOFS. `NUM_EXACT` meets the named tolerance properties (00_scope.md R12, R15). -/

namespace Sys2Proof.Machine

/-- The phasor `exp(-i*t)` of `NUM_EXACT` has magnitude 1 (R142). -/
theorem norm_toC_phasor (u : Word → ℝ) (t : ℝ) : ‖toC (phasor (exactNum u) t)‖ = 1 := by
  have h : toC (phasor (exactNum u) t) = Complex.exp ((-t : ℝ) * Complex.I) := by
    apply Complex.ext <;> simp [toC, phasor, Complex.exp_re, Complex.exp_im]
  rw [h, Complex.norm_exp_ofReal_mul_I]

/-- `conj` keeps the magnitude. -/
theorem norm_toC_conj (u : Word → ℝ) (z : Cx ℝ) : ‖toC (conj (exactNum u) z)‖ = ‖toC z‖ :=
  Complex.norm_conj (toC z)

/-- Every bin of the chirp's spectrum has magnitude 1 (R145). -/
theorem norm_exact_chirpBin (u : Word → ℝ) (P : Nat) (d : ℝ) (k : Nat) :
    ‖toC (chirpBin (exactNum u) P d k)‖ = 1 := by
  unfold chirpBin
  split
  · exact norm_toC_phasor u _
  · rw [norm_toC_conj]
    exact norm_toC_phasor u _

/-- Forward-transforming the chirp gives back the spectrum it was made from (R146). -/
theorem exact_chirpForward (u : Word → ℝ) {P : Nat} (d : ℝ) (h2 : 2 ≤ P) (he : P % 2 = 0) {k : Nat} (hk : k < P) :
    chirpForward (exactNum u) P d k = chirpBin (exactNum u) P d k := by
  unfold chirpForward
  simp only [exact_chirpSample_ofReal u P d h2 he]
  exact exactDft_exactIdft _ hk

theorem exact_roundTrip (u : Word → ℝ) (pMax : Nat) : RoundTrip (exactNum u) pMax id (fun _ => True) 0 := by
  intro P x _ _ _ _ n hn
  rw [exactNum_idft, exactNum_dft, exactIdft_exactDft x hn, sub_self, norm_zero]

theorem exact_flatness (u : Word → ℝ) (pMax : Nat) : Flatness (exactNum u) pMax id 0 := by
  intro P w h2 _ he _ _ _ k hk
  have h : ‖readC id (chirpBin (exactNum u) P ((exactNum u).ofF32 w) k)‖ = 1 := norm_exact_chirpBin u P _ k
  rw [exact_chirpForward u _ h2 he (by omega), h, sub_self, abs_zero]

/-- The spectrum is reproduced exactly, hence within any tolerance. -/
theorem exact_spectrumWithin (u : Word → ℝ) (pMax : Nat) {eps : ℝ} (h : 0 ≤ eps) :
    SpectrumWithin (exactNum u) pMax id eps := by
  intro P w h2 _ he _ _ _ k hk
  rw [exact_chirpForward u _ h2 he hk, sub_self, norm_zero]
  positivity

/-- Settles O55: the transforms of `NUM_EXACT` invert each other, and every bin of the chirp has magnitude 1. -/
theorem exactMeetsTolerances : Obligations.ExactMeetsTolerances := fun u pMax =>
  ⟨exact_roundTrip u pMax, exact_flatness u pMax, exact_spectrumWithin u pMax le_rfl,
    exact_spectrumWithin u pMax (by positivity)⟩

end Sys2Proof.Machine
end

section
/-! PROOFS. Determinism of every command (00_scope.md R15): what it leaves in its write set is a function of what it reads. Two
runs are compared at two draw numbers `d1`, `d2` through `ReadsAlike`, each read of the one answering as in the other. -/

namespace Sys2Proof.Machine

variable {ν : Type}

/-! ### The write set, in the form of the frames -/

/-- The write set of R49 for the period `P`, `STATUS` apart, in the form of the frames of Laws/Effects. -/
def Written (P : Nat) : Instr → Piece → Prop
  | .nop, _ => False
  | .ldblk vd _, p => ∃ k < P, p = .vec vd k
  | .fft vd _, p => ∃ k < P, p = .vec vd k
  | .ifft vd _, p => ∃ k < P, p = .vec vd k
  | .sweep vd, p => ∃ k ≤ P / 2, p = .vec vd k
  | .mirror vd, p => ∃ k, P / 2 < k ∧ k < P ∧ p = .vec vd k
  | .cdiv vd _ _, p => p = .csr .degenCnt ∨ ∃ k < P, p = .vec vd k
  | .aclr, p => p = .csr .accCnt ∨ p = .csr .degenCnt ∨ ∃ n < P, p = .acc n
  | .accr _, p => p = .csr .accCnt ∨ ∃ n < P, p = .acc n
  | .avg, p => ∃ n < P, p = .res n
  | .realp _, p => ∃ n < P, p = .res n
  | .peak, p => p = .csr .peakIdx ∨ p = .delayMs
  | .synth, p => ∃ n < P, p = .vec .v0 n ∨ p = .res n
  | .estimate, p => p = .csr .nBlk ∨ p = .csr .accCnt ∨ p = .csr .degenCnt ∨ p = .csr .peakIdx ∨ p = .delayMs ∨
      ∃ n < P, p = .vec .v0 n ∨ p = .vec .v1 n ∨ p = .vec .v2 n ∨ p = .acc n ∨ p = .res n

theorem within_iff (lo n k : Nat) : within lo n k = true ↔ lo ≤ k ∧ k < lo + n := by simp [within]

/-- The two forms of the write set agree. -/
theorem mayWrite_iff {P : Nat} {i : Instr} {p : Piece} (hp : p ≠ .csr .status) :
    mayWrite P i p = true ↔ Written P i p := by
  cases p with
  | csr s => cases s <;> cases i <;> simp_all [mayWrite, Written]
  | delayMs => cases i <;> simp [mayWrite, Written]
  | vec j k =>
    cases i
    case estimate => cases j <;> simp [mayWrite, Written, within_iff]
    all_goals simp [mayWrite, Written, within_iff]
    all_goals grind
  | acc n => cases i <;> simp [mayWrite, Written, within_iff]
  | res n => cases i <;> simp [mayWrite, Written, within_iff]
  | byte a => cases i <;> simp [mayWrite, Written]

/-! ### Reads that answer alike -/

/-- The piece reads in `e1` at draw `d1` as it does in `e2` at draw `d2`. -/
def ReadsSame (H : Params ν) (d1 d2 : Nat) (e1 e2 : Engine ν) : Piece → Prop
  | .csr i => readSlot e2 i = readSlot e1 i
  | .delayMs => e2.delayMs = e1.delayMs
  | .vec j k => ∀ p, readV H d2 p e2 j k = readV H d1 p e1 j k
  | .acc n => readAcc H d2 e2 n = readAcc H d1 e1 n
  | .res n => readRes H d2 e2 n = readRes H d1 e1 n
  | .byte a => readByte H d2 e2 a = readByte H d1 e1 a

/-- All that the command `i` reads answers alike. -/
def ReadsAlike (H : Params ν) (d1 d2 : Nat) (e1 e2 : Engine ν) (i : Instr) : Prop :=
  ∀ p, mayRead e1 i p = true → ReadsSame H d1 d2 e1 e2 p

theorem readByte_of_lookup {H : Params ν} {d : Nat} {e : Engine ν} {a : Nat} {x : Byte}
    (h : lookup a e.recording = some x) : readByte H d e a = x := by simp [readByte, h]

/-- A read of a written piece does not depend on the draw. -/
theorem readsSame_of_held (H : Params ν) (d1 d2 : Nat) {e1 e2 : Engine ν} {p : Piece} (hh : Held e1 p)
    (hs : SamePiece e1 e2 p) : ReadsSame H d1 d2 e1 e2 p := by
  cases p with
  | csr i => exact hs
  | delayMs => exact hs
  | vec j k =>
    obtain ⟨z, hz⟩ := Option.isSome_iff_exists.mp hh
    exact fun _ => (readV_of_lookup (Eq.trans hs hz)).trans (readV_of_lookup hz).symm
  | acc n =>
    obtain ⟨x, hx⟩ := Option.isSome_iff_exists.mp hh
    exact (readAcc_of_lookup (Eq.trans hs hx)).trans (readAcc_of_lookup hx).symm
  | res n =>
    obtain ⟨x, hx⟩ := Option.isSome_iff_exists.mp hh
    exact (readRes_of_lookup (Eq.trans hs hx)).trans (readRes_of_lookup hx).symm
  | byte a =>
    obtain ⟨x, hx⟩ := Option.isSome_iff_exists.mp hh
    exact (readByte_of_lookup (Eq.trans hs hx)).trans (readByte_of_lookup hx).symm

section
variable {H : Params ν} {d1 d2 : Nat} {e1 e2 : Engine ν}

/-- Every command but `NOP` reads `PERIOD`. -/
theorem ReadsAlike.period {i : Instr} (h : ReadsAlike H d1 d2 e1 e2 i) (hi : i ≠ .nop) : e2.period = e1.period :=
  h (.csr .period) (by cases i <;> simp_all [mayRead])

theorem ReadsAlike.P {i : Instr} (h : ReadsAlike H d1 d2 e1 e2 i) (hi : i ≠ .nop) : e2.P = e1.P := by
  rw [Engine.P, h.period hi, Engine.P]

theorem blocks_eq (hP : e2.P = e1.P) (hm : e2.recLen = e1.recLen) : e2.blocks = e1.blocks := by
  rw [Engine.blocks, hP, hm, Engine.blocks]

/-- The registers a command checks are among those it reads, so that its checks come out alike (R245). -/
theorem ReadsAlike.checksOf {i : Instr} (h : ReadsAlike H d1 d2 e1 e2 i) : checksOf H e2 i = checksOf H e1 i := by
  by_cases hi : i = .nop
  · rw [hi]; rfl
  have hp := h.period hi
  have hv : e2.periodValid H = e1.periodValid H := by rw [Engine.periodValid, hp, Engine.periodValid]
  cases i with
  | nop => rfl
  | ldblk =>
    have hm : e2.recLen = e1.recLen := h (.csr .recLen) rfl
    have hb : e2.blk = e1.blk := h (.csr .blk) rfl
    simp only [Machine.checksOf, Engine.recLenValid]
    rw [hv, hm, hb, blocks_eq (h.P hi) hm]
  | sweep | synth =>
    have hd : e2.duty = e1.duty := h (.csr .duty) rfl
    simp only [Machine.checksOf, Engine.dutyValid, hv, hd]
  | cdiv =>
    have hf : e2.divFloor = e1.divFloor := h (.csr .divFloor) rfl
    simp only [Machine.checksOf, Engine.divFloorValid, hv, hf]
  | accr | avg =>
    have hc : e2.accCnt = e1.accCnt := h (.csr .accCnt) rfl
    simp only [Machine.checksOf, hv, hc]
  | peak =>
    have hr : e2.sRate = e1.sRate := h (.csr .sRate) rfl
    simp only [Machine.checksOf, Engine.sRateValid, hv, hr]
  | estimate =>
    have hr : e2.sRate = e1.sRate := h (.csr .sRate) rfl
    have hm : e2.recLen = e1.recLen := h (.csr .recLen) rfl
    have hf : e2.divFloor = e1.divFloor := h (.csr .divFloor) rfl
    simp only [Machine.checksOf, Engine.sRateValid, Engine.recLenValid, Engine.divFloorValid]
    rw [hv, hr, hm, hf, blocks_eq (h.P hi) hm]
  | _ => simp only [Machine.checksOf, hv]

/-- Every command but `NOP` checks `PERIOD`. -/
theorem periodOk_of_faultOf_none {e : Engine ν} {i : Instr} (hi : i ≠ .nop) (h : faultOf H e i = none) : PeriodOk H e := by
  have hm : (e.periodValid H, FaultCode.invalidParameter) ∈ checksOf H e i := by cases i <;> simp_all [checksOf]
  exact (periodValid_iff H e).1 (firstFault_none h _ hm)

theorem PeriodOk.even {e : Engine ν} (h : PeriodOk H e) : e.P % 2 = 0 := h.2.1

/-! ### What the effects compute from their reads -/

theorem map_readV_eq {j : VReg} {P : Nat} (h : ∀ k < P, ReadsSame H d1 d2 e1 e2 (.vec j k)) :
    (List.range P).map (readV H d2 .a e2 j) = (List.range P).map (readV H d1 .a e1 j) :=
  List.map_congr_left fun k hk => h k (List.mem_range.mp hk) .a

theorem someNonFinite_congr (N : Numerics ν) {P : Nat} {f g : Nat → ν} (h : ∀ n < P, f n = g n) :
    someNonFinite N P f = someNonFinite N P g := by
  rw [Bool.eq_iff_iff, someNonFinite_iff, someNonFinite_iff]
  exact exists_congr fun n => and_congr_right fun hn => by rw [h n hn]

theorem forcedCount_congr (N : Numerics ν) (fl : ν) {P : Nat} {a a' z z' : Nat → Cx ν} (ha : ∀ k < P, a k = a' k)
    (hz : ∀ k < P, z k = z' k) : forcedCount N fl a z P = forcedCount N fl a' z' P :=
  List.countP_congr fun k hk => by rw [ha k (List.mem_range.mp hk), hz k (List.mem_range.mp hk)]

/-- A sample depends on its own four bytes (R61, R162). -/
theorem blockSample_eq (hP : e2.P = e1.P) {b n : Nat} {c : Channel}
    (h : ∀ a, a / 8 = firstPair e1.P b + n → a % 8 / 4 = Channel.index c → readByte H d2 e2 a = readByte H d1 e1 a) :
    blockSample H d2 e2 b c n = blockSample H d1 e1 b c n := by
  have hb : ∀ j < 4, readByte H d2 e2 (sampleAddr (firstPair e1.P b + n) c + j) =
      readByte H d1 e1 (sampleAddr (firstPair e1.P b + n) c + j) := fun j hj =>
    h _ (by cases c <;> simp only [sampleAddr, Channel.index] <;> omega)
      (by cases c <;> simp only [sampleAddr, Channel.index] <;> omega)
  unfold blockSample memRead
  rw [hP, hb 3 (by omega), hb 2 (by omega), hb 1 (by omega), ← Nat.add_zero (sampleAddr ..), hb 0 (by omega)]

/-! ### The closed forms of a block depend on its samples and the floor alone -/

/-- Both channels of block `b` hold the same samples, at the same period and division floor. -/
structure SameBlock (H : Params ν) (d1 d2 : Nat) (e1 e2 : Engine ν) (b : Nat) : Prop where
  P : e2.P = e1.P
  divFloor : e2.divFloor = e1.divFloor
  samples : ∀ c, ∀ n < e1.P, blockSample H d2 e2 b c n = blockSample H d1 e1 b c n

section
variable {b : Nat}

theorem SameBlock.blockBin (h : SameBlock H d1 d2 e1 e2 b) (c : Channel) : blockBin H d2 e2 b c = blockBin H d1 e1 b c := by
  funext k
  simp only [Machine.blockBin, h.P]
  congr 1
  exact List.map_congr_left fun n hn => by rw [h.samples c n (List.mem_range.mp hn)]

theorem SameBlock.responseSample (h : SameBlock H d1 d2 e1 e2 b) : responseSample H d2 e2 b = responseSample H d1 e1 b := by
  have ht : transferBin H d2 e2 b = transferBin H d1 e1 b := by
    funext k
    simp only [transferBin, h.divFloor, h.blockBin]
  funext n
  simp only [Machine.responseSample, h.P, ht]

theorem SameBlock.blockForced (h : SameBlock H d1 d2 e1 e2 b) : blockForced H d2 e2 b = blockForced H d1 e1 b := by
  simp only [Machine.blockForced, h.P, h.divFloor, h.blockBin]

end

/-! ### The closed forms of the macros -/

/-- What `SYNTH` leaves, given an even period (R211). -/
theorem synthEffect_value (H : Params ν) (d : Nat) {e : Engine ν} (hP : e.P % 2 = 0) {n : Nat} (hn : n < e.P) :
    lookup n ((synthEffect H d e).vreg .v0) = some (chirpSample H.num e.P (H.num.ofF32 e.duty) n) ∧
      lookup n (synthEffect H d e).res = some (chirpSample H.num e.P (H.num.ofF32 e.duty) n).re := by
  have hv := synth_value H d e hP hn
  refine ⟨hv, ?_⟩
  rw [synthEffect, realpEffect_value _ _ _ _ (by simpa using hn), readV_of_lookup hv]

/-- `SYNTH` completes with `WNONFIN` set exactly when a sample of the chirp is not finite (R144). -/
theorem synthEffect_status (H : Params ν) (d : Nat) {e : Engine ν} (hP : e.P % 2 = 0) :
    StatusAfter false (someNonFinite H.num e.P fun n => (chirpSample H.num e.P (H.num.ofF32 e.duty) n).re) e
      (finish (synthEffect H d e)) := by
  rw [← someNonFinite_congr H.num fun n hn => congrArg Cx.re (readV_of_lookup (p := .a) (synth_value H d e hP hn))]
  simp only [synthEffect, realpEffect]
  simpa using finish_warnNonFin (e := e) (by simp)

/-- The closed form of `ESTIMATE`, but for the vector registers (R212). -/
theorem estimateEffect_orderState (H : Params ν) (d : Nat) {e : Engine ν} (hP : 0 < e.P) :
    OrderState H d (List.range e.blocks) e (averagedResponse H d e) (estimateEffect H d e) := by
  have hb := blocks_lt e
  have h := orderState H d (List.range e.blocks) e hP (by rw [List.length_range]; omega)
  rw [List.length_range] at h
  exact h

/-- The vector registers after `ESTIMATE` hold the last block's values (R212). -/
theorem estimateEffect_vreg (H : Params ν) (d : Nat) {e : Engine ν} (hb : 1 ≤ e.blocks) {n : Nat} (hn : n < e.P) :
    lookup n ((estimateEffect H d e).vreg .v0) = some (blockBin H d e (e.blocks - 1) .ch0 n) ∧
      lookup n ((estimateEffect H d e).vreg .v1) = some (blockBin H d e (e.blocks - 1) .ch1 n) ∧
      lookup n ((estimateEffect H d e).vreg .v2) = some (responseSample H d e (e.blocks - 1) n) := by
  obtain ⟨hP, hp, hr, hf, -⟩ := cleared_fields H e
  have h := estimateBlocks_last H d (cleared H e) (List.range (e.blocks - 1)) (e.blocks - 1) (n := n) (by omega)
  rw [← List.range_succ, Nat.succ_eq_add_one, Nat.sub_add_cancel hb, blockBin_congr hp hr, blockBin_congr hp hr,
    responseSample_congr hp hr hf] at h
  exact h

/-- A completion whose effect leaves both warnings as given and the rest of `STATUS` alone. -/
theorem finish_warnings {wd wn : Bool} {e t : Engine ν}
    (h : t.status = withBit 4 (e.wNonFin || wn) (withBit 3 (e.wDegen || wd) e.status)) : StatusAfter wd wn e (finish t) := by
  refine finish_statusAfter ?_ ?_ ?_ fun n hn => ?_
  · simp only [Engine.rej, h, getLsbD_withBit]; rfl
  · simp only [Engine.wDegen, h, getLsbD_withBit]; rfl
  · simp only [Engine.wNonFin, h, getLsbD_withBit]; rfl
  · rw [h, getLsbD_withBit, getLsbD_withBit, if_neg (by omega), if_neg (by omega)]

/-! ### Two runs of one effect -/

/-- Two runs of an effect leave the same values in the pieces of `W` and complete with the same warnings. -/
structure SameOutcome (W : Piece → Prop) (e1 e2 t1 t2 : Engine ν) : Prop where
  pieces : ∀ p, W p → SamePiece t1 t2 p
  status : ∃ wd wn, StatusAfter wd wn e1 (finish t1) ∧ StatusAfter wd wn e2 (finish t2)

/-- The two runs of command `i`'s effect leave the same values in its write set and complete with the same warnings. -/
abbrev RunsAlike (H : Params ν) (d1 d2 : Nat) (e1 e2 : Engine ν) (i : Instr) : Prop :=
  SameOutcome (Written e1.P i) e1 e2 (effectOf H d1 i e1) (effectOf H d2 i e2)

/-- Effects that leave `STATUS` alone. -/
theorem sameOutcome_of_status_eq {W : Piece → Prop} {t1 t2 : Engine ν} (h1 : t1.status = e1.status)
    (h2 : t2.status = e2.status) (hp : ∀ p, W p → SamePiece t1 t2 p) : SameOutcome W e1 e2 t1 t2 :=
  ⟨hp, false, false, finish_statusAfter_of_eq h1, finish_statusAfter_of_eq h2⟩

/-- An element found on both sides with one value. -/
theorem eq_of_found {α : Type} {x y : Option α} {a b : α} (hx : x = some a) (hy : y = some b) (h : b = a) : y = x := by
  rw [hx, hy, h]

theorem ldblk_runsAlike {vd : VReg} {ch : Channel} (h : ReadsAlike H d1 d2 e1 e2 (.ldblk vd ch)) :
    RunsAlike H d1 d2 e1 e2 (.ldblk vd ch) := by
  have hP := h.P (by simp)
  have hb : e2.blk = e1.blk := h (.csr .blk) rfl
  refine sameOutcome_of_status_eq (by simp [effectOf]) (by simp [effectOf]) ?_
  rintro _ ⟨n, hn, rfl⟩
  refine eq_of_found (ldblkEffect_value _ _ _ _ _ _ hn) (ldblkEffect_value _ _ _ _ _ _ (hP ▸ hn)) ?_
  rw [hb, blockSample_eq hP fun a h1 h2 => h (.byte a) ?_]
  simp [mayRead, sampleByte, within_iff, h1, h2, hn]

theorem fft_runsAlike {vd va : VReg} (h : ReadsAlike H d1 d2 e1 e2 (.fft vd va)) : RunsAlike H d1 d2 e1 e2 (.fft vd va) := by
  have hP := h.P (by simp)
  refine sameOutcome_of_status_eq (by simp [effectOf]) (by simp [effectOf]) ?_
  rintro _ ⟨k, hk, rfl⟩
  refine eq_of_found (fftEffect_value _ _ _ _ _ hk) (fftEffect_value _ _ _ _ _ (hP ▸ hk)) ?_
  rw [hP, map_readV_eq fun k hk => h (.vec va k) (by simp [mayRead, within_iff, hk])]

theorem ifft_runsAlike {vd va : VReg} (h : ReadsAlike H d1 d2 e1 e2 (.ifft vd va)) :
    RunsAlike H d1 d2 e1 e2 (.ifft vd va) := by
  have hP := h.P (by simp)
  refine sameOutcome_of_status_eq (by simp [effectOf]) (by simp [effectOf]) ?_
  rintro _ ⟨n, hn, rfl⟩
  refine eq_of_found (ifftEffect_value _ _ _ _ _ hn) (ifftEffect_value _ _ _ _ _ (hP ▸ hn)) ?_
  rw [hP, map_readV_eq fun k hk => h (.vec va k) (by simp [mayRead, within_iff, hk])]

theorem sweep_runsAlike {vd : VReg} (h : ReadsAlike H d1 d2 e1 e2 (.sweep vd)) : RunsAlike H d1 d2 e1 e2 (.sweep vd) := by
  have hP := h.P (by simp)
  have hd : e2.duty = e1.duty := h (.csr .duty) rfl
  refine sameOutcome_of_status_eq (by simp [effectOf]) (by simp [effectOf]) ?_
  rintro _ ⟨k, hk, rfl⟩
  exact eq_of_found (sweepEffect_value _ _ _ hk) (sweepEffect_value _ _ _ (hP ▸ hk)) (by rw [hP, hd])

/-- The mirrored bins are those from 1 to `NF - 1`, which a period that is even makes all that is read (R143). -/
theorem mirror_runsAlike {vd : VReg} (h : ReadsAlike H d1 d2 e1 e2 (.mirror vd)) (he : e1.P % 2 = 0) :
    RunsAlike H d1 d2 e1 e2 (.mirror vd) := by
  have hP := h.P (by simp)
  refine sameOutcome_of_status_eq (by simp [effectOf]) (by simp [effectOf]) ?_
  rintro _ ⟨k, h1, h2, rfl⟩
  have hNF : e1.NF = e1.P / 2 := rfl
  have hr : ReadsSame H d1 d2 e1 e2 (.vec vd (e1.P - k)) := h _ (by simp [mayRead, within_iff, hNF]; omega)
  refine eq_of_found (mirrorEffect_value _ _ _ _ h1 h2) (mirrorEffect_value _ _ _ _ (by omega) (by omega)) ?_
  rw [hP, hr .a]

theorem realp_runsAlike {va : VReg} (h : ReadsAlike H d1 d2 e1 e2 (.realp va)) : RunsAlike H d1 d2 e1 e2 (.realp va) := by
  have hP := h.P (by simp)
  have hr : ∀ n < e1.P, (readV H d2 .a e2 va n).re = (readV H d1 .a e1 va n).re := fun n hn =>
    congrArg Cx.re (h (.vec va n) (by simp [mayRead, within_iff, hn]) .a)
  refine ⟨?_, false, someNonFinite H.num e1.P fun n => (readV H d1 .a e1 va n).re, finish_warnNonFin (by simp), ?_⟩
  · rintro _ ⟨n, hn, rfl⟩
    exact eq_of_found (realpEffect_value _ _ _ _ hn) (realpEffect_value _ _ _ _ (hP ▸ hn)) (hr n hn)
  · rw [← someNonFinite_congr H.num hr, ← hP]
    exact finish_warnNonFin (by simp)

theorem cdiv_runsAlike {vd va vb : VReg} (h : ReadsAlike H d1 d2 e1 e2 (.cdiv vd va vb)) :
    RunsAlike H d1 d2 e1 e2 (.cdiv vd va vb) := by
  have hP := h.P (by simp)
  have hf : e2.divFloor = e1.divFloor := h (.csr .divFloor) rfl
  have hc : e2.degenCnt = e1.degenCnt := h (.csr .degenCnt) rfl
  have ha : ∀ k < e1.P, readV H d2 .a e2 va k = readV H d1 .a e1 va k := fun k hk =>
    h (.vec va k) (by simp [mayRead, within_iff, hk]) .a
  have hz : ∀ k < e1.P, readV H d2 .b e2 vb k = readV H d1 .b e1 vb k := fun k hk =>
    h (.vec vb k) (by simp [mayRead, within_iff, hk]) .b
  have hn : forcedCount H.num (H.num.ofF32 e2.divFloor) (readV H d2 .a e2 va) (readV H d2 .b e2 vb) e2.P =
      forcedCount H.num (H.num.ofF32 e1.divFloor) (readV H d1 .a e1 va) (readV H d1 .b e1 vb) e1.P := by
    rw [hf, hP, forcedCount_congr _ _ ha hz]
  refine ⟨?_, _, false, finish_warnDegen (by simp), ?_⟩
  · rintro _ (rfl | ⟨k, hk, rfl⟩)
    · show saturatingCount e2.degenCnt _ = saturatingCount e1.degenCnt _
      rw [hc, hn]
    · refine eq_of_found (cdivEffect_value _ _ _ _ _ _ hk) (cdivEffect_value _ _ _ _ _ _ (hP ▸ hk)) ?_
      rw [hf, ha k hk, hz k hk]
  · rw [← hn]
    exact finish_warnDegen (by simp)

theorem aclr_runsAlike (h : ReadsAlike H d1 d2 e1 e2 .aclr) : RunsAlike H d1 d2 e1 e2 .aclr := by
  have hP := h.P (by simp)
  refine sameOutcome_of_status_eq (by simp [effectOf]) (by simp [effectOf]) ?_
  rintro _ (rfl | rfl | ⟨n, hn, rfl⟩)
  · rfl
  · rfl
  · exact eq_of_found (aclrEffect_value _ _ hn) (aclrEffect_value _ _ (hP ▸ hn)) rfl

theorem accr_runsAlike {va : VReg} (h : ReadsAlike H d1 d2 e1 e2 (.accr va)) : RunsAlike H d1 d2 e1 e2 (.accr va) := by
  have hP := h.P (by simp)
  have hc : e2.accCnt = e1.accCnt := h (.csr .accCnt) rfl
  refine sameOutcome_of_status_eq (by simp [effectOf]) (by simp [effectOf]) ?_
  rintro _ (rfl | ⟨n, hn, rfl⟩)
  · exact congrArg (· + 1#32) hc
  · have hr : ReadsSame H d1 d2 e1 e2 (.acc n) := h _ (by simp [mayRead, within_iff, hn])
    have hv : ReadsSame H d1 d2 e1 e2 (.vec va n) := h _ (by simp [mayRead, within_iff, hn])
    refine eq_of_found (accrEffect_value _ _ _ _ hn) (accrEffect_value _ _ _ _ (hP ▸ hn)) ?_
    rw [show readAcc H d2 e2 n = readAcc H d1 e1 n from hr, hv .a]

theorem avg_runsAlike (h : ReadsAlike H d1 d2 e1 e2 .avg) : RunsAlike H d1 d2 e1 e2 .avg := by
  have hP := h.P (by simp)
  have hc : e2.accCnt = e1.accCnt := h (.csr .accCnt) rfl
  have hm : ∀ n < e1.P, meanOf H d2 e2 n = meanOf H d1 e1 n := fun n hn => by
    have hr : readAcc H d2 e2 n = readAcc H d1 e1 n := h (.acc n) (by simp [mayRead, within_iff, hn])
    rw [meanOf, hr, hc, meanOf]
  refine ⟨?_, false, someNonFinite H.num e1.P (meanOf H d1 e1), finish_warnNonFin (by simp), ?_⟩
  · rintro _ ⟨n, hn, rfl⟩
    exact eq_of_found (avgEffect_value _ _ _ hn) (avgEffect_value _ _ _ (hP ▸ hn)) (hm n hn)
  · rw [← someNonFinite_congr H.num hm, ← hP]
    exact finish_warnNonFin (by simp)

theorem peak_runsAlike (h : ReadsAlike H d1 d2 e1 e2 .peak) (h0 : 0 < e1.P) : RunsAlike H d1 d2 e1 e2 .peak := by
  have hr : e2.sRate = e1.sRate := h (.csr .sRate) rfl
  have hi : peakIndex H.num (readRes H d2 e2) e2.P = peakIndex H.num (readRes H d1 e1) e1.P := by
    rw [h.P (by simp), peakIndex_congr _ h0 fun n hn => h (.res n) (by simp [mayRead, within_iff, hn])]
  refine sameOutcome_of_status_eq (by simp [effectOf]) (by simp [effectOf]) ?_
  rintro _ (rfl | rfl)
  · show BitVec.ofNat 32 _ = BitVec.ofNat 32 _
    rw [hi]
  · show delayOf H.num _ _ = delayOf H.num _ _
    rw [hi, hr]

theorem synth_runsAlike (h : ReadsAlike H d1 d2 e1 e2 .synth) (he : e1.P % 2 = 0) : RunsAlike H d1 d2 e1 e2 .synth := by
  have hP := h.P (by simp)
  have hd : e2.duty = e1.duty := h (.csr .duty) rfl
  have s2 := synthEffect_status H d2 (e := e2) (by rw [hP, he])
  rw [hP, hd] at s2
  refine ⟨?_, _, _, synthEffect_status H d1 he, s2⟩
  rintro _ ⟨n, hn, hp⟩
  obtain ⟨v1, r1⟩ := synthEffect_value H d1 he hn
  obtain ⟨v2, r2⟩ := synthEffect_value H d2 (e := e2) (by rw [hP, he]) (hP ▸ hn)
  rcases hp with rfl | rfl
  · exact eq_of_found v1 v2 (by rw [hP, hd])
  · exact eq_of_found r1 r2 (by rw [hP, hd])

/-- The blocks `ESTIMATE` analyses hold the same samples (R49, R212). -/
theorem ReadsAlike.sameBlock (h : ReadsAlike H d1 d2 e1 e2 .estimate) {b : Nat} (hb : b < e1.blocks) :
    SameBlock H d1 d2 e1 e2 b where
  P := h.P (by simp)
  divFloor := h (.csr .divFloor) rfl
  samples c n hn := by
    refine blockSample_eq (h.P (by simp)) fun a ha _ => h (.byte a) ?_
    have h1 := Nat.mul_le_mul_right e1.P (Nat.succ_le_of_lt hb)
    rw [Nat.succ_mul] at h1
    simp only [mayRead, within_iff, ha, firstPair]
    omega

theorem estimate_runsAlike (h : ReadsAlike H d1 d2 e1 e2 .estimate) (h0 : 0 < e1.P) (hb1 : 1 ≤ e1.blocks) :
    RunsAlike H d1 d2 e1 e2 .estimate := by
  have hP := h.P (by simp)
  have hr : e2.sRate = e1.sRate := h (.csr .sRate) rfl
  have hb := blocks_eq hP (h (.csr .recLen) rfl)
  have hsum : responseSum H d2 e2 = responseSum H d1 e1 := by
    funext n
    rw [responseSum, hb, responseSum]
    exact List.foldl_ext _ _ _ fun x b hm => by rw [(h.sameBlock (List.mem_range.mp hm)).responseSample]
  have hmean : averagedResponse H d2 e2 = averagedResponse H d1 e1 := by
    funext n
    rw [averagedResponse, hsum, hb, averagedResponse]
  have hforced : (List.range e2.blocks).map (blockForced H d2 e2) = (List.range e1.blocks).map (blockForced H d1 e1) := by
    rw [hb]
    exact List.map_congr_left fun b hm => (h.sameBlock (List.mem_range.mp hm)).blockForced
  have o1 := estimateEffect_orderState H d1 h0
  have o2 := estimateEffect_orderState H d2 (e := e2) (hP ▸ h0)
  refine ⟨?_, _, _, finish_warnings o1.status, ?_⟩
  · rintro _ (rfl | rfl | rfl | rfl | rfl | ⟨n, hn, hp⟩)
    · exact (o2.nBlk.trans (by rw [hb])).trans o1.nBlk.symm
    · exact BitVec.eq_of_toNat_eq ((o2.accCnt.trans (by rw [hb])).trans o1.accCnt.symm)
    · exact BitVec.eq_of_toNat_eq ((o2.degenCnt.trans (by rw [hforced])).trans o1.degenCnt.symm)
    · exact BitVec.eq_of_toNat_eq ((o2.peakIdx.trans (by rw [hmean, hP])).trans o1.peakIdx.symm)
    · exact (o2.delayMs.trans (by rw [hmean, hP, hr])).trans o1.delayMs.symm
    · have hlast := h.sameBlock (b := e1.blocks - 1) (by omega)
      obtain ⟨a0, a1, a2⟩ := estimateEffect_vreg H d1 hb1 hn
      obtain ⟨b0, b1, b2⟩ := estimateEffect_vreg H d2 (e := e2) (hb ▸ hb1) (hP ▸ hn)
      rcases hp with rfl | rfl | rfl | rfl | rfl
      · exact eq_of_found a0 b0 (by rw [hb, hlast.blockBin])
      · exact eq_of_found a1 b1 (by rw [hb, hlast.blockBin])
      · exact eq_of_found a2 b2 (by rw [hb, hlast.responseSample])
      · exact eq_of_found (o1.acc n hn) (o2.acc n (hP ▸ hn)) (congrFun hsum n)
      · exact eq_of_found (o1.res n hn) (o2.res n (hP ▸ hn)) (congrFun hmean n)
  · rw [← hforced, ← hmean, ← hP]
    exact finish_warnings o2.status

/-- Reads that answer alike make two runs of a command that does not fault come out alike. -/
theorem ReadsAlike.runsAlike {i : Instr} (h : ReadsAlike H d1 d2 e1 e2 i) (hf : faultOf H e1 i = none) :
    RunsAlike H d1 d2 e1 e2 i := by
  cases i with
  | nop => exact sameOutcome_of_status_eq rfl rfl fun _ hp => hp.elim
  | ldblk => exact ldblk_runsAlike h
  | fft => exact fft_runsAlike h
  | ifft => exact ifft_runsAlike h
  | sweep => exact sweep_runsAlike h
  | mirror => exact mirror_runsAlike h (periodOk_of_faultOf_none (by simp) hf).even
  | realp => exact realp_runsAlike h
  | cdiv => exact cdiv_runsAlike h
  | aclr => exact aclr_runsAlike h
  | accr => exact accr_runsAlike h
  | avg => exact avg_runsAlike h
  | peak => exact peak_runsAlike h (periodOk_of_faultOf_none (by simp) hf).pos
  | synth => exact synth_runsAlike h (periodOk_of_faultOf_none (by simp) hf).even
  | estimate =>
    have hb := firstFault_none hf (decide (1 ≤ e1.blocks), .insufficientData) (by simp [Machine.checksOf])
    exact estimate_runsAlike h (periodOk_of_faultOf_none (by simp) hf).pos (of_decide_eq_true hb)

/-! ### Two runs of one command -/

theorem command_of_none (d : Nat) {e : Engine ν} {i : Instr} (h : faultOf H e i = none) :
    command H d i e = finish (effectOf H d i e) := by
  rw [command_eq_perform, perform_of_none h]

theorem command_of_some (d : Nat) {e : Engine ν} {i : Instr} {f : FaultCode} (h : faultOf H e i = some f) :
    command H d i e = raise f e := by
  rw [command_eq_perform, perform_of_some h]

/-- The completion changes no piece but `STATUS`. -/
theorem samePiece_finish (t : Engine ν) {p : Piece} (hp : p ≠ .csr .status) : SamePiece t (finish t) p :=
  (Frame.refl (fun _ => False) t).finish.pieces p hp id

theorem SamePiece.finish {t1 t2 : Engine ν} {p : Piece} (hp : p ≠ .csr .status) (h : SamePiece t1 t2 p) :
    SamePiece (finish t1) (finish t2) p :=
  ((samePiece_finish t1 hp).symm.trans h).trans (samePiece_finish t2 hp)

theorem ReadsAlike.faultOf {i : Instr} (h : ReadsAlike H d1 d2 e1 e2 i) : faultOf H e1 i = faultOf H e2 i := by
  rw [Machine.faultOf, ← h.checksOf, Machine.faultOf]

theorem ReadsAlike.faultEntry {i : Instr} (h : ReadsAlike H d1 d2 e1 e2 i) {f : FaultCode}
    (hf : Machine.faultOf H e1 i = some f) :
    FaultEntry f e1 (command H d1 i e1) ∧ FaultEntry f e2 (command H d2 i e2) := by
  rw [command_of_some d1 hf, command_of_some d2 (h.faultOf ▸ hf)]
  exact ⟨raise_faultEntry f e1, raise_faultEntry f e2⟩

theorem ReadsAlike.command {i : Instr} (h : ReadsAlike H d1 d2 e1 e2 i) (hf : Machine.faultOf H e1 i = none) :
    (∀ p, p ≠ .csr .status → mayWrite e1.P i p = true →
      SamePiece (Machine.command H d1 i e1) (Machine.command H d2 i e2) p) ∧
    ∃ wd wn, StatusAfter wd wn e1 (Machine.command H d1 i e1) ∧ StatusAfter wd wn e2 (Machine.command H d2 i e2) := by
  obtain ⟨hp, hs⟩ := h.runsAlike hf
  rw [command_of_none d1 hf, command_of_none d2 (h.faultOf ▸ hf)]
  exact ⟨fun p hn hw => (hp p ((mayWrite_iff hn).1 hw)).finish hn, hs⟩

end

/-- Settles O29: reads of pieces that hold a value answer alike at any two draws, so the two runs come out alike. -/
theorem engineIsDeterministic : Obligations.EngineIsDeterministic := by
  intro ν H i d1 d2 e1 e2 _ hreads
  have h : ReadsAlike H d1 d2 e1 e2 i := fun p hp => readsSame_of_held H d1 d2 (hreads p hp).1 (hreads p hp).2
  exact ⟨h.faultOf, fun f hf => h.faultEntry hf, h.command⟩

end Sys2Proof.Machine
end

section
/-! PROOFS. What one step can do to the engine, said once (`step_cases`), and the idle and the reset machine
(10_state.md R46, R47; 70_reset_and_hazards.md R280, R283). -/

namespace Sys2Proof.Machine

variable {ν : Type}

/-! ### What one step can do -/

theorem engineMove_of_idle {s : State} (h : s.busy = false) : engineMove s = .next s := by simp [engineMove, h]

/-- The engine's move does nothing while idle, and is the completing step of the generic engine while busy. -/
theorem engineMove_cases {s t : State} (h : engineMove s = .next t) :
    t = s ∨ (s.busy = true ∧ t.toEngine = completeEngine Config.params s.draws s.toEngine) := by
  cases hb : s.busy with
  | false =>
    rw [engineMove_of_idle hb] at h
    cases h
    exact .inl rfl
  | true =>
    refine .inr ⟨rfl, ?_⟩
    cases hd : decode (fetch s.toEngine) with
    | ok i =>
      simp only [engineMove, hb, hd, if_true, exec_eq_command] at h
      cases h
      simp only [completeEngine, hd]
    | error _ =>
      simp only [engineMove, hb, hd, if_true, execIllegal, onEngine] at h
      cases h
      simp only [completeEngine, hd]

/-- A bus write is a host action that exists, or it leaves the engine as it is. -/
theorem busEffect_cases (b : BusAccess) (d : Nat) (w : Word) (e : Engine NumVal) :
    busEffect Config.params d w (busTarget b) e = e ∨ ∃ a, actionExists Config.params a = true ∧
      busEffect Config.params d w (busTarget b) e = actionEffect Config.params a e := by
  cases ha : busWrite Config.params d w e (busTarget b) with
  | none => exact .inl (by simp only [busEffect, ha])
  | some a => exact .inr ⟨a, busWrite_exists Config.ew_pos ha, busEffect_of_some ha⟩

/-- A step leaves the engine alone, completes the command in progress, performs a host action that exists, or resets. -/
theorem step_cases {s t : State} (h : step s = .next t) :
    t.toEngine = s.toEngine ∨
    (s.busy = true ∧ t.toEngine = completeEngine Config.params (s.draws + 1) s.toEngine) ∨
    (∃ a, actionExists Config.params a = true ∧ t.toEngine = actionEffect Config.params a s.toEngine) ∨
    t.toEngine = hardReset Config.params s.toEngine := by
  unfold step at h
  split at h
  · split at h
    · rcases engineMove_cases h with rfl | hc
      · exact .inl rfl
      · exact .inr (.inl hc)
    · cases h
      exact .inl rfl
  · rcases engineMove_cases h with rfl | hc
    · exact .inl rfl
    · exact .inr (.inl hc)
  · rename_i a rest _
    unfold hostAct at h
    split at h
    · cases h
      exact .inr (.inr (.inl ⟨a, ‹_›, rfl⟩))
    · cases h
  · rename_i b rest _
    unfold busAct at h
    split at h
    · cases h
    split at h
    · cases h
    split at h
    · cases h
      exact .inl rfl
    · rename_i w _
      cases h
      exact (busEffect_cases b _ w _).imp_right fun h => .inr (.inl h)
  · cases h
    exact .inr (.inr (.inr rfl))

/-! ### The idle machine -/

/-- An idle machine with nothing scheduled stays as it is. -/
theorem step_of_idle {s : State} (h : s.busy = false) (hs : s.script = []) : step s = .next s := by simp [step, hs, h]

/-- Settles O6: the engine's move is the identity while idle. -/
theorem idleEngineStays : Obligations.IdleEngineStays := by
  refine fun s hb => ⟨step_of_idle hb, fun rest hs => ⟨{ s with script := rest, draws := s.draws + 1 }, ?_, rfl, rfl⟩⟩
  simp only [step, hs]
  exact engineMove_of_idle hb

/-! ### Reset -/

section
variable (z : ν)

@[simp] theorem reset_readSlot (i : Slot) : readSlot (Engine.reset z) i = 0#32 := by cases i <;> rfl
@[simp] theorem reset_busy : (Engine.reset z).busy = false := by simp [Engine.busy, Engine.reset]
@[simp] theorem reset_irq : (Engine.reset z).irq = false := by simp [Engine.irq, Engine.ieDone, Engine.ieErr, Engine.reset]
@[simp] theorem reset_vreg (j : VReg) : (Engine.reset z).vreg j = [] := by cases j <;> rfl

end

theorem step_of_rst {s : State} {rest : List (Event NumVal)} (h : s.script = .rst :: rest) :
    step s = .next { s with toEngine := Engine.reset Config.num.zero, script := rest, draws := s.draws + 1 } := by
  simp [step, h, hardReset]

/-- Settles O8: the initial state and every state after the reset input hold the reset engine. -/
theorem resetValues : Obligations.ResetValues := by
  refine ⟨fun t ht => ?_, fun s rest hs => ⟨_, step_of_rst hs, rfl⟩⟩
  have he : t.toEngine = Engine.reset Config.num.zero := by
    rcases ht with rfl | ⟨s, rest, hs, h⟩
    · rfl
    · rw [step_of_rst hs] at h
      cases h
      rfl
  have hb : t.busy = false := by rw [he, reset_busy]
  rw [he]
  exact ⟨reset_readSlot _, reset_busy _, rfl, reset_irq _, fun j k => by rw [reset_vreg]; rfl, fun _ => rfl, fun _ => rfl,
    fun _ => rfl, step_of_idle hb⟩

/-- Settles O9: every buffer is empty and every register 0. -/
theorem resetMeetsInvariant : Obligations.ResetMeetsInvariant :=
  inv_engineReset (Nat.le_of_succ_le Config.pMax_ge) _

end Sys2Proof.Machine
end

section
/-! PROOFS. The host's writes to the registers, one rule each: the value stored and what is kept (10_state.md R23 to R34;
20_memory.md R67). -/

namespace Sys2Proof.Machine

variable {ν : Type}

/-! ### Control writes, bit by bit -/

/-- A host write to `STATUS` clears the bits 1 to 4 whose written value is 1 (R25). -/
theorem getLsbD_clearStatus (w : Word) (e : Engine ν) (n : Nat) :
    (clearStatus w e).status.getLsbD n = (e.status.getLsbD n && !(decide (1 ≤ n ∧ n ≤ 4) && w.getLsbD n)) := by
  by_cases hn : n < 32
  · have hbits : ∀ n < 32, w1cBits.getLsbD n = decide (1 ≤ n ∧ n ≤ 4) := by decide
    rw [clearStatus_status, BitVec.getLsbD_and, BitVec.getLsbD_not, BitVec.getLsbD_and, hbits n hn, decide_eq_true hn,
      Bool.true_and, Bool.and_comm (w.getLsbD n)]
  · simp only [BitVec.getLsbD_of_ge _ n (Nat.le_of_not_lt hn), Bool.false_and]

@[simp] theorem clearStatus_busy (w : Word) (e : Engine ν) : (clearStatus w e).busy = e.busy := by
  rw [Engine.busy, getLsbD_clearStatus, Engine.busy]
  simp

@[simp] theorem clearStatus_done (w : Word) (e : Engine ν) : (clearStatus w e).done = (e.done && !w.getLsbD 1) := by
  rw [Engine.done, getLsbD_clearStatus, Engine.done]
  simp

/-- A host write to `CTRL` without `SRST` keeps the two enables of the word (R24). -/
theorem getLsbD_writeEnables (w : Word) (e : Engine ν) (n : Nat) :
    (writeEnables w e).ctrl.getLsbD n = (w.getLsbD n && decide (n < 2)) := by
  by_cases hn : n < 32
  · have hbits : ∀ n < 32, (0x00000003#32).getLsbD n = decide (n < 2) := by decide
    rw [writeEnables_ctrl, BitVec.getLsbD_and, hbits n hn]
  · simp only [BitVec.getLsbD_of_ge _ n (Nat.le_of_not_lt hn), Bool.false_and]

theorem clearStatus_frame (W : Piece → Prop) (w : Word) (e : Engine ν) : Frame W e (clearStatus w e) := frame_status W _ e

theorem reject_frame (W : Piece → Prop) (e : Engine ν) : Frame W e (reject e) := frame_status W _ e

theorem getLsbD_reject (e : Engine ν) {n : Nat} (hn : n ≠ 2) : (reject e).status.getLsbD n = e.status.getLsbD n := by
  rw [reject_status, getLsbD_withBit, if_neg (by omega)]

theorem getLsbD_accept (w : Word) (e : Engine ν) {n : Nat} (hn : 2 ≤ n) :
    (accept w e).status.getLsbD n = e.status.getLsbD n := by
  rw [accept_status, getLsbD_withBit, getLsbD_withBit, if_neg (by omega), if_neg (by omega)]

/-- An accepted command changes no piece but `STATUS`: `CMDLATCH` is none of the pieces (R28). -/
theorem samePiece_accept (w : Word) (e : Engine ν) {p : Piece} (hp : p ≠ .csr .status) : SamePiece e (accept w e) p := by
  cases p with
  | csr i => cases i <;> simp_all [SamePiece, readSlot]
  | _ => simp [SamePiece]

theorem clearErr_frame (e : Engine ν) : Frame (fun p => p = .csr .err) e (clearErr e) where
  pieces p _ hw := by
    cases p with
    | csr i => cases i <;> simp_all [SamePiece, readSlot]
    | _ => simp [SamePiece]
  latch := rfl

theorem writeEnables_frame (w : Word) (e : Engine ν) : Frame (fun p => p = .csr .ctrl) e (writeEnables w e) where
  pieces p _ hw := by
    cases p with
    | csr i => cases i <;> simp_all [SamePiece, readSlot]
    | _ => simp [SamePiece]
  latch := rfl

theorem writeCmd_of_accepted {e : Engine ν} (w : Word) (hb : e.busy = false) (hc : e.code = 0) :
    writeCmd w e = accept w e := by simp [writeCmd, hb, hc]

theorem writeCmd_of_dropped {e : Engine ν} (w : Word) (h : e.busy = true ∨ e.code ≠ 0) : writeCmd w e = reject e := by
  rcases h with h | h <;> simp [writeCmd, h]

theorem whenIdle_of_idle {e : Engine ν} (f : Engine ν → Engine ν) (h : e.busy = false) : whenIdle f e = f e := by
  simp [whenIdle, h]

theorem whenIdle_of_busy {e : Engine ν} (f : Engine ν → Engine ν) (h : e.busy = true) : whenIdle f e = reject e := by
  simp [whenIdle, h]

/-! ### The config registers -/

/-- A config register: one of the six that the host writes only while the engine is idle (R29 to R34, R284). -/
def IsConfig (r : Slot) : Prop := r = .period ∨ r = .duty ∨ r = .sRate ∨ r = .recLen ∨ r = .blk ∨ r = .divFloor

/-- The engine with the config register `r` as given. -/
def setConfig (r : Slot) (w : Word) (e : Engine ν) : Engine ν :=
  match r with
  | .period => { e with period := w }
  | .duty => { e with duty := w }
  | .sRate => { e with sRate := w }
  | .recLen => { e with recLen := w }
  | .blk => { e with blk := w }
  | .divFloor => { e with divFloor := w }
  | _ => e

theorem writeSlot_config (H : Params ν) {r : Slot} (hr : IsConfig r) (w : Word) (e : Engine ν) :
    writeSlot H r w e = whenIdle (setConfig r w) e := by
  rcases hr with rfl | rfl | rfl | rfl | rfl | rfl <;> rfl

section
variable (r : Slot) (w : Word) (e : Engine ν)

@[simp] theorem setConfig_ctrl : (setConfig r w e).ctrl = e.ctrl := by cases r <;> rfl
@[simp] theorem setConfig_status : (setConfig r w e).status = e.status := by cases r <;> rfl
@[simp] theorem setConfig_err : (setConfig r w e).err = e.err := by cases r <;> rfl
@[simp] theorem setConfig_nBlk : (setConfig r w e).nBlk = e.nBlk := by cases r <;> rfl
@[simp] theorem setConfig_peakIdx : (setConfig r w e).peakIdx = e.peakIdx := by cases r <;> rfl
@[simp] theorem setConfig_delayMs : (setConfig r w e).delayMs = e.delayMs := by cases r <;> rfl
@[simp] theorem setConfig_acc : (setConfig r w e).acc = e.acc := by cases r <;> rfl
@[simp] theorem setConfig_res : (setConfig r w e).res = e.res := by cases r <;> rfl
@[simp] theorem setConfig_recording : (setConfig r w e).recording = e.recording := by cases r <;> rfl
@[simp] theorem setConfig_cmdLatch : (setConfig r w e).cmdLatch = e.cmdLatch := by cases r <;> rfl
@[simp] theorem setConfig_vreg (j : VReg) : (setConfig r w e).vreg j = e.vreg j := by cases r <;> cases j <;> rfl
@[simp] theorem setConfig_busy : (setConfig r w e).busy = e.busy := by simp [Engine.busy]
@[simp] theorem setConfig_done : (setConfig r w e).done = e.done := by simp [Engine.done]

end

theorem setConfig_readSlot {r : Slot} (hr : IsConfig r) (w : Word) (e : Engine ν) : readSlot (setConfig r w e) r = w := by
  rcases hr with rfl | rfl | rfl | rfl | rfl | rfl <;> rfl

theorem setConfig_readSlot_of_ne {r i : Slot} (hi : i ≠ r) (w : Word) (e : Engine ν) :
    readSlot (setConfig r w e) i = readSlot e i := by
  cases r <;> cases i <;> first | rfl | exact absurd rfl hi

theorem setConfig_frame (r : Slot) (w : Word) (e : Engine ν) : Frame (fun p => p = .csr r) e (setConfig r w e) where
  pieces p _ hw := by
    cases p with
    | csr i => exact setConfig_readSlot_of_ne (fun h => hw (congrArg Piece.csr h)) w e
    | _ => simp [SamePiece]
  latch := by simp

/-! ### The elements -/

/-- The engine with element `k` of register `j` as given. -/
def storeVec (j : VReg) (k : Nat) (z : Cx ν) (e : Engine ν) : Engine ν := setVreg j (store k z (e.vreg j)) e

/-- The engine with element `n` of `ACC` as given. -/
def storeAcc (n : Nat) (x : ν) (e : Engine ν) : Engine ν := { e with acc := store n x e.acc }

/-- The engine with element `n` of `RES` as given. -/
def storeRes (n : Nat) (x : ν) (e : Engine ν) : Engine ν := { e with res := store n x e.res }

theorem actionEffect_writeV (H : Params ν) (j : VReg) (k : Nat) (z : Cx ν) (e : Engine ν) :
    actionEffect H (.writeV j k z) e = whenIdle (storeVec j k z) e := rfl

theorem actionEffect_writeAcc (H : Params ν) (n : Nat) (x : ν) (e : Engine ν) :
    actionEffect H (.writeAcc n x) e = whenIdle (storeAcc n x) e := rfl

theorem actionEffect_writeRes (H : Params ν) (n : Nat) (x : ν) (e : Engine ν) :
    actionEffect H (.writeRes n x) e = whenIdle (storeRes n x) e := rfl

/-- The slots whose write is ignored (R23). -/
theorem writeSlot_readOnly (H : Params ν) {r : Slot}
    (hr : r = .errCmd ∨ r = .nBlk ∨ r = .accCnt ∨ r = .degenCnt ∨ r = .peakIdx ∨ r = .reserved) (w : Word) (e : Engine ν) :
    writeSlot H r w e = e := by
  rcases hr with rfl | rfl | rfl | rfl | rfl | rfl <;> rfl

end Sys2Proof.Machine
end

section
/-! PROOFS. Every step keeps the invariant: each host action, each command and reset does, and `step_cases` says that a
step is one of these. -/

namespace Sys2Proof.Machine

variable {ν : Type} {H : Params ν} {e : Engine ν}

/-! ### Host writes to the registers -/

theorem inv_accept (w : Word) (h : Inv H e) (hc : e.code = 0) : Inv H (accept w e) where
  v := by simpa using h.v
  acc := by simpa using h.acc
  res := by simpa using h.res
  recording := by simpa using h.recording
  ctrlReserved := by simpa using h.ctrlReserved
  statusReserved n hn := (getLsbD_accept w e (by omega)).trans (h.statusReserved n hn)
  errRange := by simpa using h.errRange
  busyClear := by simp [err_eq_zero h hc]
  doneClear := by simp
  nBlkRange := by simpa using h.nBlkRange
  peakRange := by simpa using h.peakRange

theorem inv_clearStatus (w : Word) (h : Inv H e) : Inv H (clearStatus w e) where
  v := by simpa using h.v
  acc := by simpa using h.acc
  res := by simpa using h.res
  recording := by simpa using h.recording
  ctrlReserved := by simpa using h.ctrlReserved
  statusReserved n hn := by rw [getLsbD_clearStatus, h.statusReserved n hn, Bool.false_and]
  errRange := by simpa using h.errRange
  busyClear hb := by simp [h.busyClear (by simpa using hb)]
  doneClear hd := h.doneClear (by rw [clearStatus_done, Bool.and_eq_true] at hd; exact hd.1)
  nBlkRange := by simpa using h.nBlkRange
  peakRange := by simpa using h.peakRange

theorem inv_clearErr (h : Inv H e) : Inv H (clearErr e) where
  v := by simpa using h.v
  acc := h.acc
  res := h.res
  recording := h.recording
  ctrlReserved := h.ctrlReserved
  statusReserved := h.statusReserved
  errRange := Nat.zero_le _
  busyClear hb := ⟨(h.busyClear hb).1, rfl⟩
  doneClear _ := rfl
  nBlkRange := h.nBlkRange
  peakRange := h.peakRange

theorem inv_writeEnables (w : Word) (h : Inv H e) : Inv H (writeEnables w e) where
  v := by simpa using h.v
  acc := h.acc
  res := h.res
  recording := h.recording
  ctrlReserved n hn := by rw [getLsbD_writeEnables, decide_eq_false (by omega), Bool.and_false]
  statusReserved := h.statusReserved
  errRange := h.errRange
  busyClear := h.busyClear
  doneClear := h.doneClear
  nBlkRange := h.nBlkRange
  peakRange := h.peakRange

theorem inv_setConfig (r : Slot) (w : Word) (h : Inv H e) : Inv H (setConfig r w e) where
  v := by simpa using h.v
  acc := by simpa using h.acc
  res := by simpa using h.res
  recording := by simpa using h.recording
  ctrlReserved := by simpa using h.ctrlReserved
  statusReserved := by simpa using h.statusReserved
  errRange := by simpa using h.errRange
  busyClear := by simpa using h.busyClear
  doneClear := by simpa using h.doneClear
  nBlkRange := by simpa using h.nBlkRange
  peakRange := by simpa using h.peakRange

/-- Soft reset keeps a part of each buffer and clears the rest (R281). -/
theorem inv_softReset (hp : 1 ≤ H.pMax) (h : Inv H e) : Inv H (softReset H e) where
  v j := by
    rw [softReset_vreg]
    exact bufferOk_forget _ (h.v j)
  acc := softReset_acc H e ▸ bufferOk_forget _ h.acc
  res := softReset_res H e ▸ bufferOk_forget _ h.res
  recording := h.recording
  ctrlReserved := (inv_engineReset hp H.num.zero).ctrlReserved
  statusReserved := (inv_engineReset hp H.num.zero).statusReserved
  errRange := (inv_engineReset hp H.num.zero).errRange
  busyClear := (inv_engineReset hp H.num.zero).busyClear
  doneClear := (inv_engineReset hp H.num.zero).doneClear
  nBlkRange := (inv_engineReset hp H.num.zero).nBlkRange
  peakRange := (inv_engineReset hp H.num.zero).peakRange

theorem inv_whenIdle {f : Engine ν → Engine ν} (h : Inv H e) (hf : Inv H (f e)) : Inv H (whenIdle f e) := by
  cases hb : e.busy with
  | true => exact whenIdle_of_busy f hb ▸ inv_reject h
  | false => exact whenIdle_of_idle f hb ▸ hf

theorem inv_writeCtrl (hp : 1 ≤ H.pMax) (w : Word) (h : Inv H e) : Inv H (writeCtrl H w e) := by
  unfold writeCtrl
  split
  · exact inv_softReset hp h
  · exact inv_writeEnables w h

theorem inv_writeCmd (w : Word) (h : Inv H e) : Inv H (writeCmd w e) := by
  by_cases hd : e.busy = true ∨ e.code ≠ 0
  · rw [writeCmd_of_dropped w hd]
    exact inv_reject h
  · rw [not_or, Bool.not_eq_true, not_not] at hd
    rw [writeCmd_of_accepted w hd.1 hd.2]
    exact inv_accept w h hd.2

theorem inv_writeSlot (hp : 1 ≤ H.pMax) (i : Slot) (w : Word) (h : Inv H e) : Inv H (writeSlot H i w e) := by
  by_cases hr : IsConfig i
  · rw [writeSlot_config H hr]
    exact inv_whenIdle h (inv_setConfig i w h)
  cases i with
  | ctrl => exact inv_writeCtrl hp w h
  | status => exact inv_clearStatus w h
  | err => exact inv_clearErr h
  | cmd => exact inv_writeCmd w h
  | period | duty | sRate | recLen | blk | divFloor => exact absurd (by simp [IsConfig]) hr
  | errCmd | nBlk | accCnt | degenCnt | peakIdx | reserved => exact h

/-! ### Host writes to the elements -/

theorem inv_storeVec (j : VReg) {k : Nat} (z : Cx ν) (hk : k < H.pMax) (h : Inv H e) :
    Inv H (storeVec j k z e) where
  v i := by
    rw [storeVec, setVreg_vreg]
    split
    · exact bufferOk_store z hk (h.v j)
    · exact h.v i
  acc := by simpa [storeVec] using h.acc
  res := by simpa [storeVec] using h.res
  recording := by simpa [storeVec] using h.recording
  ctrlReserved := by simpa [storeVec] using h.ctrlReserved
  statusReserved := by simpa [storeVec] using h.statusReserved
  errRange := by simpa [storeVec] using h.errRange
  busyClear := by simpa [storeVec, Engine.busy, Engine.done] using h.busyClear
  doneClear := by simpa [storeVec, Engine.done] using h.doneClear
  nBlkRange := by simpa [storeVec] using h.nBlkRange
  peakRange := by simpa [storeVec] using h.peakRange

theorem inv_storeAcc {n : Nat} (x : ν) (hn : n < H.pMax) (h : Inv H e) : Inv H (storeAcc n x e) where
  __ := h
  v j := by cases j; exacts [h.v .v0, h.v .v1, h.v .v2, h.v .v3]
  acc := bufferOk_store x hn h.acc

theorem inv_storeRes {n : Nat} (x : ν) (hn : n < H.pMax) (h : Inv H e) : Inv H (storeRes n x e) where
  __ := h
  v j := by cases j; exacts [h.v .v0, h.v .v1, h.v .v2, h.v .v3]
  res := bufferOk_store x hn h.res

/-- Every host action that exists keeps the invariant. -/
theorem inv_actionEffect (hp : 1 ≤ H.pMax) {a : HostAction ν} (ha : actionExists H a = true) (h : Inv H e) :
    Inv H (actionEffect H a e) := by
  cases a with
  | writeCsr i w => exact inv_writeSlot hp i w h
  | writeRec i c w =>
    have hi : i < H.recCap := of_decide_eq_true ha
    exact inv_whenIdle h (inv_memWrite h _ w (by cases c <;> simp only [sampleAddr, Channel.index] <;> omega))
  | writeV j k z => exact inv_whenIdle h (inv_storeVec j z (of_decide_eq_true ha) h)
  | writeAcc n x => exact inv_whenIdle h (inv_storeAcc x (of_decide_eq_true ha) h)
  | writeRes n x => exact inv_whenIdle h (inv_storeRes x (of_decide_eq_true ha) h)
  | readCsr | readRec | readV | readAcc | readRes | readDelayMs => exact h

/-! ### Commands -/

theorem effOk_synth (d : Nat) (hP : PeriodOk H e) (h : Inv H e) : EffOk H e (synthEffect H d e) := by
  obtain ⟨h2, -, hM⟩ := hP
  have k1 := (EffOk.refl h).sweep hM .v0 h2
  have k2 := k1.mirror (k1.P.trans_le hM) d .v0 (k1.P ▸ h2)
  have k3 := k2.ifft (k2.P.trans_le hM) d .v0 .v0
  exact k3.realp (k3.P.trans_le hM) d .v0

theorem effOk_estimate (d : Nat) (hP : PeriodOk H e) (hM : RecLenOk H e) (h : Inv H e) :
    EffOk H e (estimateEffect H d e) := by
  obtain ⟨h2, -, hp⟩ := hP
  have hb : (BitVec.ofNat 32 e.blocks).toNat ≤ H.recCap := by
    rw [BitVec.toNat_ofNat]
    exact (Nat.mod_le _ _).trans ((numBlocks_le _ _).trans hM)
  have k1 := (EffOk.refl h).setNBlk _ hb
  have k2 := (k1.aclr (k1.P.trans_le hp)).blocks hp d (List.range e.blocks)
  have k3 := k2.avg (k2.P.trans_le hp) d
  exact k3.peakEffect (k3.P.trans_le hp) d (k3.P ▸ h2)

/-- The effect of a command whose checks pass leaves the engine in order. -/
theorem effOk_effectOf {i : Instr} (d : Nat) (hf : faultOf H e i = none) (h : Inv H e) : EffOk H e (effectOf H d i e) := by
  by_cases hi : i = .nop
  · subst hi
    exact EffOk.refl h
  have hP := periodOk_of_faultOf_none hi hf
  have k := EffOk.refl h
  obtain ⟨h2, -, hp⟩ := id hP
  cases i with
  | nop => exact k
  | ldblk vd ch => exact k.ldblk hp d _ vd ch
  | fft vd va => exact k.fft hp d vd va
  | ifft vd va => exact k.ifft hp d vd va
  | sweep vd => exact k.sweep hp vd h2
  | mirror vd => exact k.mirror hp d vd h2
  | cdiv vd va vb => exact k.cdiv hp d vd va vb
  | aclr => exact k.aclr hp
  | accr va => exact k.accr hp d va
  | avg => exact k.avg hp d
  | realp va => exact k.realp hp d va
  | peak => exact k.peakEffect hp d h2
  | synth => exact effOk_synth d hP h
  | estimate =>
    have hr := firstFault_none hf (e.recLenValid H, .invalidParameter) (by simp [checksOf])
    exact effOk_estimate d hP ((recLenValid_iff H e).1 hr) h

theorem inv_command (d : Nat) (i : Instr) (h : Inv H e) (hb : e.busy = true) : Inv H (command H d i e) := by
  cases hf : faultOf H e i with
  | none => exact command_of_none d hf ▸ inv_finish h hb (effOk_effectOf d hf h)
  | some f => exact command_of_some d hf ▸ inv_raise f h hb

theorem inv_completeEngine (d : Nat) (h : Inv H e) (hb : e.busy = true) : Inv H (completeEngine H d e) := by
  unfold completeEngine
  split
  · exact inv_command d _ h hb
  · exact inv_raise _ h hb

/-- Settles O10: each of the four things a step can do keeps the invariant. -/
theorem stepKeepsInvariant : Obligations.StepKeepsInvariant := by
  intro s t h hst
  have hp : 1 ≤ Config.params.pMax := Nat.le_of_succ_le Config.pMax_ge
  rcases step_cases hst with ht | ⟨hb, ht⟩ | ⟨a, ha, ht⟩ | ht <;> rw [ht]
  · exact h
  · exact inv_completeEngine _ h hb
  · exact inv_actionEffect hp ha h
  · exact inv_engineReset hp _

end Sys2Proof.Machine
end

section
/-! PROOFS. The frame of every command (10_state.md R49): its effect writes the pieces of its row and no byte of `REC`. -/

namespace Sys2Proof.Machine

variable {ν : Type} {H : Params ν} {e : Engine ν}

/-- An effect changes only the write set of its command (R49). -/
theorem effectOf_frame (d : Nat) {i : Instr} (hf : faultOf H e i = none) :
    Frame (Written e.P i) e (effectOf H d i e) := by
  cases i with
  | nop => exact Frame.refl _ e
  | ldblk vd ch => exact ldblkEffect_frame H d e _ vd ch
  | fft vd va => exact fftEffect_frame H d e vd va
  | ifft vd va => exact ifftEffect_frame H d e vd va
  | sweep vd => exact sweepEffect_frame H e vd
  | mirror vd => exact mirrorEffect_frame H d e vd
  | cdiv vd va vb => exact cdivEffect_frame H d e vd va vb
  | aclr => exact aclrEffect_frame H e
  | accr va => exact accrEffect_frame H d e va
  | avg => exact avgEffect_frame H d e
  | realp va => exact realpEffect_frame H d e va
  | peak => exact peakEffect_frame H d e
  | synth => exact synthEffect_frame H d e (periodOk_of_faultOf_none (by simp) hf).pos
  | estimate => exact estimateOrder_frame H d _ e

/-- No effect writes `REC` (R43, R72). -/
theorem effectOf_recording (d : Nat) (i : Instr) : (effectOf H d i e).recording = e.recording := by
  cases i with
  | synth => simp [effectOf, synthEffect]
  | estimate =>
    have hc := (cleared_fields H e).2.2.1
    simp [effectOf, estimateEffect, estimateOrder_eq, (loopState H d _ _).recording, hc]
  | _ => simp [effectOf]

theorem command_recording (d : Nat) (i : Instr) : (command H d i e).recording = e.recording := by
  cases hf : faultOf H e i with
  | none => rw [command_of_none d hf, finish_recording, effectOf_recording]
  | some f => rw [command_of_some d hf, raise_recording]

theorem mayWrite_of_written {P : Nat} {i : Instr} {p : Piece} (h : Written P i p) : mayWrite P i p = true := by
  by_cases hp : p = .csr .status
  · subst hp
    rfl
  · exact (mayWrite_iff hp).2 h

/-- Settles O27: the effect's frame carries over the completion, which writes `STATUS` alone. -/
theorem commandFrame : Obligations.CommandFrame := by
  intro i s t h
  rw [exec_eq_command] at h
  cases h
  refine ⟨fun hf => ?_, command_recording _ i, rfl, rfl, rfl⟩
  rw [command_of_none _ hf]
  exact ((effectOf_frame _ hf).mono fun _ => mayWrite_of_written).finish

end Sys2Proof.Machine
end

section
/-! PROOFS. The valid patterns of `DUTY` (10_state.md R30; 00_scope.md R14): a pattern with the sign bit clear denotes a value
from 0 up that is below 1 exactly when its biased exponent is at most 126. -/

namespace Sys2Proof.Machine

/-! ### The fields of a pattern, by arithmetic on the word -/

theorem f32Exp_eq (w : Word) : f32Exp w = w.toNat / 2 ^ 23 % 2 ^ 8 := by
  simp [f32Exp, BitVec.extractLsb, Nat.shiftRight_eq_div_pow]

theorem f32Frac_eq (w : Word) : f32Frac w = w.toNat % 2 ^ 23 := by
  simp [f32Frac, BitVec.extractLsb]

theorem f32Sign_eq (w : Word) : f32Sign w = decide (2 ^ 31 ≤ w.toNat) :=
  (BitVec.msb_eq_getLsbD_last w).symm.trans (BitVec.msb_eq_decide w)

/-! ### The magnitude against 0 and 1 -/

theorem f32Magnitude_pos_iff (w : Word) : 0 < f32Magnitude w ↔ f32Exp w ≠ 0 ∨ f32Frac w ≠ 0 := by
  unfold f32Magnitude
  split
  · simp [*, Nat.pos_iff_ne_zero]
  · simp [*]

/-- The magnitude is below 1, which is `2^149` units, iff the biased exponent is at most 126. -/
theorem f32Magnitude_lt_one_iff (w : Word) : f32Magnitude w < 2 ^ 149 ↔ f32Exp w ≤ 126 := by
  have hf : f32Frac w < 2 ^ 23 := by rw [f32Frac_eq]; exact Nat.mod_lt _ (by decide)
  unfold f32Magnitude
  split
  · rename_i h0
    rw [h0]
    exact iff_of_true (hf.trans (by decide)) (by decide)
  constructor
  · intro h
    by_contra hx
    refine absurd h (Nat.not_lt.mpr ?_)
    calc 2 ^ 149 = 2 ^ 126 * 2 ^ 23 := by decide
      _ ≤ 2 ^ (f32Exp w - 1) * (2 ^ 23 + f32Frac w) :=
        Nat.mul_le_mul (Nat.pow_le_pow_right (by decide) (by omega)) (Nat.le_add_right _ _)
  · intro h
    calc 2 ^ (f32Exp w - 1) * (2 ^ 23 + f32Frac w) < 2 ^ (f32Exp w - 1) * 2 ^ 24 :=
          Nat.mul_lt_mul_of_pos_left (by omega) (by positivity)
      _ ≤ 2 ^ 125 * 2 ^ 24 := Nat.mul_le_mul_right _ (Nat.pow_le_pow_right (by decide) (by omega))
      _ = 2 ^ 149 := by decide

/-- A value is positive only with the sign bit clear. -/
theorem f32Units_pos_iff (w : Word) : 0 < f32Units w ↔ f32Sign w = false ∧ 0 < f32Magnitude w := by
  unfold f32Units
  cases f32Sign w <;> simp

theorem f32Units_of_nonneg {w : Word} (h : f32Sign w = false) : f32Units w = f32Magnitude w := by simp [f32Units, h]

/-- Validity of `DUTY` in terms of the pattern's fields (R30). -/
theorem dutyOk_iff_fields {ν : Type} (e : Engine ν) :
    DutyOk e ↔ f32Sign e.duty = false ∧ (f32Exp e.duty ≠ 0 ∨ f32Frac e.duty ≠ 0) ∧ f32Exp e.duty ≤ 126 := by
  rw [DutyOk, f32val_pos_iff, f32val_lt_one_iff, f32Units_pos_iff, f32Magnitude_pos_iff]
  constructor
  · rintro ⟨-, ⟨hs, hm⟩, h1⟩
    rw [f32Units_of_nonneg hs] at h1
    exact ⟨hs, hm, (f32Magnitude_lt_one_iff _).1 (by exact_mod_cast h1)⟩
  · rintro ⟨hs, hm, h1⟩
    rw [f32Units_of_nonneg hs]
    refine ⟨by simp [f32Finite]; omega, ⟨hs, hm⟩, ?_⟩
    exact_mod_cast (f32Magnitude_lt_one_iff _).2 h1

/-- Settles O31: sign bit clear, not zero, biased exponent at most 126. -/
theorem dutyValidRange : Obligations.DutyValidRange := by
  intro e
  have hw := e.duty.isLt
  rw [dutyOk_iff_fields, f32Sign_eq, f32Exp_eq, f32Frac_eq, decide_eq_false_iff_not]
  omega

end Sys2Proof.Machine
end

section
/-! PROOFS. What a scheduled host action does in the machine: reads and writes of the registers and the elements, and the
interrupt output (10_state.md R23 to R34, R48; 20_memory.md R67). -/

namespace Sys2Proof.Machine

variable {ν : Type}

/-- Settles O33: `writeCmd` accepts or drops, and either way writes `STATUS` and `CMDLATCH` alone. -/
theorem cmdWriteAcceptedOrDropped : Obligations.CmdWriteAcceptedOrDropped := by
  intro s w rest hs
  by_cases hd : s.busy = true ∨ s.code ≠ 0
  · refine ⟨_, step_host hs rfl (writeCmd_of_dropped w hd), rfl, rfl, fun p hp => ?_, fun hb hc => ?_, fun _ => ?_⟩
    · exact (reject_frame (fun _ => False) s.toEngine).pieces p hp id
    · simp [hb, hc] at hd
    · exact ⟨rfl, reject_rej _, fun _ hn => getLsbD_reject _ hn⟩
  · have ha := hd
    rw [not_or, Bool.not_eq_true, not_not] at ha
    refine ⟨_, step_host hs rfl (writeCmd_of_accepted w ha.1 ha.2), rfl, rfl, fun p hp => samePiece_accept w _ hp,
      fun _ _ => ?_, fun h => absurd h hd⟩
    exact ⟨rfl, accept_busy _ w, accept_done _ w, fun _ hn => getLsbD_accept w _ hn⟩

/-! ### Writes while idle -/

section
variable (e : Engine ν)

theorem storeVec_frame (j : VReg) (k : Nat) (z : Cx ν) : Frame (fun p => p = .vec j k) e (storeVec j k z e) where
  pieces p _ hw := by
    cases p with
    | csr i => cases i <;> simp [SamePiece, readSlot, storeVec]
    | vec i m =>
      show lookup m ((setVreg j _ e).vreg i) = lookup m (e.vreg i)
      rw [setVreg_vreg]
      split
      · rename_i h
        subst h
        rw [lookup_store, if_neg fun h => hw (by rw [h])]
      · rfl
    | _ => simp [SamePiece, storeVec]
  latch := by simp [storeVec]

theorem storeAcc_frame (n : Nat) (x : ν) : Frame (fun p => p = .acc n) e (storeAcc n x e) where
  pieces p _ hw := by
    cases p with
    | csr i => cases i <;> rfl
    | vec j k => cases j <;> rfl
    | acc m => exact (lookup_store ..).trans (if_neg fun h => hw (congrArg Piece.acc h))
    | _ => rfl
  latch := rfl

theorem storeRes_frame (n : Nat) (x : ν) : Frame (fun p => p = .res n) e (storeRes n x e) where
  pieces p _ hw := by
    cases p with
    | csr i => cases i <;> rfl
    | vec j k => cases j <;> rfl
    | res m => exact (lookup_store ..).trans (if_neg fun h => hw (congrArg Piece.res h))
    | _ => rfl
  latch := rfl

/-- `MemWrite` writes the four bytes from its address up (R17, R62). -/
theorem memWrite_frame (a : Nat) (w : Word) : Frame (fun p => ∃ b < 4, p = .byte (a + b)) e (memWrite a w e) where
  pieces p _ hw := by
    cases p with
    | csr i => cases i <;> rfl
    | byte c =>
      have hc : ∀ b < 4, c ≠ a + b := fun b hb h => hw ⟨b, hb, congrArg Piece.byte h⟩
      show lookup c (memWrite a w e).recording = lookup c e.recording
      simp only [memWrite, lookup_store]
      rw [if_neg (hc 3 (by omega)), if_neg (hc 2 (by omega)), if_neg (hc 1 (by omega)),
        if_neg (by simpa using hc 0 (by omega))]
    | _ => simp [SamePiece]
  latch := rfl

@[simp] theorem storeVec_status (j : VReg) (k : Nat) (z : Cx ν) : (storeVec j k z e).status = e.status := by simp [storeVec]

theorem lookup_storeVec (j : VReg) (k : Nat) (z : Cx ν) : lookup k ((storeVec j k z e).vreg j) = some z := by
  rw [storeVec, setVreg_vreg_self, lookup_store, if_pos rfl]

theorem lookup_storeAcc (n : Nat) (x : ν) : lookup n (storeAcc n x e).acc = some x :=
  (lookup_store ..).trans (if_pos rfl)

theorem lookup_storeRes (n : Nat) (x : ν) : lookup n (storeRes n x e).res = some x :=
  (lookup_store ..).trans (if_pos rfl)

end

/-- Settles O35: each write is `whenIdle` of one store, whose value and frame are the lemmas above. -/
theorem idleWritesTakeEffect : Obligations.IdleWritesTakeEffect := by
  intro s rest hb
  refine ⟨fun r w hr hs => ?_, fun i c w hi hs => ?_, fun j k z hk hs => ?_, fun n x hn hs => ?_, fun n x hn hs => ?_⟩
  · have he := (writeSlot_config Config.params hr w s.toEngine).trans (whenIdle_of_idle _ hb)
    exact ⟨_, step_host hs rfl he, setConfig_readSlot hr w _, setConfig_status r w _, setConfig_frame r w _⟩
  · refine ⟨_, step_host hs (decide_eq_true hi) (whenIdle_of_idle _ hb), fun d => memRead_memWrite _ d _ w _, rfl, ?_⟩
    cases c <;> exact memWrite_frame _ _ w
  · exact ⟨_, step_host hs (decide_eq_true hk) (whenIdle_of_idle (storeVec j k z) hb), lookup_storeVec _ j k z,
      storeVec_status _ j k z, storeVec_frame _ j k z⟩
  · exact ⟨_, step_host hs (decide_eq_true hn) (whenIdle_of_idle (storeAcc n x) hb), lookup_storeAcc _ n x, rfl,
      storeAcc_frame _ n x⟩
  · exact ⟨_, step_host hs (decide_eq_true hn) (whenIdle_of_idle (storeRes n x) hb), lookup_storeRes _ n x, rfl,
      storeRes_frame _ n x⟩

/-! ### Control writes -/

theorem writeCtrl_of_enables (H : Params ν) {w : Word} (hw : w.getLsbD 31 = false) (e : Engine ν) :
    writeCtrl H w e = writeEnables w e := by
  rw [writeCtrl, hw, if_neg Bool.false_ne_true]

theorem clearErr_code (e : Engine ν) : (clearErr e).code = 0 := rfl

/-- Settles O36: the control registers are written alike, idle and busy. -/
theorem controlWrites : Obligations.ControlWrites := by
  intro s w rest
  refine ⟨fun hs hw => ?_, fun hs => ?_, fun hs => ?_, fun r hr hs => ?_⟩
  · have hbit := getLsbD_writeEnables w s.toEngine
    exact ⟨_, step_host hs rfl (writeCtrl_of_enables Config.params hw s.toEngine), (hbit 0).trans (Bool.and_true _),
      (hbit 1).trans (Bool.and_true _), fun n hn => by rw [hbit, decide_eq_false (by omega), Bool.and_false], rfl, writeEnables_frame w _⟩
  · exact ⟨_, step_host (e := clearStatus w s.toEngine) hs rfl rfl, getLsbD_clearStatus w _, clearStatus_frame _ w _⟩
  · exact ⟨_, step_host (e := clearErr s.toEngine) hs rfl rfl, clearErr_code _, rfl, rfl, clearErr_frame _⟩
  · exact ⟨_, step_host hs rfl (writeSlot_readOnly Config.params hr w s.toEngine), rfl⟩

/-! ### Reads -/

theorem resultSlot_iff (r : Slot) : resultSlot r = true ↔ r = .nBlk ∨ r = .accCnt ∨ r = .degenCnt ∨ r = .peakIdx := by
  cases r <;> decide

/-- Outside the result registers, or while idle, a read of a slot answers its value (R67, R285). -/
theorem actionReply_readCsr (H : Params ν) (d : Nat) {e : Engine ν} {r : Slot} (h : e.busy = false ∨ resultSlot r = false) :
    actionReply H d e (.readCsr r) = .word (readSlot e r) := by
  rcases h with h | h <;> simp [actionReply, h]

/-- Settles O38: a read has no effect, and answers `readSlot`. -/
theorem csrReads : Obligations.CsrReads := by
  intro s r rest hs
  refine ⟨_, step_host (e := s.toEngine) hs rfl rfl, rfl, rfl, fun h => ?_⟩
  have hq : s.busy = false ∨ resultSlot r = false := h.imp_right fun h => by
    rwa [← Bool.not_eq_true, resultSlot_iff]
  simp only [actionReply_readCsr Config.params (s.draws + 1) hq]
  cases r <;> rfl

/-! ### The interrupt output -/

/-- `ERR.CODE` is the low four bits of `ERR` (R26). -/
theorem code_eq (e : Engine ν) : e.code = (e.err.extractLsb' 0 4).toNat := rfl

/-- Settles O41: the two terms of R48. -/
theorem interruptLevel : Obligations.InterruptLevel := by
  intro s
  simp [Engine.irq, Engine.ieDone, Engine.ieErr, Engine.done, code_eq]

end Sys2Proof.Machine
end

section
/-! PROOFS. Bus writes in the element windows (20_memory.md R65, R66): the word that is addressed is replaced in the image of
the element. -/

namespace Sys2Proof.Machine

/-- The number after a bus write of word `u` is the decoded image with word `u` replaced (R66). -/
theorem splice_image (u : Nat) (w : Word) (x : NumVal) (hu : u < Config.ew) :
    ∃ image : Config.Image, splice Config.num u w x = Config.dec image ∧
      ∀ v, v < Config.ew → image.extractLsb' (32 * v) 32 = if v = u then w else x.image.extractLsb' (32 * v) 32 :=
  ⟨spliceImage u w x.image, rfl, fun v hv => spliceImage_word u v w x.image hu hv⟩

/-- The step of a bus write to a target, given the engine it leaves. -/
theorem step_busWrite {s : State} {o : Nat} {w : Word} {rest : List (Event NumVal)} {g : Target} {e : Engine NumVal}
    (h : s.script = .bus ⟨Config.map.base + o, 4, some w⟩ :: rest) (ho : o % 4 = 0) (hg : locate Config.params o = g)
    (he : busEffect Config.params (s.draws + 1) w g s.toEngine = e) :
    step s = .next { s with toEngine := e, script := rest, draws := s.draws + 1 } :=
  he ▸ (step_bus h rfl rfl ho hg).2 w rfl

/-! ### The windows: each write is a store under `whenIdle`, so that the idle and the busy case share one step -/

section
variable {s : State} {u : Nat} {w : Word} {rest : List (Event NumVal)}

theorem step_resWindow {n : Nat} {x : NumVal} (hn : n < Config.pMax) (hu : u < Config.ew)
    (hx : readRes Config.params (s.draws + 1) s.toEngine n = x)
    (h : s.script = .bus ⟨Config.map.base + (Config.map.offRes + 4 * Config.ew * n + 4 * u), 4, some w⟩ :: rest) :
    step s = .next { s with
      toEngine := whenIdle (storeRes n (splice Config.num u w x)) s.toEngine, script := rest, draws := s.draws + 1 } := by
  obtain ⟨-, hRes, -⟩ := Config.map_fits
  subst hx
  exact step_busWrite h (by rw [Nat.mul_assoc]; omega) (locate_res n u hn hu) rfl

theorem step_accWindow {n : Nat} {x : NumVal} (hn : n < Config.pMax) (hu : u < Config.ew)
    (hx : readAcc Config.params (s.draws + 1) s.toEngine n = x)
    (h : s.script = .bus ⟨Config.map.base + (Config.map.offAcc + 4 * Config.ew * n + 4 * u), 4, some w⟩ :: rest) :
    step s = .next { s with
      toEngine := whenIdle (storeAcc n (splice Config.num u w x)) s.toEngine, script := rest, draws := s.draws + 1 } := by
  obtain ⟨-, -, hAcc, -⟩ := Config.map_fits
  subst hx
  exact step_busWrite h (by rw [Nat.mul_assoc]; omega) (locate_acc n u hn hu) rfl

/-- The offset of the real or the imaginary part of element `k` of register `j` (R65). -/
def vecOffset (j : VReg) (k : Nat) (imag : Bool) : Nat :=
  Config.map.offV + 8 * Config.ew * Config.pMax * VReg.index j + 8 * Config.ew * k + if imag then 4 * Config.ew else 0

theorem vecOffset_aligned (j : VReg) (k : Nat) (imag : Bool) : vecOffset j k imag % 4 = 0 := by
  obtain ⟨-, -, -, hV, -⟩ := Config.map_fits
  rw [vecOffset, Nat.mul_assoc, Nat.mul_assoc, Nat.mul_assoc]
  split <;> omega

theorem step_vecWindow {j : VReg} {k o : Nat} {z : Cx NumVal} {x : NumVal} (imag : Bool) (hk : k < Config.pMax)
    (hu : u < Config.ew) (hz : readV Config.params (s.draws + 1) .host s.toEngine j k = z) (hx : partOf imag z = x)
    (ho : o = vecOffset j k imag)
    (h : s.script = .bus ⟨Config.map.base + (o + 4 * u), 4, some w⟩ :: rest) :
    step s = .next { s with
      toEngine := whenIdle (storeVec j k (withPart imag (splice Config.num u w x) z)) s.toEngine
      script := rest, draws := s.draws + 1 } := by
  have ha := vecOffset_aligned j k imag
  subst hx hz ho
  exact step_busWrite h (by omega) (locate_vec j k u imag hk hu) rfl

end

/-- Settles O44: every window write is one store of the spliced number, made when idle and dropped while busy. -/
theorem windowWriteSplicesImage : Obligations.WindowWriteSplicesImage := by
  intro s u w x rest hu d writeAt Spliced Only
  have hy : Spliced (splice Config.num u w x) := splice_image u w x hu
  refine ⟨fun hb => ⟨fun n hn hx hs => ?_, fun n hn hx hs => ?_, fun j k hk z hz => ⟨fun hx hs => ?_, fun hx hs => ?_⟩⟩,
    fun hb n hn hs => ?_, fun hs => ?_⟩
  · have h := step_resWindow hn hu hx hs
    rw [whenIdle_of_idle _ hb] at h
    exact ⟨_, _, h, lookup_storeRes _ n _, hy, rfl, storeRes_frame _ n _⟩
  · have h := step_accWindow hn hu hx hs
    rw [whenIdle_of_idle _ hb] at h
    exact ⟨_, _, h, lookup_storeAcc _ n _, hy, rfl, storeAcc_frame _ n _⟩
  · have h := step_vecWindow false hk hu hz hx (by simp [vecOffset]) hs
    rw [whenIdle_of_idle _ hb] at h
    exact ⟨_, _, h, lookup_storeVec _ j k _, hy, storeVec_status _ j k _, storeVec_frame _ j k _⟩
  · have h := step_vecWindow true hk hu hz hx (by simp [vecOffset]) hs
    rw [whenIdle_of_idle _ hb] at h
    exact ⟨_, _, h, lookup_storeVec _ j k _, hy, storeVec_status _ j k _, storeVec_frame _ j k _⟩
  · rcases hs with hs | hs | ⟨j, y, rfl | rfl, hs⟩
    · exact ⟨_, step_resWindow hn hu rfl hs, whenIdle_of_busy _ hb⟩
    · exact ⟨_, step_accWindow hn hu rfl hs, whenIdle_of_busy _ hb⟩
    · exact ⟨_, step_vecWindow (j := j) false hn hu rfl rfl (by simp [vecOffset]) hs, whenIdle_of_busy _ hb⟩
    · exact ⟨_, step_vecWindow (j := j) true hn hu rfl rfl (by simp [vecOffset]) hs, whenIdle_of_busy _ hb⟩
  · exact ⟨_, step_busWrite hs (by omega) (locate_delayMs u hu) (busEffect_delayMs ..), rfl⟩

end Sys2Proof.Machine
end

section
/-! PROOFS. The host's reads of the elements and the samples, and the actions that do not exist (20_memory.md R61, R64, R67;
70_reset_and_hazards.md R285). -/

namespace Sys2Proof.Machine

variable {ν : Type} {H : Params ν} {d : Nat} {e : Engine ν}

/-! ### What a read answers -/

theorem actionReply_readV {j : VReg} {k : Nat} {z : Cx ν} (hb : e.busy = false) (hz : lookup k (e.vreg j) = some z) :
    actionReply H d e (.readV j k) = .cx z := by
  simp [actionReply, hb, readV_of_lookup hz]

theorem actionReply_readAcc {n : Nat} {x : ν} (hb : e.busy = false) (hx : lookup n e.acc = some x) :
    actionReply H d e (.readAcc n) = .num x := by
  simp [actionReply, hb, readAcc_of_lookup hx]

theorem actionReply_readRes {n : Nat} {x : ν} (hb : e.busy = false) (hx : lookup n e.res = some x) :
    actionReply H d e (.readRes n) = .num x := by
  simp [actionReply, hb, readRes_of_lookup hx]

theorem actionReply_readDelayMs (hb : e.busy = false) : actionReply H d e .readDelayMs = .num e.delayMs := by
  simp [actionReply, hb]

/-- A word of `REC` whose four bytes are written is these bytes, the first one least significant (R62). -/
theorem memRead_of_lookup {a : Nat} {b0 b1 b2 b3 : Byte} (h0 : lookup a e.recording = some b0)
    (h1 : lookup (a + 1) e.recording = some b1) (h2 : lookup (a + 2) e.recording = some b2)
    (h3 : lookup (a + 3) e.recording = some b3) : memRead H d e a = b3 ++ b2 ++ b1 ++ b0 := by
  rw [memRead, readByte_of_lookup h0, readByte_of_lookup h1, readByte_of_lookup h2, readByte_of_lookup h3]

/-! ### The steps -/

/-- The step of a read that exists, given what it answers. -/
theorem step_hostRead {s : State} {a : HostAction NumVal} {rest : List (Event NumVal)} {r : Reply NumVal}
    (h : s.script = .host a :: rest) (ha : actionExists Config.params a = true)
    (he : actionEffect Config.params a s.toEngine = s.toEngine)
    (hr : actionReply Config.params (s.draws + 1) s.toEngine a = r) :
    step s = .next { s with script := rest, reply := replyAfter r s.reply, draws := s.draws + 1 } :=
  hr ▸ step_host h ha he

/-- Settles O39: a read leaves the engine, and answers with what is written. -/
theorem elementReads : Obligations.ElementReads := by
  intro s rest
  refine ⟨fun a hs ha => ?_, fun j k z hs hk hb hz => ?_, fun n x hs hn hb hx => ?_, fun n x hs hn hb hx => ?_,
    fun hs hb => ?_, fun i c b0 b1 b2 b3 hs hi h0 h1 h2 h3 => ?_⟩
  · rcases ha with ⟨r, rfl⟩ | ⟨i, c, rfl, hi⟩ | ⟨j, k, rfl, hk⟩ | ⟨n, rfl | rfl, hn⟩ | rfl
    · exact ⟨_, step_hostRead hs rfl rfl rfl, rfl, rfl⟩
    · exact ⟨_, step_hostRead hs (decide_eq_true hi) rfl rfl, rfl, rfl⟩
    · exact ⟨_, step_hostRead hs (decide_eq_true hk) rfl rfl, rfl, rfl⟩
    · exact ⟨_, step_hostRead hs (decide_eq_true hn) rfl rfl, rfl, rfl⟩
    · exact ⟨_, step_hostRead hs (decide_eq_true hn) rfl rfl, rfl, rfl⟩
    · exact ⟨_, step_hostRead hs rfl rfl rfl, rfl, rfl⟩
  · exact ⟨_, step_hostRead hs (decide_eq_true hk) rfl (actionReply_readV hb hz), rfl, rfl⟩
  · exact ⟨_, step_hostRead hs (decide_eq_true hn) rfl (actionReply_readAcc hb hx), rfl, rfl⟩
  · exact ⟨_, step_hostRead hs (decide_eq_true hn) rfl (actionReply_readRes hb hx), rfl, rfl⟩
  · exact ⟨_, step_hostRead hs rfl rfl (actionReply_readDelayMs hb), rfl, rfl⟩
  · exact ⟨_, step_hostRead hs (decide_eq_true hi) rfl (congrArg Reply.word (memRead_of_lookup h0 h1 h2 h3)), rfl, rfl⟩

/-- The step of an action that does not exist. -/
theorem step_host_of_not_exists {s : State} {a : HostAction NumVal} {rest : List (Event NumVal)}
    (h : s.script = .host a :: rest) (ha : actionExists Config.params a = false) : step s = .fault .noSuchElement := by
  simp [step, h, hostAct, ha]

/-- Settles O40: an index at or beyond the capacity is no action. -/
theorem noSuchElementStops : Obligations.NoSuchElementStops := by
  intro s a rest hs ha
  refine step_host_of_not_exists hs ?_
  rcases ha with ⟨i, c, rfl | ⟨w, rfl⟩, hi⟩ | ⟨j, k, rfl | ⟨z, rfl⟩, hi⟩ | ⟨n, rfl | rfl | ⟨x, rfl | rfl⟩, hi⟩ <;>
    exact decide_eq_false (Nat.not_lt.mpr hi)

end Sys2Proof.Machine
end

section
/-! PROOFS. What the host does while a command runs does not reach its result (20_memory.md R68; 70_reset_and_hazards.md R284):
it changes `STATUS`, `CTRL` and `ERR` alone, which no command reads. -/

namespace Sys2Proof.Machine

variable {ν : Type} {H : Params ν}

/-! ### The host's actions while busy -/

/-- The registers, `STATUS` apart, that the host can change while a command runs. -/
def BusyWritable (p : Piece) : Prop := p = .csr .ctrl ∨ p = .csr .err

theorem whenIdle_frame_of_busy (W : Piece → Prop) (f : Engine ν → Engine ν) {e : Engine ν} (hb : e.busy = true) :
    Frame W e (whenIdle f e) := by
  rw [whenIdle_of_busy f hb]
  exact reject_frame W e

theorem writeSlot_frame_of_busy (H : Params ν) {i : Slot} {w : Word} {e : Engine ν} (hb : e.busy = true)
    (hw : i = .ctrl → w.getLsbD 31 = false) : Frame BusyWritable e (writeSlot H i w e) := by
  by_cases hr : IsConfig i
  · rw [writeSlot_config H hr]
    exact whenIdle_frame_of_busy _ _ hb
  cases i with
  | ctrl =>
    rw [show writeSlot H .ctrl w e = writeEnables w e from writeCtrl_of_enables H (hw rfl) e]
    exact (writeEnables_frame w e).mono fun _ => .inl
  | status => exact clearStatus_frame _ w e
  | err => exact (clearErr_frame e).mono fun _ => .inr
  | cmd =>
    rw [show writeSlot H .cmd w e = reject e from writeCmd_of_dropped w (.inl hb)]
    exact reject_frame _ e
  | period | duty | sRate | recLen | blk | divFloor => exact absurd (by simp [IsConfig]) hr
  | errCmd | nBlk | accCnt | degenCnt | peakIdx | reserved => exact Frame.refl _ e

/-- No action but a soft reset changes more, while busy, than `STATUS`, `CTRL` and `ERR` (R68, R284). -/
theorem actionEffect_frame_of_busy (H : Params ν) {a : HostAction ν} {e : Engine ν} (hb : e.busy = true)
    (ha : ∀ w, a = .writeCsr .ctrl w → w.getLsbD 31 = false) : Frame BusyWritable e (actionEffect H a e) := by
  cases a with
  | writeCsr i w => exact writeSlot_frame_of_busy H hb fun hi => ha w (by rw [hi])
  | writeRec i c w => exact whenIdle_frame_of_busy _ (memWrite (sampleAddr i c) w) hb
  | writeV j k z => exact whenIdle_frame_of_busy _ (storeVec j k z) hb
  | writeAcc n x => exact whenIdle_frame_of_busy _ (storeAcc n x) hb
  | writeRes n x => exact whenIdle_frame_of_busy _ (storeRes n x) hb
  | readCsr | readRec | readV | readAcc | readRes | readDelayMs => exact Frame.refl _ e

/-! ### The completion of two engines that differ in those registers -/

/-- Pieces that hold the same answer alike at one draw, written or not. -/
theorem SamePiece.readsSame (d : Nat) {e1 e2 : Engine ν} {p : Piece} (h : SamePiece e1 e2 p) :
    ReadsSame H d d e1 e2 p := by
  cases p with
  | csr | delayMs => exact h
  | vec => exact fun p => congrArg (Option.getD · _) h
  | acc | res | byte => exact congrArg (Option.getD · _) h

/-- No command reads `STATUS`, `CTRL` or `ERR` (R49). -/
theorem not_busyWritable_of_mayRead {e : Engine ν} {i : Instr} {p : Piece} (h : mayRead e i p = true) :
    p ≠ .csr .status ∧ ¬BusyWritable p := by
  constructor
  · rintro rfl
    cases i <;> cases h
  · rintro (rfl | rfl) <;> cases i <;> cases h

section
variable {e1 e2 : Engine ν} (h : Frame BusyWritable e1 e2) {p : Piece}
include h

theorem readsAlike_of_frame (d : Nat) (i : Instr) : ReadsAlike H d d e1 e2 i := fun p hr =>
  have ⟨hs, hp⟩ := not_busyWritable_of_mayRead hr
  (h.pieces p hs hp).readsSame d

/-- The fault entry writes `ERR` and `STATUS`, and `ERRCMD` from `CMDLATCH` (R247). -/
theorem samePiece_raise (f : FaultCode) (hs : p ≠ .csr .status) (hp : ¬BusyWritable p) :
    SamePiece (raise f e1) (raise f e2) p := by
  by_cases hc : p = .csr .errCmd
  · subst hc
    exact h.latch
  · have hw : ¬(p = .csr .err ∨ p = .csr .errCmd) := fun hw => hw.elim (fun he => hp (.inr he)) hc
    have h1 := (raise_faultEntry f e1).frame.pieces p hs hw
    have h2 := (raise_faultEntry f e2).frame.pieces p hs hw
    exact (h1.symm.trans (h.pieces p hs hp)).trans h2

/-- A piece in the write set is computed from reads that answer alike; any other keeps what it held (R49). -/
theorem samePiece_command (d : Nat) (i : Instr) (hs : p ≠ .csr .status) (hp : ¬BusyWritable p) :
    SamePiece (command H d i e1) (command H d i e2) p := by
  have hr : ReadsAlike H d d e1 e2 i := readsAlike_of_frame h d i
  cases hf : faultOf H e1 i with
  | some f =>
    rw [command_of_some d hf, command_of_some d (hr.faultOf ▸ hf)]
    exact samePiece_raise h f hs hp
  | none =>
    by_cases hw : mayWrite e1.P i p = true
    · exact (hr.command hf).1 p hs hw
    · have hP : e2.P = e1.P := congrArg BitVec.toNat (h.pieces (.csr .period) (by simp) (by simp [BusyWritable]))
      have hf2 : faultOf H e2 i = none := hr.faultOf ▸ hf
      have h1 := (effectOf_frame d hf).finish.pieces p hs (mt (mayWrite_iff hs).2 hw)
      have h2 := (effectOf_frame d hf2).finish.pieces p hs (mt (mayWrite_iff hs).2 (hP ▸ hw))
      rw [command_of_none d hf, command_of_none d hf2]
      exact (h1.symm.trans (h.pieces p hs hp)).trans h2

/-- The completing step decodes one and the same word on both sides. -/
theorem samePiece_completeEngine (d : Nat) (hs : p ≠ .csr .status) (hp : ¬BusyWritable p) :
    SamePiece (completeEngine H d e1) (completeEngine H d e2) p := by
  have hl : fetch e2 = fetch e1 := h.latch
  unfold completeEngine
  rw [hl]
  split
  · exact samePiece_command h d _ hs hp
  · exact samePiece_raise h _ hs hp

end

/-- Settles O42: the action changes only registers that no command reads. -/
theorem busyHostActionsUnseen : Obligations.BusyHostActionsUnseen := by
  intro ν H d a e hb ha p hs hc he
  exact samePiece_completeEngine (actionEffect_frame_of_busy H hb ha) d hs (not_or.mpr ⟨hc, he⟩)

end Sys2Proof.Machine
end

section
/-! PROOFS. Bus accesses as host actions: the registers and the recording, reads of the windows and of the holes, and the
accesses that have no meaning (20_memory.md R63 to R67; 70_reset_and_hazards.md R285). -/

namespace Sys2Proof.Machine

/-- The step of a bus read of a target, given the word it answers. -/
theorem step_busRead {s : State} {a o : Nat} {w : Word} {rest : List (Event NumVal)} {g : Target}
    (h : s.script = .bus ⟨a, 4, none⟩ :: rest) (ha : a = Config.map.base + o) (ho : o % 4 = 0)
    (hg : locate Config.params o = g) (hw : busRead Config.params (s.draws + 1) s.toEngine g = w) :
    step s = .next { s with script := rest, reply := .word w, draws := s.draws + 1 } :=
  hw ▸ (step_bus h rfl ha ho hg).1 rfl

/-! ### The registers and the recording -/

theorem sampleOffset_aligned (i : Nat) (c : Channel) :
    (Config.map.offRec + 8 * i + 4 * Channel.index c) % 4 = 0 := by
  obtain ⟨-, -, -, -, hRec, -⟩ := Config.map_fits
  omega

/-- Settles O43: `locate` finds the slot and the sample, whose write and read are those of the host action. -/
theorem busReachesRegistersAndRecording : Obligations.BusReachesRegistersAndRecording := by
  intro s rest
  refine ⟨fun r w hs => ?_, fun r hs => ?_, fun i c w hi hs => ?_, fun i c hi hs => ?_⟩
  · exact ⟨_, step_busWrite hs (Nat.mul_mod_right 4 _) (locate_csr Config.params r) rfl, rfl, rfl⟩
  · exact ⟨_, step_busRead hs rfl (Nat.mul_mod_right 4 _) (locate_csr Config.params r) rfl, rfl, rfl⟩
  · rw [Nat.add_assoc, Nat.add_assoc, ← Nat.add_assoc Config.map.offRec] at hs
    exact ⟨_, step_busWrite hs (sampleOffset_aligned i c) (locate_rec i c hi) rfl, whenIdle_of_idle _, whenIdle_of_busy _⟩
  · exact ⟨_, step_busRead hs (by omega) (sampleOffset_aligned i c) (locate_rec i c hi) rfl, rfl, rfl⟩

/-! ### Reads of the windows -/

section
variable {ν : Type} (H : Params ν) (d : Nat) {e : Engine ν} (hb : e.busy = false)
include hb

theorem busRead_res_of_idle (n u : Nat) : busRead H d e (.res n u) = sliceOf H.num u (readRes H d e n) := by
  simp [busRead, hb]

theorem busRead_acc_of_idle (n u : Nat) : busRead H d e (.acc n u) = sliceOf H.num u (readAcc H d e n) := by
  simp [busRead, hb]

theorem busRead_vec_of_idle (j : VReg) (k : Nat) (imag : Bool) (u : Nat) :
    busRead H d e (.vec j k imag u) = sliceOf H.num u (partOf imag (readV H d .host e j k)) := by
  simp [busRead, hb]

theorem busRead_delayMs_of_idle (u : Nat) : busRead H d e (.delayMs u) = sliceOf H.num u e.delayMs := by
  simp [busRead, hb]

end

/-- Settles O45: a read changes the reply alone; in a window it slices the image, outside the map it answers 0. -/
theorem windowReadsAndHoles : Obligations.WindowReadsAndHoles := by
  intro s rest d access Answers
  obtain ⟨-, hRes, hAcc, -⟩ := Config.map_fits
  refine ⟨fun o ho hs => ⟨_, step_busRead hs rfl ho rfl rfl, rfl, rfl⟩,
    fun hb u hu => ⟨fun n hn hs => ?_, fun n hn hs => ?_, fun j k hk => ⟨fun hs => ?_, fun hs => ?_⟩, fun hs => ?_⟩,
    fun o ho hr => ⟨fun hs => ?_, fun w hs => ?_⟩⟩
  · exact ⟨_, step_busRead hs rfl (by rw [Nat.mul_assoc]; omega) (locate_res n u hn hu) (busRead_res_of_idle _ _ hb n u), rfl⟩
  · exact ⟨_, step_busRead hs rfl (by rw [Nat.mul_assoc]; omega) (locate_acc n u hn hu) (busRead_acc_of_idle _ _ hb n u), rfl⟩
  · have ha := vecOffset_aligned j k false
    exact ⟨_, step_busRead (o := vecOffset j k false + 4 * u) hs (by simp [vecOffset]) (by omega)
      (locate_vec j k u false hk hu) (busRead_vec_of_idle _ _ hb j k false u), rfl⟩
  · have ha := vecOffset_aligned j k true
    exact ⟨_, step_busRead (o := vecOffset j k true + 4 * u) hs (by simp [vecOffset]) (by omega)
      (locate_vec j k u true hk hu) (busRead_vec_of_idle _ _ hb j k true u), rfl⟩
  · exact ⟨_, step_busRead hs rfl (by omega) (locate_delayMs u hu) (busRead_delayMs_of_idle _ _ hb u), rfl⟩
  · exact ⟨_, step_busRead hs rfl ho (locate_hole o hr) rfl, rfl⟩
  · exact ⟨_, step_busWrite hs ho (locate_hole o hr) (busEffect_hole ..), rfl⟩

/-! ### Accesses that have no meaning -/

/-- Settles O46: the first test of `busAct`. -/
theorem unsupportedAccessRefused : Obligations.UnsupportedAccessRefused := by
  intro s b rest hs hb
  simp only [step, hs, busAct]
  exact if_pos hb

end Sys2Proof.Machine
end

section
/-! PROOFS. The command words: the decoder and the encoder are inverse to each other, and the legal words are those that decode
(30_encoding.md R91 to R97). -/

namespace Sys2Proof

open Decode Encode WellFormed

/-! ### The fields of a word (R91) -/

/-- The bits of the field of `n` bits that begins at bit `s`. -/
def fieldMask (s n : Nat) : Word := (BitVec.allOnes n).setWidth 32 <<< s

/-- A field put back in its place is the word with every other bit cleared. -/
theorem extractLsb'_setWidth_shiftLeft (w : Word) (s n : Nat) :
    (w.extractLsb' s n).setWidth 32 <<< s = w &&& fieldMask s n := by
  apply BitVec.eq_of_getLsbD_eq
  intro i hi
  by_cases h : i < s
  · simp [fieldMask, h]
  · have hs : s + (i - s) = i := by omega
    simp [fieldMask, h, hi, hs, Bool.and_comm]

/-- A field is 0 when the word has no bit of it. -/
theorem extractLsb'_eq_zero_iff (w : Word) {s n : Nat} (h : s + n ≤ 32) :
    w.extractLsb' s n = 0#n ↔ w &&& fieldMask s n = 0#32 := by
  rw [← extractLsb'_setWidth_shiftLeft]
  refine ⟨fun h0 => by simp [h0], fun h0 => BitVec.eq_of_getLsbD_eq fun i hi => ?_⟩
  have hbit := congrArg (fun b => b.getLsbD (s + i)) h0
  simpa [hi, show s + i < 32 by omega, show i < 32 by omega] using hbit

theorem opField_eq (w : Word) : opField w = (w.extractLsb' 0 8).toNat := rfl
theorem vdField_eq (w : Word) : vdField w = vregOfBits (w.extractLsb' 8 2) := rfl
theorem vaField_eq (w : Word) : vaField w = vregOfBits (w.extractLsb' 10 2) := rfl
theorem vbField_eq (w : Word) : vbField w = vregOfBits (w.extractLsb' 12 2) := rfl
theorem chField_eq (w : Word) : chField w = if (w.extractLsb' 14 1)[0] then .ch1 else .ch0 := by simp [chField]

/-! ### A word that decodes is the word of its command -/

theorem vregNumber_vregOfBits : ∀ b : BitVec 2, vregNumber (vregOfBits b) = b.setWidth 32 := by decide
theorem channelNumber_ite :
    ∀ b : BitVec 1, channelNumber (if b[0] then .ch1 else .ch0) = b.setWidth 32 := by decide

theorem vregNumber_vdField (w : Word) : vregNumber (vdField w) <<< 8 = w &&& 0x300#32 := by
  rw [vdField_eq, vregNumber_vregOfBits]
  exact extractLsb'_setWidth_shiftLeft w 8 2

theorem vregNumber_vaField (w : Word) : vregNumber (vaField w) <<< 10 = w &&& 0xC00#32 := by
  rw [vaField_eq, vregNumber_vregOfBits]
  exact extractLsb'_setWidth_shiftLeft w 10 2

theorem vregNumber_vbField (w : Word) : vregNumber (vbField w) <<< 12 = w &&& 0x3000#32 := by
  rw [vbField_eq, vregNumber_vregOfBits]
  exact extractLsb'_setWidth_shiftLeft w 12 2

theorem channelNumber_chField (w : Word) : channelNumber (chField w) <<< 14 = w &&& 0x4000#32 := by
  rw [chField_eq, channelNumber_ite]
  exact extractLsb'_setWidth_shiftLeft w 14 1

/-- The command that row `r` builds from the fields of `w` (R96). -/
def rowCommand (r : Row) (w : Word) : Instr := r.build (vdField w) (vaField w) (vbField w) (chField w)

theorem opcode_rowCommand (w : Word) : ∀ r ∈ table, opcode (rowCommand r w) = r.pattern := by
  simp [table, rowCommand, opcode]

/-- The operands of the command that a row builds are the bits of the word that the row's mask leaves free (R92). -/
theorem operands_rowCommand (w : Word) : ∀ r ∈ table, operands (rowCommand r w) = w &&& ~~~mask r.format := by
  simp [table, rowCommand, operands, mask, vregNumber_vdField, vregNumber_vaField, vregNumber_vbField, channelNumber_chField,
    ← BitVec.and_or_distrib_left]

theorem mem_table_of_rowOf {op : Nat} {r : Row} (h : rowOf op = some r) : r ∈ table := List.mem_of_find?_eq_some h

theorem op_of_rowOf {op : Nat} {r : Row} (h : rowOf op = some r) : r.op = op := by simpa using List.find?_some h

/-- A word decodes to `i` when it has the pattern of its opcode's row and the row builds `i` from its fields (R96). -/
theorem decode_eq_ok_iff {w : Word} {i : Instr} :
    decode w = .ok i ↔ ∃ r, rowOf (opField w) = some r ∧ w &&& mask r.format = r.pattern ∧ rowCommand r w = i := by
  unfold decode
  cases hr : rowOf (opField w) with
  | none => simp
  | some r => by_cases hm : w &&& mask r.format = r.pattern <;> simp [hm, rowCommand]

/-- Settles O2: the pattern gives the bits under the row's mask, and the operands give all others. -/
theorem encodeOfDecode : Obligations.EncodeOfDecode := by
  intro w i h
  obtain ⟨r, hr, hm, rfl⟩ := decode_eq_ok_iff.1 h
  have hmem := mem_table_of_rowOf hr
  calc encode (rowCommand r w)
      = w &&& mask r.format ||| w &&& ~~~mask r.format := by
        rw [encode, opcode_rowCommand w r hmem, operands_rowCommand w r hmem, hm]
    _ = w := by rw [← BitVec.and_or_distrib_left, BitVec.or_not_self, BitVec.and_allOnes]

/-! ### The word of a command decodes to it -/

/-- Reading a field finds nothing of a number of `m` bits that stands outside it. -/
theorem extractLsb'_shiftLeft_of_disjoint {x : Word} {m s n k : Nat} (hx : x.toNat < 2 ^ m) (h : s + n ≤ k ∨ k + m ≤ s) :
    (x <<< k).extractLsb' s n = 0#n := by
  apply BitVec.eq_of_getLsbD_eq
  intro i hi
  rcases h with h | h
  · simp [show s + i < k by omega]
  · have hhigh : x.getLsbD (s + i - k) = false :=
      Nat.testBit_lt_two_pow (hx.trans_le (Nat.pow_le_pow_right two_pos (by omega)))
    simp [hhigh]

/-- Reading a field finds the number that was put there. -/
theorem extractLsb'_shiftLeft_same (x : Word) {n k : Nat} (h : k + n ≤ 32) : (x <<< k).extractLsb' k n = x.setWidth n := by
  apply BitVec.eq_of_getLsbD_eq
  intro i hi
  simp only [BitVec.getLsbD_extractLsb', BitVec.getLsbD_shiftLeft, BitVec.getLsbD_setWidth, Nat.add_sub_cancel_left]
  simp [hi, show k + i < 32 by omega]

theorem vregNumber_lt (v : VReg) : (vregNumber v).toNat < 2 ^ 2 := by cases v <;> decide

theorem channelNumber_lt (c : Channel) : (channelNumber c).toNat < 2 ^ 1 := by cases c <;> decide

theorem vregOfBits_vregNumber (v : VReg) : vregOfBits ((vregNumber v).setWidth 2) = v := by cases v <;> rfl

theorem ite_channelNumber (c : Channel) : (if (channelNumber c)[0] then .ch1 else .ch0) = c := by
  cases c <;> rfl

/-- The opcode of a command's word is the command's: the operands stand above bit 7 (R91). -/
theorem opField_encode (i : Instr) : opField (encode i) = (opcode i).toNat := by
  have h : (encode i).extractLsb' 0 8 = (opcode i).setWidth 8 := by
    cases i <;> simp [encode, opcode, operands, BitVec.extractLsb'_or, extractLsb'_shiftLeft_of_disjoint (vregNumber_lt _),
      extractLsb'_shiftLeft_of_disjoint (channelNumber_lt _)]
  rw [opField_eq, h]
  cases i <;> rfl

/-- Every command has a row, with its opcode and its format (R93). -/
theorem exists_row (i : Instr) : ∃ r, rowOf (opcode i).toNat = some r ∧ r.format = i.format ∧ r.pattern = opcode i := by
  cases i <;> exact ⟨_, rfl, rfl, rfl⟩

/-- The row of a command reads the operands back from the command's word: no two of them share a bit (R91). -/
theorem rowCommand_encode {i : Instr} {r : Row} (hr : rowOf (opcode i).toNat = some r) : rowCommand r (encode i) = i := by
  cases i
  all_goals
    obtain rfl := Option.some.inj hr
    simp [rowCommand, encode, opcode, operands, vdField_eq, vaField_eq, vbField_eq, chField_eq, BitVec.extractLsb'_or,
      extractLsb'_shiftLeft_of_disjoint (vregNumber_lt _), extractLsb'_shiftLeft_of_disjoint (channelNumber_lt _),
      extractLsb'_shiftLeft_same, vregOfBits_vregNumber, ite_channelNumber]

theorem encodedForm (i : Instr) : Laws.EncodedForm.Statement i := by
  cases i with
  | nop => exact Laws.EncodedForm.nop
  | ldblk vd ch => exact Laws.EncodedForm.ldblk vd ch
  | fft vd va => exact Laws.EncodedForm.fft vd va
  | ifft vd va => exact Laws.EncodedForm.ifft vd va
  | sweep vd => exact Laws.EncodedForm.sweep vd
  | mirror vd => exact Laws.EncodedForm.mirror vd
  | cdiv vd va vb => exact Laws.EncodedForm.cdiv vd va vb
  | aclr => exact Laws.EncodedForm.aclr
  | accr va => exact Laws.EncodedForm.accr va
  | avg => exact Laws.EncodedForm.avg
  | realp va => exact Laws.EncodedForm.realp va
  | peak => exact Laws.EncodedForm.peak
  | synth => exact Laws.EncodedForm.synth
  | estimate => exact Laws.EncodedForm.estimate

/-- Settles O1: the word has the opcode and the pattern of its command's row, which reads the operands back. -/
theorem decodeOfEncode : Obligations.DecodeOfEncode := by
  intro i
  obtain ⟨r, hr, hf, hp⟩ := exists_row i
  have hm : encode i &&& mask r.format = r.pattern := hf ▸ hp ▸ encodedForm i
  exact decode_eq_ok_iff.2 ⟨r, opField_encode i ▸ hr, hm, rowCommand_encode hr⟩

/-! ### The legal words (R95) -/

theorem highBitsClear_iff (w : Word) : highBitsClear w = true ↔ w &&& 0xFFFF8000#32 = 0#32 :=
  beq_iff_eq.trans (extractLsb'_eq_zero_iff w (s := 15) (n := 17) (by decide))

theorem vdClear_iff (w : Word) : vdClear w = true ↔ w &&& 0x300#32 = 0#32 :=
  beq_iff_eq.trans (extractLsb'_eq_zero_iff w (s := 8) (n := 2) (by decide))

theorem vaClear_iff (w : Word) : vaClear w = true ↔ w &&& 0xC00#32 = 0#32 :=
  beq_iff_eq.trans (extractLsb'_eq_zero_iff w (s := 10) (n := 2) (by decide))

theorem vbClear_iff (w : Word) : vbClear w = true ↔ w &&& 0x3000#32 = 0#32 :=
  beq_iff_eq.trans (extractLsb'_eq_zero_iff w (s := 12) (n := 2) (by decide))

theorem chClear_iff (w : Word) : chClear w = true ↔ w &&& 0x4000#32 = 0#32 :=
  beq_iff_eq.trans (extractLsb'_eq_zero_iff w (s := 14) (n := 1) (by decide))

/-- The bits R95 asks to be 0 are those of the format's mask outside the opcode. -/
theorem strayBitsClear_iff (f : Format) (w : Word) :
    (highBitsClear w && unusedFieldsClear f w) = true ↔ w &&& (mask f ^^^ 0xFF#32) = 0#32 := by
  cases f
  all_goals
    simp [unusedFieldsClear, mask, highBitsClear_iff, vdClear_iff, vaClear_iff, vbClear_iff, chClear_iff,
      ← BitVec.or_eq_zero_iff, ← BitVec.and_or_distrib_left]

/-- The two tables of opcodes, R95's and R96's, are one. -/
theorem formatOfOpcode_eq (op : BitVec 8) : formatOfOpcode op = (rowOf op.toNat).map Row.format := by
  unfold formatOfOpcode
  split <;> simp_all [rowOf, table, eq_comm (b := op.toNat)]

theorem legal_iff (w : Word) :
    legal w = true ↔ ∃ r, rowOf (opField w) = some r ∧ (highBitsClear w && unusedFieldsClear r.format w) = true := by
  unfold legal
  rw [formatOfOpcode_eq, show (w.extractLsb 7 0).toNat = opField w from rfl]
  cases rowOf (opField w) <;> simp

theorem pattern_eq_op : ∀ r ∈ table, r.pattern = BitVec.ofNat 32 r.op := by simp [table]

/-- The pattern of a row is the opcode field of the words that have the row's opcode. -/
theorem pattern_of_rowOf {w : Word} {r : Row} (hr : rowOf (opField w) = some r) : r.pattern = w &&& 0xFF#32 := by
  rw [pattern_eq_op r (mem_table_of_rowOf hr), op_of_rowOf hr, opField_eq, BitVec.ofNat_toNat]
  exact (BitVec.shiftLeft_zero _).symm.trans (extractLsb'_setWidth_shiftLeft w 0 8)

/-- Two masks select the same bits of a word when the word has no bit in which the masks differ. -/
theorem and_eq_and_iff (w m n : Word) : w &&& m = w &&& n ↔ w &&& (m ^^^ n) = 0#32 := by
  rw [← BitVec.xor_eq_zero_iff, show w &&& m ^^^ w &&& n = w &&& (m ^^^ n) by ext i; simp [Bool.and_xor_distrib_left]]

/-- With the opcode of its row a word has the row's pattern when no bit is set that the format asks to be 0. -/
theorem mask_eq_pattern_iff {w : Word} {r : Row} (hr : rowOf (opField w) = some r) :
    w &&& mask r.format = r.pattern ↔ (highBitsClear w && unusedFieldsClear r.format w) = true := by
  rw [pattern_of_rowOf hr, and_eq_and_iff, strayBitsClear_iff]

/-- Settles O3: both ask for a row with the word's opcode, and for 0 in the same bits. -/
theorem legalWordsDecode : Obligations.LegalWordsDecode := by
  intro w
  rw [legal_iff]
  constructor
  · rintro ⟨r, hr, h0⟩
    exact ⟨rowCommand r w, decode_eq_ok_iff.2 ⟨r, hr, (mask_eq_pattern_iff hr).2 h0, rfl⟩⟩
  · rintro ⟨i, hi⟩
    obtain ⟨r, hr, hm, -⟩ := decode_eq_ok_iff.1 hi
    exact ⟨r, hr, (mask_eq_pattern_iff hr).1 hm⟩

/-- Settles O4: each word by evaluation. -/
theorem writtenWordsDecode : Obligations.WrittenWordsDecode := by
  unfold Obligations.WrittenWordsDecode
  decide

end Sys2Proof
end

section
/-! PROOFS. The step of the busy engine on a command word that decodes (30_encoding.md R96; 70_reset_and_hazards.md R283). -/

namespace Sys2Proof.Machine

theorem engineMove_of_decode {s : State} {i : Instr} (hb : s.busy = true) (hd : decode s.cmdLatch = .ok i) :
    engineMove s = exec i s := by simp [engineMove, fetch, hb, hd]

/-- A step in which the engine moves, by the script or because nothing is scheduled, is the engine's move (R283). -/
theorem step_eq_engineMove {s : State} {rest : List (Event NumVal)} (hb : s.busy = true)
    (hs : s.script = .engine :: rest ∨ (s.script = [] ∧ rest = [])) :
    step s = engineMove { s with script := rest, draws := s.draws + 1 } := by
  rcases hs with hs | ⟨hs, rfl⟩
  · simp only [step, hs]
  · simp only [step, hs, hb, if_true]

/-- Settles O5: the step is the engine's move, which performs what `CMDLATCH` decodes to. -/
theorem stepRunsDecodedCommand : Obligations.StepRunsDecodedCommand := by
  intro s i rest hs hb hd
  exact (step_eq_engineMove hb hs).trans (engineMove_of_decode hb hd)

end Sys2Proof.Machine
end

section
/-! PROOFS. The commands `FFT` and `IFFT` (40_transform.md R122, R123): their check, the elements they write, their completion;
and that in `NUM_EXACT` each undoes the other (R126). -/

namespace Sys2Proof.Machine

/-! ### The check of `PERIOD` -/

section
variable {ν : Type} {H : Params ν} {e : Engine ν}

/-- A command that checks `PERIOD` alone passes when it is valid. -/
theorem faultOf_of_periodOk {i : Instr} (hc : checksOf H e i = [(e.periodValid H, .invalidParameter)]) (h : PeriodOk H e) :
    faultOf H e i = none := by
  rw [faultOf, hc, (periodValid_iff H e).2 h]
  rfl

/-- A command that checks `PERIOD` alone raises `InvalidParameter` when it is not valid. -/
theorem faultOf_of_not_periodOk {i : Instr} (hc : checksOf H e i = [(e.periodValid H, .invalidParameter)])
    (h : ¬PeriodOk H e) : faultOf H e i = some .invalidParameter := by
  rw [faultOf, hc, Bool.eq_false_iff.2 ((periodValid_iff H e).not.2 h)]
  rfl

end

/-! ### The commands in the machine -/

/-- A command that raises a fault answers the fault entry's state. -/
theorem exec_faultEntry {i : Instr} {s : State} {f : FaultCode} (h : faultOf Config.params s.toEngine i = some f) :
    ∃ t, exec i s = .next t ∧ FaultEntry f s.toEngine t.toEngine ∧ SameModel s t :=
  ⟨_, exec_of_some h, raise_faultEntry f _, rfl, rfl, rfl⟩

/-- Settles O15: with `PERIOD` valid the command is its effect and the completion, otherwise the fault entry. -/
theorem fftTransforms : Obligations.FftTransforms := by
  intro vd va s
  refine ⟨(BitVec.or_assoc ..).symm, fun hP => ?_, fun hP => exec_faultEntry (faultOf_of_not_periodOk rfl hP)⟩
  exact ⟨_, exec_of_none (faultOf_of_periodOk rfl hP),
    fun k hk => (congrArg _ (finish_vreg _ vd)).trans (fftEffect_value _ _ _ vd va hk),
    finish_statusAfter_of_eq (writeVec_status ..), (fftEffect_frame _ _ _ vd va).finish, rfl, rfl, rfl⟩

/-- Settles O16: the encoding and the two cases of `PERIOD` go as for `FFT`, with the inverse transform as the effect. -/
theorem ifftTransforms : Obligations.IfftTransforms := by
  intro vd va s
  refine ⟨(BitVec.or_assoc ..).symm, fun hP => ?_, fun hP => exec_faultEntry (faultOf_of_not_periodOk rfl hP)⟩
  exact ⟨_, exec_of_none (faultOf_of_periodOk rfl hP),
    fun n hn => (congrArg _ (finish_vreg _ vd)).trans (ifftEffect_value _ _ _ vd va hn),
    finish_statusAfter_of_eq (writeVec_status ..), (ifftEffect_frame _ _ _ vd va).finish, rfl, rfl, rfl⟩

/-! ### One transform after the other -/

section
variable {ν : Type} {H : Params ν} {e : Engine ν} (d : Nat) (vd va : VReg)

/-- Two engines of one `PERIOD` agree on its validity. -/
theorem periodOk_iff_of_P_eq {t : Engine ν} (h : t.P = e.P) : PeriodOk H t ↔ PeriodOk H e := by
  rw [PeriodOk, PeriodOk, h]

theorem command_fft_of_periodOk (hP : PeriodOk H e) : command H d (.fft vd va) e = finish (fftEffect H d vd va e) :=
  command_of_none d (faultOf_of_periodOk rfl hP)

theorem command_ifft_of_periodOk (hP : PeriodOk H e) : command H d (.ifft vd va) e = finish (ifftEffect H d vd va e) :=
  command_of_none d (faultOf_of_periodOk rfl hP)

/-- The elements that `FFT` writes. -/
theorem lookup_command_fft (hP : PeriodOk H e) {k : Nat} (hk : k < e.P) :
    lookup k ((command H d (.fft vd va) e).vreg vd) =
      some (H.num.dft e.P ((List.range e.P).map (readV H d .a e va)) k) := by
  rw [command_fft_of_periodOk d vd va hP, finish_vreg, fftEffect_value H d e vd va hk]

/-- The elements that `IFFT` writes. -/
theorem lookup_command_ifft (hP : PeriodOk H e) {n : Nat} (hn : n < e.P) :
    lookup n ((command H d (.ifft vd va) e).vreg vd) =
      some (H.num.idft e.P ((List.range e.P).map (readV H d .a e va)) n) := by
  rw [command_ifft_of_periodOk d vd va hP, finish_vreg, ifftEffect_value H d e vd va hn]

theorem command_fft_P (hP : PeriodOk H e) : (command H d (.fft vd va) e).P = e.P := by
  rw [command_fft_of_periodOk d vd va hP]
  simp [Engine.P]

theorem command_ifft_P (hP : PeriodOk H e) : (command H d (.ifft vd va) e).P = e.P := by
  rw [command_ifft_of_periodOk d vd va hP]
  simp [Engine.P]

/-- A read of a whole register that holds the values of `f` gives those values. -/
theorem map_readV_of_lookup {p : Port} {N : Nat} {f : Nat → Cx ν} (h : ∀ k < N, lookup k (e.vreg vd) = some (f k)) :
    (List.range N).map (readV H d p e vd) = (List.range N).map f :=
  List.map_congr_left fun k hk => readV_of_lookup (h k (List.mem_range.1 hk))

variable (d' : Nat) (ve : VReg)

/-- `IFFT ve, vd` after `FFT vd, va` leaves the inverse transform of the forward transform. -/
theorem lookup_ifft_fft (hP : PeriodOk H e) {n : Nat} (hn : n < e.P) :
    lookup n ((command H d' (.ifft ve vd) (command H d (.fft vd va) e)).vreg ve) =
      some (H.num.idft e.P
        ((List.range e.P).map (H.num.dft e.P ((List.range e.P).map (readV H d .a e va)))) n) := by
  have ht := command_fft_P d vd va hP
  rw [lookup_command_ifft d' ve vd ((periodOk_iff_of_P_eq ht).2 hP) (ht ▸ hn), ht,
    map_readV_of_lookup d' vd fun k hk => lookup_command_fft d vd va hP hk]

/-- `FFT ve, vd` after `IFFT vd, va` leaves the forward transform of the inverse transform. -/
theorem lookup_fft_ifft (hP : PeriodOk H e) {n : Nat} (hn : n < e.P) :
    lookup n ((command H d' (.fft ve vd) (command H d (.ifft vd va) e)).vreg ve) =
      some (H.num.dft e.P
        ((List.range e.P).map (H.num.idft e.P ((List.range e.P).map (readV H d .a e va)))) n) := by
  have ht := command_ifft_P d vd va hP
  rw [lookup_command_fft d' ve vd ((periodOk_iff_of_P_eq ht).2 hP) (ht ▸ hn), ht,
    map_readV_of_lookup d' vd fun k hk => lookup_command_ifft d vd va hP hk]

end

/-- Settles O50: the second command transforms what the first wrote, and the transforms of `NUM_EXACT` invert each other. -/
theorem exactRoundTrip : Obligations.ExactRoundTrip := by
  rintro H d d' vd va ve e ⟨u, hu⟩ hP
  refine ⟨fun n hn => ?_, fun n hn => ?_⟩
  · rw [lookup_ifft_fft d vd va d' ve hP hn, hu, exactNum_idft, exactNum_dft, exactIdft_exactDft _ hn]
  · rw [lookup_fft_ifft d vd va d' ve hP hn, hu, exactNum_idft, exactNum_dft, exactDft_exactIdft _ hn]

end Sys2Proof.Machine
end

section
/-! PROOFS. The shift property of the transforms of `NUM_EXACT` (40_transform.md R127), under both sign conventions. What the two
have in common is said once, over a numerics `num` whose forward transform turns the shift into factors `K k`. -/

namespace Sys2Proof.Machine

open Finset

section
variable {num : Numerics ℝ} {u : Word → ℝ} {N : Nat} {s : ℤ} {x : Nat → Cx ℝ} {K : Nat → ℂ}
  (hdiv : num.cdiv = (exactNum u).cdiv)
  (hdft : ∀ k, toC (num.dft N ((List.range N).map (circularShift N s x)) k) =
    K k * toC (num.dft N ((List.range N).map x) k))
include hdiv hdft

/-- Off zero the quotient is the factor by which the shift multiplies the bin. -/
theorem toC_shiftQuotient {k : Nat} (hk : num.dft N ((List.range N).map x) k ≠ ⟨0, 0⟩) :
    toC (shiftQuotient num N s x k) = K k := by
  rw [shiftQuotient, hdiv, toC_cdiv u _ _ hk, hdft, mul_div_cancel_right₀ _ ((toC_eq_zero_iff _).not.2 hk)]

/-- The impulse stands at `s mod N` when the inverse transform takes the factors to a unit sample there. -/
theorem shiftImpulse_of_factors {r : Nat} (hr : (r : ℤ) = s % (N : ℤ))
    (hidft : ∀ Z : Nat → Cx ℝ, (∀ k < N, toC (Z k) = K k) → ∀ n < N,
      num.idft N ((List.range N).map Z) n = if n = r then ⟨1, 0⟩ else ⟨0, 0⟩) :
    ShiftImpulse num N s x := by
  intro hx n hn
  rw [hidft _ (fun k hk => toC_shiftQuotient hdiv hdft (hx k hk)) n hn, ← hr]
  simp only [Nat.cast_inj]

end

/-- The forward transform of a circular shift by any integer (R127). -/
theorem toC_exactDft_circularShift {N : Nat} (hN : 1 ≤ N) (s : ℤ) (x : Nat → Cx ℝ) (k : Nat) :
    toC (exactDft N ((List.range N).map (circularShift N s x)) k) =
      shiftPhase N s k * toC (exactDft N ((List.range N).map x) k) := by
  obtain ⟨r, hrN, hr⟩ := exists_shift_residue hN s
  rw [circularShift_eq hrN hr, toC_exactDft_shift x hrN, kernel_eq_shiftPhase hN hr]

theorem exact_shiftImpulse (u : Word → ℝ) {N : Nat} (hN : 1 ≤ N) (s : ℤ) (x : Nat → Cx ℝ) :
    ShiftImpulse (exactNum u) N s x := by
  obtain ⟨r, hrN, hr⟩ := exists_shift_residue hN s
  refine shiftImpulse_of_factors rfl (toC_exactDft_circularShift hN s x) hr fun Z hZ n hn => ?_
  refine exactIdft_shiftKernel hrN Z 1 (fun k hk => ?_) n hn
  rw [hZ k hk, kernel_eq_shiftPhase hN hr, Complex.ofReal_one, one_mul]

/-- The inverse transform of the opposite sign convention. -/
theorem toC_oppositeIdft (u : Word → ℝ) (N : Nat) (Z : Nat → Cx ℝ) (n : Nat) :
    toC ((oppositeNum u).idft N ((List.range N).map Z) n) =
      (1 / (N : ℂ)) * ∑ k ∈ range N, toC (Z k) * kernel (-1) N n k := by
  rw [oppositeNum, toC_ofC]
  congr 1
  exact sum_congr rfl fun k hk => by rw [element_map_range Z (mem_range.1 hk)]

/-- Under the opposite sign convention the inverse transform of the opposite kernel at `r` is a unit sample at `r`. -/
theorem oppositeIdft_kernel (u : Word → ℝ) {N r : Nat} (hr : r < N) (Z : Nat → Cx ℝ)
    (hZ : ∀ k < N, toC (Z k) = kernel 1 N r k) {n : Nat} (hn : n < N) :
    (oppositeNum u).idft N ((List.range N).map Z) n = if n = r then ⟨1, 0⟩ else ⟨0, 0⟩ := by
  apply toC_injective
  have hN : (N : ℂ) ≠ 0 := Nat.cast_ne_zero.2 (by omega)
  rw [toC_oppositeIdft, sum_congr rfl fun k hk => by rw [hZ k (mem_range.1 hk)], sum_kernel hr hn]
  by_cases h : n = r
  · rw [if_pos h, if_pos h.symm, one_div_mul_cancel hN]
    rfl
  · rw [if_neg h, if_neg (Ne.symm h), mul_zero]
    rfl

theorem opposite_shiftImpulse (u : Word → ℝ) {N : Nat} (hN : 1 ≤ N) (s : ℤ) (x : Nat → Cx ℝ) :
    ShiftImpulse (oppositeNum u) N s x := by
  obtain ⟨r, hrN, hr⟩ := exists_shift_residue hN s
  refine shiftImpulse_of_factors (u := u) rfl (fun k => ?_) hr fun Z hZ n hn => oppositeIdft_kernel u hrN Z hZ hn
  rw [circularShift_eq hrN hr, toC_oppositeDft_shift u x hrN]

/-- Settles O51: the transform of a shift is the phase times the transform, and the quotient of the two is the phase. -/
theorem exactShift : Obligations.ExactShift := by
  intro u N s x hN X Y
  have hY := toC_exactDft_circularShift hN s x
  exact ⟨fun _ _ => rfl, fun k _ => hY k, fun k _ hk => toC_shiftQuotient (u := u) rfl hY hk,
    exact_shiftImpulse u hN s x, opposite_shiftImpulse u hN s x⟩

end Sys2Proof.Machine
end

section
/-! PROOFS. The commands `SWEEP`, `MIRROR` and `REALP` (41_sweep.md R142 to R144): their checks, the elements they write, their
completion. -/

namespace Sys2Proof.Machine

/-! ### The checks of `PERIOD` and `DUTY` -/

section
variable {ν : Type} {H : Params ν} {e : Engine ν} {i : Instr}
  (hc : checksOf H e i = [(e.periodValid H, .invalidParameter), (e.dutyValid, .invalidParameter)])
include hc

/-- A command that checks `PERIOD` and `DUTY` passes when both are valid. -/
theorem faultOf_of_periodOk_dutyOk (hP : PeriodOk H e) (hD : DutyOk e) : faultOf H e i = none := by
  rw [faultOf, hc, (periodValid_iff H e).2 hP, (dutyValid_iff e).2 hD]
  rfl

/-- A command that checks `PERIOD` and `DUTY` raises `InvalidParameter` when one of them is not valid. -/
theorem faultOf_of_not_periodOk_dutyOk (h : ¬(PeriodOk H e ∧ DutyOk e)) : faultOf H e i = some .invalidParameter := by
  rw [← periodValid_iff, ← dutyValid_iff] at h
  rw [faultOf, hc]
  cases hp : e.periodValid H
  · rfl
  · rw [firstFault_cons_true, Bool.eq_false_iff.2 fun hd => h ⟨hp, hd⟩]
    rfl

end

/-! ### The commands in the machine -/

/-- Settles O17: with `PERIOD` and `DUTY` valid the command is its effect and the completion, otherwise the fault entry. -/
theorem sweepWritesHalfSpectrum : Obligations.SweepWritesHalfSpectrum := by
  intro vd s
  refine ⟨rfl, fun hP hD => ?_, fun h => exec_faultEntry (faultOf_of_not_periodOk_dutyOk rfl h)⟩
  exact ⟨_, exec_of_none (faultOf_of_periodOk_dutyOk rfl hP hD),
    fun k hk => (congrArg _ (finish_vreg _ vd)).trans (sweepEffect_value _ _ vd hk),
    finish_statusAfter_of_eq (writeVec_status ..), (sweepEffect_frame _ _ vd).finish, rfl, rfl, rfl⟩

/-- Settles O18: the two cases of `PERIOD`, with the mirrored bins as the effect. -/
theorem mirrorConjugates : Obligations.MirrorConjugates := by
  intro vd s
  refine ⟨rfl, fun hP => ?_, fun hP => exec_faultEntry (faultOf_of_not_periodOk rfl hP)⟩
  exact ⟨_, exec_of_none (faultOf_of_periodOk rfl hP),
    fun k h1 h2 => (congrArg _ (finish_vreg _ vd)).trans (mirrorEffect_value _ _ _ vd h1 h2),
    finish_statusAfter_of_eq (writeVec_status ..), (mirrorEffect_frame _ _ _ vd).finish, rfl, rfl, rfl⟩

/-- `REALP` meets a non-finite part exactly when one of the numbers it leaves in `RES` is not finite (R144). -/
theorem someNonFinite_iff_lookup_res {ν : Type} (H : Params ν) (d : Nat) (va : VReg) (e : Engine ν) :
    someNonFinite H.num e.P (fun n => (readV H d .a e va n).re) = true ↔
      ∃ n < e.P, ∃ x, lookup n (realpEffect H d va e).res = some x ∧ H.num.isFinite x = false := by
  rw [someNonFinite_iff]
  refine exists_congr fun n => and_congr_right fun hn => ?_
  rw [realpEffect_value H d e va hn]
  simp

/-- Settles O19: the two cases of `PERIOD`, with the real parts and the warning as the effect. -/
theorem realpTakesRealParts : Obligations.RealpTakesRealParts := by
  intro va s
  refine ⟨rfl, fun hP => ?_, fun hP => exec_faultEntry (faultOf_of_not_periodOk rfl hP)⟩
  exact ⟨_, _, exec_of_none (faultOf_of_periodOk rfl hP), fun n hn => realpEffect_value _ _ _ va hn,
    someNonFinite_iff_lookup_res _ _ va _, finish_warnNonFin rfl, (realpEffect_frame _ _ _ va).finish, rfl, rfl, rfl⟩

end Sys2Proof.Machine
end

section
/-! PROOFS. The coefficients of the sweep in `NUM_EXACT` (41_sweep.md R140, R141). Half the period is the Nyquist bin, so that
`alpha` is `2*pi/NF` times the distance from `d*P/4` up to its ceiling `rawAlpha`. -/

namespace Sys2Proof.Machine

section
variable (u : Word → ℝ) {P : Nat} (d : ℝ)

theorem exact_sweepBeta : sweepBeta (exactNum u) P d = 2 * Real.pi * d / P := rfl

/-- The phase of R140 with the fields of `NUM_EXACT`. -/
theorem exact_sweepPhase (k : Nat) :
    sweepPhase (exactNum u) P d k =
      sweepAlpha (exactNum u) P d * k + sweepBeta (exactNum u) P d * ((k * k : ℕ) : ℝ) := rfl

variable (h2 : 2 ≤ P) (he : P % 2 = 0)
include he

theorem cast_period : (P : ℝ) = 2 * (P / 2 : ℕ) := by
  exact_mod_cast (Nat.mul_div_cancel' (Nat.dvd_of_mod_eq_zero he)).symm

theorem duty_quarter : d * P / 4 = d * (P / 2 : ℕ) / 2 := by
  rw [cast_period he]
  ring

include h2

theorem nyquist_pos : (0 : ℝ) < (P / 2 : ℕ) := by
  exact_mod_cast (by omega : 0 < P / 2)

/-- `beta*NF = pi*d` (R141). -/
theorem exact_sweepBeta_mul_nyquist : sweepBeta (exactNum u) P d * (P / 2 : ℕ) = Real.pi * d := by
  have hF := (nyquist_pos h2 he).ne'
  rw [exact_sweepBeta, cast_period he]
  field_simp

/-- The argument of the ceiling (R141 (a)). -/
theorem exact_sweepBeta_turns :
    sweepBeta (exactNum u) P d * ((P / 2 : ℕ) * (P / 2 : ℕ)) / (2 * Real.pi) = d * P / 4 := by
  have hpi := Real.pi_pos.ne'
  rw [← mul_assoc, exact_sweepBeta_mul_nyquist u d h2 he, duty_quarter d he]
  field_simp

theorem exact_sweepRawAlpha : sweepRawAlpha (exactNum u) P d = ⌈d * P / 4⌉ := by
  rw [← exact_sweepBeta_turns u d h2 he]
  simp [sweepRawAlpha]

theorem exact_sweepAlpha :
    sweepAlpha (exactNum u) P d =
      2 * Real.pi * sweepRawAlpha (exactNum u) P d / (P / 2 : ℕ) - Real.pi * d := by
  rw [← exact_sweepBeta_mul_nyquist u d h2 he]
  simp only [sweepAlpha, exactNum_sub, exactNum_div, exactNum_mul, exactNum_ofInt, exactNum_twoPi, exactNum_ofNat]
  ring

/-- `alpha` measures how far the ceiling is above its argument. -/
theorem exact_sweepAlpha_eq_ceil_sub :
    sweepAlpha (exactNum u) P d = 2 * Real.pi / (P / 2 : ℕ) * (⌈d * P / 4⌉ - d * P / 4) := by
  have hF := (nyquist_pos h2 he).ne'
  rw [exact_sweepAlpha u d h2 he, exact_sweepRawAlpha u d h2 he, duty_quarter d he]
  field_simp

/-- The bounds on `alpha` (R141 (b)). -/
theorem exact_sweepAlpha_bounds :
    0 ≤ sweepAlpha (exactNum u) P d ∧ sweepAlpha (exactNum u) P d < 2 * Real.pi / (P / 2 : ℕ) := by
  have hc : 0 < 2 * Real.pi / ((P / 2 : ℕ) : ℝ) := div_pos Real.two_pi_pos (nyquist_pos h2 he)
  have hle := Int.le_ceil (d * P / 4)
  have hlt := Int.ceil_lt_add_one (d * P / 4)
  rw [exact_sweepAlpha_eq_ceil_sub u d h2 he]
  exact ⟨mul_nonneg hc.le (by linarith), mul_lt_of_lt_one_right hc (by linarith)⟩

/-- `alpha` is 0 exactly when `d*P/4` is an integer (R141 (b)). -/
theorem exact_sweepAlpha_eq_zero_iff : sweepAlpha (exactNum u) P d = 0 ↔ ∃ m : ℤ, d * P / 4 = m := by
  have hc : 2 * Real.pi / ((P / 2 : ℕ) : ℝ) ≠ 0 := (div_pos Real.two_pi_pos (nyquist_pos h2 he)).ne'
  rw [exact_sweepAlpha_eq_ceil_sub u d h2 he, mul_eq_zero_iff_left hc, sub_eq_zero]
  constructor
  · exact fun h => ⟨_, h.symm⟩
  · rintro ⟨m, hm⟩
    rw [hm, Int.ceil_intCast]

/-- The phase at the Nyquist bin is a whole number of turns (R141 (c)). -/
theorem exact_sweepPhase_nyquist :
    sweepPhase (exactNum u) P d (P / 2) = 2 * Real.pi * sweepRawAlpha (exactNum u) P d := by
  have hF := (nyquist_pos h2 he).ne'
  rw [exact_sweepPhase, Nat.cast_mul, ← mul_assoc, exact_sweepBeta_mul_nyquist u d h2 he, exact_sweepAlpha u d h2 he]
  field_simp
  ring

/-- The phase in turns (R141 (d)). -/
theorem exact_sweepPhase_turns (k : Nat) :
    sweepPhase (exactNum u) P d k / (2 * Real.pi) =
      ((sweepRawAlpha (exactNum u) P d : ℝ) / (P / 2 : ℕ) - d / 2) * k + d / P * (k * k) := by
  have hpi := Real.pi_pos.ne'
  rw [exact_sweepPhase, exact_sweepAlpha u d h2 he, exact_sweepBeta,
    Nat.cast_mul]
  field_simp

omit he in
/-- The range of `rawAlpha` (R141 (a)). -/
theorem ceil_duty_quarter_bounds (h0 : 0 < d) (h1 : d < 1) : 1 ≤ ⌈d * P / 4⌉ ∧ ⌈d * P / 4⌉ ≤ ⌈(P : ℝ) / 4⌉ := by
  have hP : (0 : ℝ) < P := by exact_mod_cast (by omega : 0 < P)
  refine ⟨Int.one_le_ceil_iff.2 (by positivity), Int.ceil_mono ?_⟩
  have := mul_lt_of_lt_one_left hP h1
  linarith

end

/-- Settles O52: each consequence of R141 by its lemma. -/
theorem exactSweepCoefficients : Obligations.ExactSweepCoefficients := by
  intro u P d h2 he h0 h1 N NF raw alpha
  have hraw : raw = ⌈d * P / 4⌉ := exact_sweepRawAlpha u d h2 he
  obtain ⟨hlo, hhi⟩ := ceil_duty_quarter_bounds d h2 h0 h1
  obtain ⟨hnonneg, hlt⟩ := exact_sweepAlpha_bounds u d h2 he
  obtain ⟨hfirst, hlast⟩ := exact_sweepBin_edges u P d h2 he
  exact ⟨exact_sweepBeta_turns u d h2 he, duty_quarter d he, hraw, hraw ▸ hlo, hraw ▸ hhi, exact_sweepAlpha u d h2 he,
    hnonneg, hlt, exact_sweepAlpha_eq_zero_iff u d h2 he, by simp [exact_sweepPhase, N],
    exact_sweepPhase_nyquist u d h2 he, hfirst, hlast, exact_sweepPhase_turns u d h2 he⟩

end Sys2Proof.Machine
end

section
/-! PROOFS. The chirp's spectrum and the chirp in `NUM_EXACT` (41_sweep.md R145 to R147): the state after each command is the
closed form of Safety, and the energy is Parseval's relation. -/

namespace Sys2Proof.Machine

open Finset

/-! ### The commands in sequence, at any number type -/

section
variable {ν : Type} {H : Params ν} {e : Engine ν} (d d' d'' : Nat) (vd : VReg) (hP : PeriodOk H e) (hD : DutyOk e)

/-- `MIRROR` does not see the completion before it, which writes `STATUS` alone. -/
theorem mirrorEffect_finish (t : Engine ν) : mirrorEffect H d vd (finish t) = finish (mirrorEffect H d vd t) := by
  cases vd <;> rfl

include hP hD

/-- `SWEEP` and `MIRROR` with valid parameters are their effects and one completion each. -/
theorem command_mirror_sweep :
    command H d' (.mirror vd) (command H d (.sweep vd) e) =
      finish (finish (mirrorEffect H d' vd (sweepEffect H vd e))) := by
  have hP' : PeriodOk H (finish (effectOf H d (.sweep vd) e)) := (periodOk_iff_of_P_eq (by simp [effectOf, Engine.P])).2 hP
  rw [command_of_none d (faultOf_of_periodOk_dutyOk rfl hP hD), command_of_none d' (faultOf_of_periodOk rfl hP')]
  exact congrArg finish (mirrorEffect_finish d' vd _)

theorem command_mirror_sweep_P : (command H d' (.mirror vd) (command H d (.sweep vd) e)).P = e.P := by
  rw [command_mirror_sweep d d' vd hP hD]
  simp [Engine.P]

/-- The spectrum that `SWEEP vd; MIRROR vd` leaves. -/
theorem lookup_mirror_sweep {k : Nat} (hk : k < e.P) :
    lookup k ((command H d' (.mirror vd) (command H d (.sweep vd) e)).vreg vd) =
      some (chirpBin H.num e.P (H.num.ofF32 e.duty) k) := by
  rw [command_mirror_sweep d d' vd hP hD, finish_vreg, finish_vreg, mirror_sweep_value H e vd d' hP.even hk]

/-- The samples that `IFFT vd, vd` makes of it. -/
theorem lookup_ifft_mirror_sweep {n : Nat} (hn : n < e.P) :
    lookup n
        ((command H d'' (.ifft vd vd) (command H d' (.mirror vd) (command H d (.sweep vd) e))).vreg vd) =
      some (chirpSample H.num e.P (H.num.ofF32 e.duty) n) := by
  have ht := command_mirror_sweep_P d d' vd hP hD
  rw [lookup_command_ifft d'' vd vd ((periodOk_iff_of_P_eq ht).2 hP) (ht ▸ hn), ht,
    map_readV_of_lookup d'' vd fun k hk => lookup_mirror_sweep d d' vd hP hD hk, chirpSample]

/-- `SYNTH` with valid parameters leaves the samples in `V0` and their real parts in `RES`. -/
theorem lookup_command_synth {n : Nat} (hn : n < e.P) :
    lookup n ((command H d .synth e).vreg .v0) = some (chirpSample H.num e.P (H.num.ofF32 e.duty) n) ∧
      lookup n (command H d .synth e).res = some (chirpSample H.num e.P (H.num.ofF32 e.duty) n).re := by
  rw [command_of_none d (faultOf_of_periodOk_dutyOk rfl hP hD), finish_vreg, finish_res]
  exact synthEffect_value H d hP.even hn

end

/-! ### Magnitude and energy -/

/-- `magSq` is the squared magnitude (R16). -/
theorem exact_magSq (u : Word → ℝ) (z : Cx ℝ) : magSq (exactNum u) z = ‖toC z‖ ^ 2 := by
  rw [Complex.sq_norm]
  rfl

theorem exact_magSq_chirpBin (u : Word → ℝ) (P : Nat) (d : ℝ) (k : Nat) :
    magSq (exactNum u) (chirpBin (exactNum u) P d k) = 1 := by
  rw [exact_magSq, norm_exact_chirpBin, one_pow]

/-- Conjugation turns the inverse kernel into the forward one. -/
theorem conj_kernel_one (N n k : Nat) : (starRingEnd ℂ) (kernel 1 N n k) = kernel (-1) N n k := by
  rw [kernel, kernel, ← Complex.exp_conj]
  congr 1
  simp [map_ofNat, neg_div]

/-- A sample's conjugate, by the forward kernel and the conjugates of the bins. -/
theorem conj_sample_eq_sum {N n : Nat} (x : Nat → Cx ℝ) (hn : n < N) :
    (starRingEnd ℂ) (toC (x n)) = (1 / (N : ℂ)) *
      ∑ k ∈ range N, (starRingEnd ℂ) (toC (exactDft N ((List.range N).map x) k)) * kernel (-1) N n k := by
  conv_lhs => rw [← exactIdft_exactDft x hn, toC_exactIdft]
  simp [conj_kernel_one]

/-- Parseval's relation for the transforms of R120 and R121. -/
theorem exactDft_parseval (N : Nat) (x : Nat → Cx ℝ) :
    ∑ n ∈ range N, ‖toC (x n)‖ ^ 2 =
      1 / (N : ℝ) * ∑ k ∈ range N, ‖toC (exactDft N ((List.range N).map x) k)‖ ^ 2 := by
  apply Complex.ofReal_injective
  push_cast
  set X := exactDft N ((List.range N).map x) with hX
  calc ∑ n ∈ range N, (‖toC (x n)‖ : ℂ) ^ 2
      = ∑ n ∈ range N, toC (x n) *
          ((1 / (N : ℂ)) * ∑ k ∈ range N, (starRingEnd ℂ) (toC (X k)) * kernel (-1) N n k) :=
        sum_congr rfl fun n hn => by rw [← conj_sample_eq_sum x (mem_range.1 hn), Complex.mul_conj']
    _ = (1 / (N : ℂ)) * ∑ k ∈ range N,
          (∑ n ∈ range N, toC (x n) * kernel (-1) N n k) * (starRingEnd ℂ) (toC (X k)) := by
        simp only [mul_sum, sum_mul]
        rw [sum_comm]
        exact sum_congr rfl fun k _ => sum_congr rfl fun n _ => by ring
    _ = (1 / (N : ℂ)) * ∑ k ∈ range N, (‖toC (X k)‖ : ℂ) ^ 2 := by
        congr 1
        exact sum_congr rfl fun k _ => by rw [← toC_exactDft, ← hX, Complex.mul_conj']

/-- The chirp has unit energy (R147). -/
theorem exact_chirp_energy (u : Word → ℝ) {P : Nat} (d : ℝ) (h2 : 2 ≤ P) (he : P % 2 = 0) :
    ∑ n ∈ range P, (chirpSample (exactNum u) P d n).re ^ 2 = 1 := by
  have hbin : ∀ k < P, ‖toC (exactDft P ((List.range P).map (chirpSample (exactNum u) P d)) k)‖ = 1 := fun k hk => by
    rw [← norm_exact_chirpBin u P d k]
    exact congrArg (‖toC ·‖) (exactDft_exactIdft _ hk)
  have hsample : ∀ n, (chirpSample (exactNum u) P d n).re ^ 2 = ‖toC (chirpSample (exactNum u) P d n)‖ ^ 2 := fun n => by
    rw [← exact_chirpSample_ofReal u P d h2 he n, ← exact_magSq u]
    simp [magSq, ofReal, sq]
  have hP : (P : ℝ) ≠ 0 := Nat.cast_ne_zero.2 (by omega)
  simp only [hsample]
  rw [exactDft_parseval, sum_congr rfl fun k hk => by rw [hbin k (mem_range.1 hk)]]
  simp [hP]

/-! ### The obligations -/

/-- Settles O53: the spectrum is `chirpBin`, whose inverse transform is real. -/
theorem exactChirpSpectrum : Obligations.ExactChirpSpectrum := by
  rintro H d d' vd e ⟨u, hu⟩ hP hD
  refine ⟨chirpBin H.num e.P (H.num.ofF32 e.duty), fun k => lookup_mirror_sweep d d' vd hP hD, fun k _ => ?_,
    fun k hk => ?_, fun d'' n hn => ?_⟩
  · rw [hu, exact_magSq_chirpBin]
  · rw [hu, exact_chirpBin_hermitian u _ _ hP.1 hP.even k hk]
  · rw [lookup_ifft_mirror_sweep d d' d'' vd hP hD hn, hu, ← exact_chirpSample_ofReal u _ _ hP.1 hP.even n]
    exact ⟨_, rfl⟩

/-- Settles O54: the samples are real, their transform is the spectrum, and Parseval's relation gives the energy. -/
theorem exactChirpFlatness : Obligations.ExactChirpFlatness := by
  rintro H d e ⟨u, hu⟩ hP hD
  have hdft : ∀ k < e.P,
      H.num.dft e.P ((List.range e.P).map fun n =>
          ofReal H.num (chirpSample H.num e.P (H.num.ofF32 e.duty) n).re) k =
        chirpBin H.num e.P (H.num.ofF32 e.duty) k := by
    rw [hu]
    exact fun k hk => exact_chirpForward u _ hP.1 hP.even hk
  refine ⟨fun n => (chirpSample H.num e.P (H.num.ofF32 e.duty) n).re, fun n hn => ?_, hdft, fun k hk => ?_, ?_⟩
  · obtain ⟨hv, hres⟩ := lookup_command_synth d hP hD hn
    refine ⟨hres, hv.trans (congrArg some ?_)⟩
    rw [hu]
    exact (exact_chirpSample_ofReal u _ _ hP.1 hP.even n).symm
  · rw [hdft k hk, hu, exact_magSq_chirpBin]
  · rw [hu]
    exact exact_chirp_energy u _ hP.1 hP.even

end Sys2Proof.Machine
end

section
/-! PROOFS. The block geometry and `LDBLK` (42_block_load.md R160, R161): where the blocks lie, the three checks of the command
in their order, the samples it loads, its completion and its fault entries. -/

namespace Sys2Proof.Machine

/-! ### The geometry -/

section
variable {M P b n : Nat}

theorem numBlocks_of_lt (h : M < 2 * P) : numBlocks M P = 0 := if_pos h

theorem numBlocks_of_le (h : 2 * P ≤ M) : numBlocks M P = (M - 2 * P) / P := if_neg (Nat.not_lt.2 h)

theorem two_mul_le_of_lt_numBlocks (hb : b < numBlocks M P) : 2 * P ≤ M := by
  by_contra h
  rw [numBlocks_of_lt (Nat.lt_of_not_le h)] at hb
  exact Nat.not_lt_zero b hb

/-- The blocks end within the recording. -/
theorem blocksEnd_le (h : 2 * P ≤ M) : 2 * P + numBlocks M P * P ≤ M := by
  have hd := Nat.div_mul_le_self (M - 2 * P) P
  rw [numBlocks_of_le h]
  omega

/-- Every pair of a block comes before the end of `N` blocks. -/
theorem firstPair_add_lt {N : Nat} (hb : b < N) (hn : n < P) : firstPair P b + n < 2 * P + N * P := by
  have hm : (b + 1) * P ≤ N * P := Nat.mul_le_mul_right P hb
  rw [Nat.succ_mul] at hm
  unfold firstPair
  omega

theorem two_mul_le_firstPair_add : 2 * P ≤ firstPair P b + n := by
  unfold firstPair
  omega

end

/-- Settles O32: the two branches of `numBlocks`, and where the first pairs and the end of the blocks lie. -/
theorem blockGeometry : Obligations.BlockGeometry := by
  intro M P hP
  exact ⟨numBlocks_of_lt, numBlocks_of_le, one_le_numBlocks_iff (by omega), fun b => rfl, fun b n hb hn =>
    ⟨two_mul_le_firstPair_add, firstPair_add_lt hb hn, blocksEnd_le (two_mul_le_of_lt_numBlocks hb)⟩⟩

/-! ### The checks of `LDBLK` -/

section
variable {ν : Type} {H : Params ν} {e : Engine ν} (vd : VReg) (ch : Channel)

theorem faultOf_ldblk_of_lt (hP : PeriodOk H e) (hM : RecLenOk H e) (hb : e.blk.toNat < e.blocks) :
    faultOf H e (.ldblk vd ch) = none := by
  rw [faultOf, checksOf, (periodValid_iff H e).2 hP, (recLenValid_iff H e).2 hM, decide_eq_true hb]
  rfl

theorem faultOf_ldblk_of_le (hP : PeriodOk H e) (hM : RecLenOk H e) (hb : e.blocks ≤ e.blk.toNat) :
    faultOf H e (.ldblk vd ch) = some .insufficientData := by
  rw [faultOf, checksOf, (periodValid_iff H e).2 hP, (recLenValid_iff H e).2 hM, decide_eq_false (Nat.not_lt.2 hb)]
  rfl

/-- `LDBLK` raises `InvalidParameter` when `PERIOD` or `REC_LEN` is not valid, whatever `BLK` holds. -/
theorem faultOf_ldblk_of_invalid (h : ¬(PeriodOk H e ∧ RecLenOk H e)) :
    faultOf H e (.ldblk vd ch) = some .invalidParameter := by
  rw [← periodValid_iff, ← recLenValid_iff] at h
  rw [faultOf, checksOf]
  cases hp : e.periodValid H
  · rfl
  · rw [firstFault_cons_true, Bool.eq_false_iff.2 fun hm => h ⟨hp, hm⟩]
    rfl

end

/-! ### The command -/

/-- A command that raises a fault leaves the fault entry's state. -/
theorem command_faultEntry {ν : Type} {H : Params ν} (d : Nat) {e : Engine ν} {i : Instr} {f : FaultCode}
    (h : faultOf H e i = some f) : FaultEntry f e (command H d i e) :=
  command_of_some d h ▸ raise_faultEntry f e

/-- Settles O14: with every check passed the command is its effect and the completion, otherwise the fault entry of the check
that failed first. -/
theorem ldblkLoadsBlock : Obligations.LdblkLoadsBlock := by
  intro vd ch
  refine ⟨(BitVec.or_assoc ..).symm, exec_eq_command _, fun H d e => ⟨fun hP hM hb => ?_,
    fun h => command_faultEntry d (faultOf_ldblk_of_invalid vd ch h),
    fun hP hM hb => command_faultEntry d (faultOf_ldblk_of_le vd ch hP hM hb)⟩⟩
  rw [command_of_none d (faultOf_ldblk_of_lt vd ch hP hM hb)]
  exact ⟨fun n hn => (congrArg _ (finish_vreg _ vd)).trans (ldblkEffect_value H d e _ vd ch hn),
    finish_statusAfter_of_eq (writeVec_status ..), (ldblkEffect_frame H d e _ vd ch).finish⟩

end Sys2Proof.Machine
end

section
/-! PROOFS. The divider `CDIV` (43_divide.md R170 to R174): which bins it forces to zero, how many it counts, its completion;
and that in `NUM_EXACT` it scales with its numerator. -/

namespace Sys2Proof.Machine

/-! ### One bin -/

section
variable {ν : Type} {N : Numerics ν} {fl : ν} {a z : Cx ν}

/-- The test for a forced bin with R170's degenerate divisor written out. -/
theorem binForced_iff :
    binForced N fl a z = true ↔
      (N.lt N.zero (N.abs z.re) = false ∧ N.lt N.zero (N.abs z.im) = false) ∨
      N.lt (N.add (N.mul z.re z.re) (N.mul z.im z.im)) (N.mul fl fl) = true ∨
      N.isFinite (N.cdiv a z).re = false ∨ N.isFinite (N.cdiv a z).im = false := by
  simp only [binForced, degenerate, magSq, Bool.or_eq_true, Bool.and_eq_true, Bool.not_eq_true', Bool.and_eq_false_iff,
    or_assoc]

theorem binQuotient_of_forced (h : binForced N fl a z = true) : binQuotient N fl a z = ⟨N.zero, N.zero⟩ := if_pos h

theorem binQuotient_of_not_forced (h : ¬binForced N fl a z = true) : binQuotient N fl a z = N.cdiv a z := if_neg h

/-- The number written for a bin is finite: a quotient that is not finite is among the forced (R172). -/
theorem binQuotient_isFinite (h0 : N.isFinite N.zero = true) :
    N.isFinite (binQuotient N fl a z).re = true ∧ N.isFinite (binQuotient N fl a z).im = true := by
  by_cases h : binForced N fl a z = true
  · rw [binQuotient_of_forced h]
    exact ⟨h0, h0⟩
  · rw [binQuotient_of_not_forced h]
    simp only [binForced_iff, not_or, Bool.not_eq_false] at h
    exact h.2.2

end

/-! ### The forced bins and their count -/

/-- The bins among `0..P-1` that `CDIV` forces to zero. -/
def forcedBins {ν : Type} (N : Numerics ν) (fl : ν) (a z : Nat → Cx ν) (P : Nat) : List Nat :=
  (List.range P).filter fun k => binForced N fl (a k) (z k)

section
variable {ν : Type} (N : Numerics ν) (fl : ν) (a z : Nat → Cx ν) (P : Nat)

theorem forcedBins_nodup : (forcedBins N fl a z P).Nodup := List.nodup_range.filter _

theorem mem_forcedBins (k : Nat) : k ∈ forcedBins N fl a z P ↔ k < P ∧ binForced N fl (a k) (z k) = true := by
  rw [forcedBins, List.mem_filter, List.mem_range]

theorem forcedCount_eq_length : forcedCount N fl a z P = (forcedBins N fl a z P).length := List.countP_eq_length_filter

end

theorem saturatingCount_toNat (w : Word) (n : Nat) : (saturatingCount w n).toNat = min (w.toNat + n) 0xFFFFFFFF := by
  rw [saturatingCount, BitVec.toNat_ofNat, Nat.mod_eq_of_lt (by omega)]

/-! ### The checks of `PERIOD` and `DIV_FLOOR` -/

section
variable {ν : Type} {H : Params ν} {e : Engine ν} (vd va vb : VReg)

theorem faultOf_cdiv_of_ok (hP : PeriodOk H e) (hF : DivFloorOk e) : faultOf H e (.cdiv vd va vb) = none := by
  rw [faultOf, checksOf, (periodValid_iff H e).2 hP, (divFloorValid_iff e).2 hF]
  rfl

theorem faultOf_cdiv_of_not_ok (h : ¬(PeriodOk H e ∧ DivFloorOk e)) :
    faultOf H e (.cdiv vd va vb) = some .invalidParameter := by
  rw [← periodValid_iff, ← divFloorValid_iff] at h
  rw [faultOf, checksOf]
  cases hp : e.periodValid H
  · rfl
  · rw [firstFault_cons_true, Bool.eq_false_iff.2 fun hf => h ⟨hp, hf⟩]
    rfl

end

/-! ### The command -/

theorem encode_cdiv (vd va vb : VReg) : encode (.cdiv vd va vb) =
    0x00000006#32 ||| Encode.vregNumber vd <<< 8 ||| Encode.vregNumber va <<< 10 ||| Encode.vregNumber vb <<< 12 := by
  show 0x00000006#32 ||| (_ ||| _ ||| _) = _
  rw [← BitVec.or_assoc, ← BitVec.or_assoc]

/-- Settles O20: with `PERIOD` and `DIV_FLOOR` valid the command is its effect and the completion, otherwise the fault
entry. -/
theorem cdivDividesOrForcesZero : Obligations.CdivDividesOrForcesZero := by
  intro vd va vb s
  refine ⟨encode_cdiv vd va vb, fun hP hF => ?_, fun h => exec_faultEntry (faultOf_cdiv_of_not_ok vd va vb h)⟩
  simp only [← binForced_iff]
  refine ⟨_, forcedBins Config.num (Config.num.ofF32 s.divFloor) (readV Config.params s.draws .a s.toEngine va)
      (readV Config.params s.draws .b s.toEngine vb) s.P, exec_of_none (faultOf_cdiv_of_ok vd va vb hP hF),
    ⟨forcedBins_nodup .., mem_forcedBins _ _ _ _ _⟩, fun k hk => ?_, ?_⟩
  · have hv := (congrArg _ (finish_vreg _ vd)).trans (cdivEffect_value Config.params s.draws s.toEngine vd va vb hk)
    exact ⟨fun hf => hv.trans (congrArg _ (binQuotient_of_forced hf)),
      fun hf => hv.trans (congrArg _ (binQuotient_of_not_forced hf))⟩
  · rw [← forcedCount_eq_length]
    exact ⟨saturatingCount_toNat .., finish_warnDegen (writeVec_status ..), (cdivEffect_frame _ _ _ vd va vb).finish,
      rfl, rfl, rfl⟩

/-- Settles O47: `CDIV` writes the quotients, each of them finite. -/
theorem cdivResultsFinite : Obligations.CdivResultsFinite := by
  intro ν H d vd va vb e h0 hP hF k hk
  rw [command_of_none d (faultOf_cdiv_of_ok vd va vb hP hF)]
  exact ⟨_, (congrArg _ (finish_vreg _ vd)).trans (cdivEffect_value H d e vd va vb hk), binQuotient_isFinite h0⟩

/-! ### `NUM_EXACT` -/

section
variable (u : Word → ℝ) (fl g : ℝ) (a z : Cx ℝ)

/-- R170's exact reading: the divisor is 0 or its magnitude is below the floor. -/
theorem exact_degenerate_iff :
    degenerate (exactNum u) fl z = true ↔ z = ⟨0, 0⟩ ∨ z.re ^ 2 + z.im ^ 2 < fl ^ 2 := by
  obtain ⟨x, y⟩ := z
  simp [degenerate, magSq, sq]

/-- The divider is linear in a real factor of its numerator. -/
theorem exact_cdiv_smul :
    (exactNum u).cdiv ⟨g * a.re, g * a.im⟩ z = ⟨g * ((exactNum u).cdiv a z).re, g * ((exactNum u).cdiv a z).im⟩ := by
  simp only [exactNum, Cx.mk.injEq]
  constructor <;> ring

/-- The forced bins depend on the divisor alone. -/
theorem exact_binForced_smul : binForced (exactNum u) fl ⟨g * a.re, g * a.im⟩ z = binForced (exactNum u) fl a z := by
  rw [exact_binForced, exact_binForced]

/-- What is written scales with the numerator, forced or not. -/
theorem exact_binQuotient_smul :
    binQuotient (exactNum u) fl ⟨g * a.re, g * a.im⟩ z =
      ⟨g * (binQuotient (exactNum u) fl a z).re, g * (binQuotient (exactNum u) fl a z).im⟩ := by
  by_cases h : binForced (exactNum u) fl a z = true
  · have h' := (exact_binForced_smul u fl g a z).trans h
    rw [binQuotient_of_forced h, binQuotient_of_forced h']
    simp
  · have h' := (exact_binForced_smul u fl g a z).symm ▸ h
    rw [binQuotient_of_not_forced h, binQuotient_of_not_forced h', exact_cdiv_smul]

end

/-- Settles O57: every quotient of `NUM_EXACT` is finite, so that the divisor alone decides, and the division is linear. -/
theorem exactDividerScales : Obligations.ExactDividerScales := by
  intro u fl g a z _
  have hf := exact_binForced_smul u fl g a z
  exact ⟨hf, exact_binForced u fl a z, exact_degenerate_iff u fl z,
    fun h => ⟨binQuotient_of_forced h, binQuotient_of_forced (hf.trans h)⟩, exact_binQuotient_smul u fl g a z⟩

end Sys2Proof.Machine
end

section
/-! PROOFS. The commands `ACLR`, `ACCR` and `AVG` (44_accumulate.md R185 to R187): the checks of `PERIOD` and `ACC_CNT`, the
elements they write, their completion. -/

namespace Sys2Proof.Machine

/-! ### The checks of `PERIOD` and `ACC_CNT` -/

section
variable {ν : Type} {H : Params ν} {e : Engine ν} {i : Instr} {w : Word} {f : FaultCode}
  (hc : checksOf H e i = [(e.periodValid H, .invalidParameter), (e.accCnt != w, f)])
include hc

/-- A command that checks `PERIOD` and then `ACC_CNT` passes when `PERIOD` is valid and the count is not the refused one. -/
theorem faultOf_of_periodOk_accCnt_ne (hP : PeriodOk H e) (hw : e.accCnt ≠ w) : faultOf H e i = none := by
  rw [faultOf, hc, (periodValid_iff H e).2 hP, bne_iff_ne.2 hw]
  rfl

/-- With `PERIOD` valid the refused count raises the fault of the second check. -/
theorem faultOf_of_periodOk_accCnt_eq (hP : PeriodOk H e) (hw : e.accCnt = w) : faultOf H e i = some f := by
  rw [faultOf, hc, (periodValid_iff H e).2 hP, hw, bne_self_eq_false]
  rfl

/-- A `PERIOD` that is not valid raises `InvalidParameter`, whatever the count. -/
theorem faultOf_of_not_periodOk_accCnt (hP : ¬PeriodOk H e) : faultOf H e i = some .invalidParameter := by
  rw [faultOf, hc, Bool.eq_false_iff.2 ((periodValid_iff H e).not.2 hP)]
  rfl

end

/-! ### The count and the warning -/

/-- A count that is not full has room for one more block. -/
theorem toNat_add_one_of_ne_full {w : Word} (h : w ≠ 0xFFFFFFFF#32) : (w + 1#32).toNat = w.toNat + 1 := by bv_omega

/-- Where a buffer holds the numbers `f 0..f (cnt-1)`, one of them is not finite exactly when an element of it is not. -/
theorem someNonFinite_iff_of_lookup {ν : Type} (N : Numerics ν) {cnt : Nat} {f : Nat → ν} {m : List (Nat × ν)}
    (h : ∀ n < cnt, lookup n m = some (f n)) :
    someNonFinite N cnt f = true ↔ ∃ n < cnt, ∃ x, lookup n m = some x ∧ N.isFinite x = false := by
  rw [someNonFinite_iff]
  refine exists_congr fun n => and_congr_right fun hn => ?_
  rw [h n hn]
  simp

/-! ### The commands in the machine -/

/-- Settles O21: with `PERIOD` valid the command is its effect and the completion, otherwise the fault entry. -/
theorem aclrStartsAverage : Obligations.AclrStartsAverage := by
  refine ⟨rfl, fun s => ⟨fun hP => ?_, fun hP => exec_faultEntry (faultOf_of_not_periodOk rfl hP)⟩⟩
  exact ⟨_, exec_of_none (faultOf_of_periodOk rfl hP), fun n hn => aclrEffect_value _ _ hn, rfl, rfl,
    finish_statusAfter_of_eq rfl, (aclrEffect_frame _ _).finish, rfl, rfl, rfl⟩

/-- Settles O22: with `PERIOD` valid and room in the count the command is its effect and the completion, otherwise the fault
entry of the check that failed first. -/
theorem accrAccumulates : Obligations.AccrAccumulates := by
  intro va s
  refine ⟨rfl, fun hP hw => ?_, fun hP => exec_faultEntry (faultOf_of_not_periodOk_accCnt rfl hP),
    fun hP hw => exec_faultEntry (faultOf_of_periodOk_accCnt_eq rfl hP hw)⟩
  exact ⟨_, exec_of_none (faultOf_of_periodOk_accCnt_ne rfl hP hw), fun n hn => accrEffect_value _ _ _ va hn,
    toNat_add_one_of_ne_full hw, finish_statusAfter_of_eq rfl, (accrEffect_frame _ _ _ va).finish, rfl, rfl, rfl⟩

/-- Settles O23: with `PERIOD` valid and a block counted the command is its effect, the warning and the completion, otherwise
the fault entry of the check that failed first. -/
theorem avgTakesMean : Obligations.AvgTakesMean := by
  refine ⟨rfl, fun s => ⟨fun hP hw => ?_, fun hP => exec_faultEntry (faultOf_of_not_periodOk_accCnt rfl hP),
    fun hP hw => exec_faultEntry (faultOf_of_periodOk_accCnt_eq rfl hP hw)⟩⟩
  have hv : ∀ n < s.P, lookup n (avgEffect Config.params s.draws s.toEngine).res =
      some (meanOf Config.params s.draws s.toEngine n) := fun n hn => avgEffect_value _ _ _ hn
  exact ⟨_, _, exec_of_none (faultOf_of_periodOk_accCnt_ne rfl hP hw), hv, someNonFinite_iff_of_lookup _ hv,
    finish_warnNonFin rfl, (avgEffect_frame _ _ _).finish, rfl, rfl, rfl⟩

end Sys2Proof.Machine
end

section
/-! PROOFS. The command `PEAK` (45_peak.md R200 to R203): its checks, the scan as a recursion on its length, what is true of the
candidate in `NUM_B64` and in `NUM_EXACT`. -/

namespace Sys2Proof.Machine

/-! ### The scan -/

section
variable {ν : Type} (N : Numerics ν) (x : Nat → ν)

theorem peakIndex_one : peakIndex N x 1 = 0 := rfl

/-- The scan of one element more keeps the candidate unless the new magnitude exceeds the candidate's (R200). -/
theorem peakIndex_succ (k : Nat) :
    peakIndex N x (k + 2) =
      if N.lt (N.abs (x (peakIndex N x (k + 1)))) (N.abs (x (k + 1))) = true then k + 1 else peakIndex N x (k + 1) := by
  rw [peakIndex, peakScan_succ, peakPass, (peakScan_spec N x k).2, apply_ite Prod.fst]
  rfl

/-- What holds of index 0, and of each index whose magnitude exceeds that of one it holds of, holds of the peak's index. -/
theorem peakIndex_induction {p : Nat → Prop} (h0 : p 0)
    (hs : ∀ i k, p i → N.lt (N.abs (x i)) (N.abs (x k)) = true → p k) {P : Nat} (hP : 1 ≤ P) : p (peakIndex N x P) := by
  induction P, hP using Nat.le_induction with
  | base => exact h0
  | succ P hP ih =>
    obtain ⟨k, rfl⟩ := Nat.exists_eq_add_of_le' hP
    rw [peakIndex_succ]
    split
    next hlt => exact hs _ _ ih hlt
    next => exact ih

end

/-! ### The command -/

/-- Two checks that raise the same fault come to one check of both. -/
theorem firstFault_pair (a b : Bool) (f : FaultCode) :
    firstFault [(a, f), (b, f)] = if a = true ∧ b = true then none else some f := by
  cases a <;> cases b <;> rfl

section
variable {ν : Type} {H : Params ν} (d : Nat) {e : Engine ν}

theorem faultOf_peak_of_ok (hP : PeriodOk H e) (hS : SRateOk e) : faultOf H e .peak = none :=
  (firstFault_pair ..).trans (if_pos ⟨(periodValid_iff H e).2 hP, (sRateValid_iff e).2 hS⟩)

theorem faultOf_peak_of_not_ok (h : ¬(PeriodOk H e ∧ SRateOk e)) : faultOf H e .peak = some .invalidParameter := by
  rw [← periodValid_iff, ← sRateValid_iff] at h
  exact (firstFault_pair ..).trans (if_neg h)

/-- The index fits the register (R38). -/
theorem peakEffect_peakIdx (hP : 1 ≤ e.P) :
    (peakEffect H d e).peakIdx.toNat = peakIndex H.num (readRes H d e) e.P :=
  Nat.mod_eq_of_lt ((peakIndex_lt H.num _ hP).trans e.period.isLt)

/-- The delay is that of the index written (R202). -/
theorem peakEffect_delayMs (hP : 1 ≤ e.P) :
    (peakEffect H d e).delayMs = delayOf H.num (peakEffect H d e).peakIdx.toNat e.sRate.toNat := by
  rw [peakEffect_peakIdx d hP]
  rfl

end

/-- Settles O24: with `PERIOD` and `SRATE` valid the command is its effect and the completion, and the candidate after element
`k` is the peak of the first `k + 1`; otherwise the fault entry. -/
theorem peakFindsIndex : Obligations.PeakFindsIndex := by
  refine ⟨rfl, fun s => ⟨fun hP hS => ?_, fun h => exec_faultEntry (faultOf_peak_of_not_ok h)⟩⟩
  have hsub : s.P - 1 + 1 = s.P := Nat.sub_add_cancel hP.pos
  refine ⟨_, fun k => peakIndex Config.num (readRes Config.params s.draws s.toEngine) (k + 1),
    exec_of_none (faultOf_peak_of_ok hP hS), rfl, peakIndex_succ _ _, ?_⟩
  simp only [hsub]
  exact ⟨peakEffect_peakIdx _ hP.pos, peakIndex_lt _ _ hP.pos, rfl, finish_statusAfter_of_eq rfl,
    (peakEffect_frame ..).finish, rfl, rfl, rfl⟩

/-! ### Not-a-numbers in `NUM_B64` -/

/-- The absolute value clears the sign alone. -/
theorem B64.isNaN_abs (x : B64) : B64.isNaN (B64.abs x) = B64.isNaN x := by
  have he : (B64.abs x).extractLsb 62 52 = x.extractLsb 62 52 := BitVec.extractLsb_and.trans BitVec.and_allOnes
  have hf : (B64.abs x).extractLsb 51 0 = x.extractLsb 51 0 := BitVec.extractLsb_and.trans BitVec.and_allOnes
  rw [B64.isNaN, B64.isNaN, B64.expo, B64.expo, B64.frac, B64.frac, he, hf]

/-- The quiet comparison holds of no NaN (R11). -/
theorem B64.not_isNaN_of_lt {x y : B64} (h : B64.lt x y = true) : B64.isNaN x = false ∧ B64.isNaN y = false := by
  rw [← Bool.or_eq_false_iff, Bool.eq_false_iff]
  intro hn
  rw [B64.lt, if_pos hn] at h
  exact Bool.false_ne_true h

/-- Settles O49: a magnitude that exceeds the candidate's makes neither of the two elements a NaN. -/
theorem peakIgnoresNaN : Obligations.PeakIgnoresNaN := by
  intro L x P hP
  have hlt : ∀ i k, (b64Num L).lt ((b64Num L).abs (x i)) ((b64Num L).abs (x k)) = true →
      B64.isNaN (x i) = false ∧ B64.isNaN (x k) = false := fun i k h => by
    rw [← B64.isNaN_abs (x i), ← B64.isNaN_abs (x k)]
    exact B64.not_isNaN_of_lt h
  refine ⟨fun h0 => ?_, fun h0 => ?_, peakIndex_lt _ _ hP⟩
  · refine peakIndex_induction (p := (· = 0)) _ x rfl (fun i k hi h => ?_) hP
    subst hi
    exact absurd h0 (Bool.eq_false_iff.1 (hlt 0 k h).1)
  · exact peakIndex_induction (p := fun i => B64.isNaN (x i) = false) _ x h0 (fun i k _ h => (hlt i k h).2) hP

/-! ### The first maximum in `NUM_EXACT` -/

/-- In the reals the scan leaves the first index of largest magnitude (R201). -/
theorem exact_peakIndex_firstMaximum (u : Word → ℝ) (x : Nat → ℝ) {P : Nat} (hP : 1 ≤ P) :
    (∀ k < P, |x k| ≤ |x (peakIndex (exactNum u) x P)|) ∧
      ∀ k < peakIndex (exactNum u) x P, |x k| < |x (peakIndex (exactNum u) x P)| := by
  induction P, hP using Nat.le_induction with
  | base => simp [peakIndex_one]
  | succ P hP ih =>
    obtain ⟨n, rfl⟩ := Nat.exists_eq_add_of_le' hP
    obtain ⟨hmax, hfirst⟩ := ih
    simp only [peakIndex_succ, exactNum_lt, exactNum_abs, decide_eq_true_eq]
    split
    next hlt =>
      have hnew : ∀ k < n + 1, |x k| < |x (n + 1)| := fun k hk => (hmax k hk).trans_lt hlt
      exact ⟨Nat.forall_lt_succ_right.2 ⟨fun k hk => (hnew k hk).le, le_rfl⟩, hnew⟩
    next hlt => exact ⟨Nat.forall_lt_succ_right.2 ⟨hmax, not_lt.1 hlt⟩, hfirst⟩

/-- Settles O56: the command writes the scan's index, the first of largest magnitude, and its delay. -/
theorem exactPeakIsFirstMaximum : Obligations.ExactPeakIsFirstMaximum := by
  rintro H d e ⟨u, hu⟩ hP hS
  obtain ⟨hmax, hfirst⟩ := exact_peakIndex_firstMaximum u (readRes H d e) hP.pos
  have hidx : (peakEffect H d e).peakIdx.toNat = peakIndex (exactNum u) (readRes H d e) e.P := by
    rw [peakEffect_peakIdx d hP.pos, hu]
  have hdelay := peakEffect_delayMs (H := H) d hP.pos
  simp only [hu, delayOf, exactNum_div, exactNum_ofNat, Nat.cast_mul, Nat.cast_ofNat] at hdelay
  rw [command_of_none d (faultOf_peak_of_ok hP hS)]
  refine ⟨?_, ?_, ?_, hdelay⟩
  all_goals rw [finish_peakIdx, effectOf, hidx]
  · exact peakIndex_lt _ _ hP.pos
  · exact hmax
  · exact hfirst

end Sys2Proof.Machine
end

section
/-! PROOFS. The commands `NOP` and `SYNTH` (46_macro.md R210, R211), and that every command depends on its read set alone
(R214). -/

namespace Sys2Proof.Machine

/-- Settles O13: no check can fail, and the effect is the identity. -/
theorem nopCompletes : Obligations.NopCompletes := by
  refine ⟨rfl, fun s => ⟨_, exec_of_none (i := .nop) rfl, ?_⟩⟩
  exact ⟨finish_statusAfter_of_eq rfl, (Frame.refl _ _).finish, rfl, rfl, rfl⟩

/-- Settles O25: with `PERIOD` and `DUTY` valid the command is its effect, whose closed form is the chirp, and the
completion; otherwise the fault entry. -/
theorem synthIsChirp : Obligations.SynthIsChirp := by
  refine ⟨rfl, fun s => ⟨fun hP hD => ?_, fun h => exec_faultEntry (faultOf_of_not_periodOk_dutyOk rfl h)⟩⟩
  exact ⟨_, _, exec_of_none (faultOf_of_periodOk_dutyOk rfl hP hD),
    fun n hn => synthEffect_value Config.params s.draws hP.even hn, someNonFinite_iff ..,
    synthEffect_status Config.params s.draws hP.even, (synthEffect_frame _ _ _ hP.pos).finish, rfl, rfl, rfl⟩

/-- Settles O28: pieces that hold the same answer alike at one draw, so the two runs come out alike. -/
theorem commandReadsOnlyItsReadSet : Obligations.CommandReadsOnlyItsReadSet := by
  intro ν H d i e1 e2 _ hreads
  have h : ReadsAlike H d d e1 e2 i := fun p hp => (hreads p hp).readsSame d
  exact ⟨h.faultOf, fun f hf => h.faultEntry hf, h.command⟩

end Sys2Proof.Machine
end

section
/-! PROOFS. The command `ESTIMATE` (46_macro.md R212, R213, R219): its checks, its closed form, the checks of the primitives
inside it and inside `SYNTH`, and a bin that is degenerate in every block. -/

namespace Sys2Proof.Machine

/-! ### The checks of `ESTIMATE` -/

/-- A list of checks passes exactly when each of them does. -/
theorem firstFault_eq_none_iff {l : List (Bool × FaultCode)} : firstFault l = none ↔ ∀ c ∈ l, c.1 = true :=
  ⟨firstFault_none, firstFault_of_all⟩

/-- Checks that all raise `f`, one of them failing, raise `f` whatever checks follow. -/
theorem firstFault_append_of_not_all {l : List (Bool × FaultCode)} {f : FaultCode} (rest : List (Bool × FaultCode))
    (hf : ∀ c ∈ l, c.2 = f) (h : ¬∀ c ∈ l, c.1 = true) : firstFault (l ++ rest) = some f := by
  induction l with
  | nil => exact absurd (List.forall_mem_nil _) h
  | cons c l ih =>
    obtain ⟨ok, g⟩ := c
    obtain ⟨hg, hl⟩ := List.forall_mem_cons.1 hf
    cases ok with
    | false => exact congrArg some hg
    | true => exact ih hl fun ha => h (List.forall_mem_cons.2 ⟨rfl, ha⟩)

section
variable {ν : Type} {H : Params ν} {e : Engine ν}

theorem sufficient_iff_one_le_blocks (hP : PeriodOk H e) : Sufficient e ↔ 1 ≤ e.blocks :=
  (one_le_numBlocks_iff hP.pos).symm

theorem EstimateOk.one_le_blocks (h : EstimateOk H e) : 1 ≤ e.blocks :=
  have ⟨hP, _, _, _, hb⟩ := h
  (sufficient_iff_one_le_blocks hP).1 hb

theorem faultOf_estimate_eq_none_iff : faultOf H e .estimate = none ↔ EstimateOk H e := by
  rw [faultOf, firstFault_eq_none_iff, EstimateOk]
  simp only [checksOf, List.forall_mem_cons, List.not_mem_nil, false_imp_iff, implies_true, and_true, periodValid_iff,
    sRateValid_iff, recLenValid_iff, divFloorValid_iff, decide_eq_true_eq]
  exact and_congr_right fun hP => by rw [sufficient_iff_one_le_blocks hP]

/-- A parameter that is not valid comes before the number of blocks (R212, R246). -/
theorem faultOf_estimate_of_invalid (h : ¬(PeriodOk H e ∧ SRateOk e ∧ RecLenOk H e ∧ DivFloorOk e)) :
    faultOf H e .estimate = some .invalidParameter := by
  refine firstFault_append_of_not_all (l := (checksOf H e .estimate).take 4) _ (by simp [checksOf]) fun ha => h ?_
  simpa [checksOf, periodValid_iff, sRateValid_iff, recLenValid_iff, divFloorValid_iff] using ha

theorem faultOf_estimate_of_not_sufficient (hP : PeriodOk H e) (hS : SRateOk e) (hR : RecLenOk H e) (hF : DivFloorOk e)
    (h : ¬Sufficient e) : faultOf H e .estimate = some .insufficientData := by
  rw [faultOf, checksOf, (periodValid_iff H e).2 hP, (sRateValid_iff e).2 hS, (recLenValid_iff H e).2 hR,
    (divFloorValid_iff e).2 hF, decide_eq_false (mt (sufficient_iff_one_le_blocks hP).2 h)]
  rfl

end

/-! ### The closed form -/

section
variable {ν : Type} {H : Params ν} {e : Engine ν} (d : Nat) (h : EstimateOk H e)
include h

theorem command_estimate_of_ok : command H d .estimate e = finish (estimateEffect H d e) :=
  command_of_none d (faultOf_estimate_eq_none_iff.2 h)

/-- With its checks passed `ESTIMATE` sets the warnings as the forced bins and the averaged response say. -/
theorem estimate_statusAfter :
    StatusAfter (decide (0 < totalForced H d e)) (someNonFinite H.num e.P (averagedResponse H d e)) e
      (command H d .estimate e) := by
  rw [command_estimate_of_ok d h]
  exact finish_warnings (estimateEffect_orderState H d h.1.pos).status

end

theorem toNat_blocks {ν : Type} (e : Engine ν) : (BitVec.ofNat 32 e.blocks).toNat = e.blocks :=
  Nat.mod_eq_of_lt ((blocks_lt e).trans (by omega))

/-- Settles O26: with every check passed the command is its effect, whose closed form is R212, and the completion;
otherwise the fault entry of the check that failed first. -/
theorem estimateIsDelayEstimate : Obligations.EstimateIsDelayEstimate := by
  refine ⟨rfl, exec_eq_command _, fun H d e => ⟨fun h => ?_, fun h => command_faultEntry d (faultOf_estimate_of_invalid h),
    fun hP hS hR hF h => command_faultEntry d (faultOf_estimate_of_not_sufficient hP hS hR hF h)⟩⟩
  have hw := estimate_statusAfter d h
  have o := estimateEffect_orderState H d h.1.pos
  rw [command_estimate_of_ok d h] at hw ⊢
  refine ⟨fun n hn => ?_, (congrArg _ o.nBlk).trans (toNat_blocks e), o.accCnt.trans List.length_range, o.degenCnt,
    o.peakIdx, o.delayMs, _, someNonFinite_iff .., hw, (estimateOrder_frame ..).finish⟩
  obtain ⟨h0, h1, h2⟩ := estimateEffect_vreg H d h.one_le_blocks hn
  exact ⟨h0, h1, h2, o.acc n hn, o.res n hn⟩

/-! ### The primitives inside `SYNTH` and `ESTIMATE` -/

section
variable {ν : Type} {H : Params ν} {d b : Nat} {x : Engine ν}

/-- `LDBLK` with `BLK` holding the index of a block that is there. -/
theorem faultOf_ldblk_at (vd : VReg) (ch : Channel) (hP : PeriodOk H x) (hM : RecLenOk H x) (hb : b < x.blocks) :
    faultOf H { x with blk := BitVec.ofNat 32 b } (.ldblk vd ch) = none :=
  have hb32 : (BitVec.ofNat 32 b).toNat = b := Nat.mod_eq_of_lt (by have := blocks_lt x; omega)
  faultOf_ldblk_of_lt vd ch hP hM (hb32.trans_lt hb)

/-- Inside a pass of the loop no primitive faults, if `PERIOD`, `REC_LEN` and `DIV_FLOOR` are valid, block `b` is there and
the count is not full: no primitive of the pass before `ACCR` writes any of these. -/
theorem estimateBlock_cannot_fault (hP : PeriodOk H x) (hM : RecLenOk H x) (hF : DivFloorOk x) (hb : b < x.blocks)
    (hc : x.accCnt ≠ 0xFFFFFFFF#32) : ∀ x1 x2 x3 x4 x5 x6,
      x1 = ldblkEffect H d b .v0 .ch0 x → x2 = ldblkEffect H d b .v1 .ch1 x1 → x3 = fftEffect H d .v0 .v0 x2 →
      x4 = fftEffect H d .v1 .v1 x3 → x5 = cdivEffect H d .v2 .v1 .v0 x4 → x6 = ifftEffect H d .v2 .v2 x5 →
      faultOf H { x with blk := BitVec.ofNat 32 b } (.ldblk .v0 .ch0) = none ∧
      faultOf H { x1 with blk := BitVec.ofNat 32 b } (.ldblk .v1 .ch1) = none ∧
      faultOf H x2 (.fft .v0 .v0) = none ∧ faultOf H x3 (.fft .v1 .v1) = none ∧
      faultOf H x4 (.cdiv .v2 .v1 .v0) = none ∧ faultOf H x5 (.ifft .v2 .v2) = none ∧
      faultOf H x6 (.accr .v2) = none ∧ estimateBlock H d x b = accrEffect H d .v2 x6 := by
  rintro x1 x2 x3 x4 x5 x6 rfl rfl rfl rfl rfl rfl
  have ok : ∀ {y : Engine ν}, y.P = x.P → PeriodOk H y := fun hy => (periodOk_iff_of_P_eq hy).2 hP
  refine ⟨faultOf_ldblk_at _ _ hP hM hb, faultOf_ldblk_at _ _ (ok (by simp)) ?_ ?_,
    faultOf_of_periodOk rfl (ok (by simp)), faultOf_of_periodOk rfl (ok (by simp)),
    faultOf_cdiv_of_ok _ _ _ (ok (by simp)) ?_, faultOf_of_periodOk rfl (ok (by simp)),
    faultOf_of_periodOk_accCnt_ne rfl (ok (by simp)) ?_, rfl⟩
  · simpa [RecLenOk] using hM
  · simpa [Engine.blocks] using hb
  · simpa [DivFloorOk] using hF
  · simpa using hc

end

/-- The parameters stay as they are through any passes of the loop, and the count is that of the passes. -/
theorem estimateBlocks_cleared_params {ν : Type} (H : Params ν) (d : Nat) (e : Engine ν) (bs : List Nat) :
    let x := estimateBlocks H d bs (cleared H e)
    x.P = e.P ∧ x.recLen = e.recLen ∧ x.divFloor = e.divFloor ∧ x.sRate = e.sRate ∧
      x.accCnt = BitVec.ofNat 32 bs.length := by
  obtain ⟨_, hp, _, hf, hs, hm, _, hc, _⟩ := cleared_fields H e
  have L := loopState H d (cleared H e) bs
  exact ⟨congrArg BitVec.toNat (L.period.trans hp), L.recLen.trans hm, L.divFloor.trans hf, L.sRate.trans hs,
    L.accCnt.trans (by rw [hc, BitVec.zero_add])⟩

/-- Settles O12: the effects before each primitive leave the parameters it checks as they were at the start, and `ACC_CNT`,
which only the passes count up, is neither full before a pass nor 0 after the last. -/
theorem macroStepsCannotFault : Obligations.MacroStepsCannotFault := by
  intro ν H d e
  refine ⟨fun hs => ?_, fun he => ?_⟩
  · have hP := periodOk_of_faultOf_none (by simp) hs
    have ok : ∀ {y : Engine ν}, y.P = e.P → PeriodOk H y := fun hy => (periodOk_iff_of_P_eq hy).2 hP
    exact ⟨hs, faultOf_of_periodOk rfl (ok (by simp)), faultOf_of_periodOk rfl (ok (by simp)),
      faultOf_of_periodOk rfl (ok (by simp))⟩
  · have hok := faultOf_estimate_eq_none_iff.1 he
    have hb1 := hok.one_le_blocks
    obtain ⟨hP, hS, hM, hF, _⟩ := hok
    have hlt := blocks_lt e
    refine ⟨faultOf_of_periodOk rfl hP, fun b hb x x1 x2 x3 x4 x5 x6 hx => ?_, fun y hy => ?_⟩
    · obtain ⟨xP, xM, xF, _, xC⟩ := hx ▸ estimateBlocks_cleared_params H d e (List.range b)
      refine estimateBlock_cannot_fault ((periodOk_iff_of_P_eq xP).2 hP) ?_ ?_ ((blocks_eq xP xM).symm ▸ hb) ?_
        x1 x2 x3 x4 x5 x6
      · rwa [RecLenOk, xM]
      · rwa [DivFloorOk, xF]
      · rw [xC, List.length_range]
        bv_omega
    · obtain ⟨yP, _, _, yS, yC⟩ := hy ▸ estimateBlocks_cleared_params H d e (List.range e.blocks)
      have hPy := (periodOk_iff_of_P_eq yP).2 hP
      refine ⟨faultOf_of_periodOk_accCnt_ne rfl hPy ?_, faultOf_peak_of_ok ((periodOk_iff_of_P_eq (by simp)).2 hPy) ?_⟩
      · rw [yC, List.length_range]
        bv_omega
      · simpa [SRateOk, yS] using hS

/-! ### A degenerate bin (R219) -/

section
variable {ν : Type} {H : Params ν} {e : Engine ν} (d : Nat) {k : Nat}

/-- A degenerate divisor forces its bin (R171). -/
theorem binForced_of_degenerate {N : Numerics ν} {fl : ν} {z : Cx ν} (a : Cx ν) (h : degenerate N fl z = true) :
    binForced N fl a z = true := by
  rw [binForced, h, Bool.true_or]

/-- A block with a degenerate bin has a forced one. -/
theorem blockForced_pos {b : Nat} (hk : k < e.P)
    (h : degenerate H.num (H.num.ofF32 e.divFloor) (blockBin H d e b .ch0 k) = true) : 1 ≤ blockForced H d e b :=
  List.countP_pos_iff.2 ⟨k, List.mem_range.2 hk, binForced_of_degenerate _ h⟩

/-- One forced bin in every block makes at least as many as there are blocks. -/
theorem blocks_le_totalForced (h : ∀ b < e.blocks, 1 ≤ blockForced H d e b) : e.blocks ≤ totalForced H d e := by
  have hs := List.card_nsmul_le_sum ((List.range e.blocks).map (blockForced H d e)) 1 (by simpa using h)
  simpa [totalForced] using hs

end

/-- Settles O48: the bin is forced in every block, so that the forced bins are at least as many as the blocks, and there is
a block. -/
theorem degenerateBinSafety : Obligations.DegenerateBinSafety := by
  intro ν H d e k h hk hdeg
  have hb1 := h.one_le_blocks
  have hlt := blocks_lt e
  have htot : e.blocks ≤ totalForced H d e := blocks_le_totalForced d fun b hb => blockForced_pos d hk (hdeg b hb)
  have o := estimateEffect_orderState H d h.1.pos
  have hw := estimate_statusAfter d h
  refine ⟨fun b hb => binQuotient_of_forced (binForced_of_degenerate _ (hdeg b hb)), ?_, hw.done, ?_, ?_, ?_⟩
  · rw [command_estimate_of_ok d h]
    exact o.err
  · rw [hw.wDegen, decide_eq_true (by omega : 0 < totalForced H d e), Bool.or_true]
  · rw [command_estimate_of_ok d h]
    exact (le_min htot (by omega)).trans_eq o.degenCnt.symm
  · rw [command_estimate_of_ok d h]
    exact o.peakIdx.trans_lt (peakIndex_lt _ _ h.1.pos)

end Sys2Proof.Machine
end

section
/-! PROOFS. `ESTIMATE` in `NUM_EXACT` (46_macro.md R216, R217, R220): the order of the passes, channel 1 scaled, and channel 1
a shifted copy of channel 0. -/

namespace Sys2Proof.Machine

open Finset

/-! ### The running sum -/

section
variable {H : Params ℝ} {u : Word → ℝ} (hu : H.num = exactNum u) (d : Nat) (e : Engine ℝ)
include hu

/-- The running sum of the passes does not depend on their order. -/
theorem exact_responseSum_perm {bs : List Nat} (hp : bs.Perm (List.range e.blocks)) (n : Nat) :
    bs.foldl (fun a b => H.num.add a (responseSample H d e b n).re) H.num.zero = responseSum H d e n :=
  hp.foldl_eq' (fun x _ y _ a => by rw [hu]; exact add_right_comm ..) _

theorem exact_responseSum (n : Nat) :
    responseSum H d e n = ((List.range e.blocks).map fun b => (responseSample H d e b n).re).sum := by
  rw [List.sum_eq_foldl, List.foldl_map, responseSum, hu]
  rfl

theorem exact_averagedResponse (n : Nat) :
    averagedResponse H d e n = ((List.range e.blocks).map fun b => (responseSample H d e b n).re).sum / e.blocks := by
  rw [averagedResponse, exact_responseSum hu, hu]
  rfl

/-- The closed form of `ESTIMATE` with its passes in any order. -/
theorem exact_orderState_perm {bs : List Nat} (hp : bs.Perm (List.range e.blocks)) (hP : 0 < e.P) :
    OrderState H d bs e (averagedResponse H d e) (estimateOrder H d bs e) := by
  have hlen : bs.length = e.blocks := hp.length_eq.trans List.length_range
  have hb := blocks_lt e
  have o := orderState H d bs e hP (by omega)
  simp only [exact_responseSum_perm hu d e hp, hlen] at o
  exact o

end

/-- Settles O60: below the period `ACC` and `RES` hold the sum and the mean, in which the order of the passes does not show;
from the period on they keep what they held. -/
theorem exactBlockOrder : Obligations.ExactBlockOrder := by
  rintro H d e bs ⟨u, hu⟩ h hp
  have hP := h.1.pos
  have o := estimateEffect_orderState H d hP
  have o' := exact_orderState_perm hu d e hp hP
  have f := estimateOrder_frame H d (List.range e.blocks) e
  have f' := estimateOrder_frame H d bs e
  refine ⟨fun n => ?_, BitVec.eq_of_toNat_eq (o'.peakIdx.trans o.peakIdx.symm), o'.delayMs.trans o.delayMs.symm,
    BitVec.eq_of_toNat_eq ((o'.accCnt.trans hp.length_eq).trans o.accCnt.symm), BitVec.eq_of_toNat_eq ?_⟩
  · by_cases hn : n < e.P
    · exact ⟨(o'.acc n hn).trans ((congrArg some (exact_responseSum_perm hu d e hp n)).trans (o.acc n hn).symm),
        (o'.res n hn).trans (o.res n hn).symm⟩
    · have hacc := f.pieces (.acc n) (by simp) (by simpa using hn)
      have hacc' := f'.pieces (.acc n) (by simp) (by simpa using hn)
      have hres := f.pieces (.res n) (by simp) (by simpa using hn)
      have hres' := f'.pieces (.res n) (by simp) (by simpa using hn)
      exact ⟨hacc.symm.trans hacc', hres.symm.trans hres'⟩
  · rw [o'.degenCnt, (hp.map _).sum_eq]
    exact o.degenCnt.symm

/-! ### Channel 1 times a real factor -/

/-- A real factor on both parts is one on the complex number. -/
theorem toC_smul (g : ℝ) (z : Cx ℝ) : toC ⟨g * z.re, g * z.im⟩ = g * toC z := by
  apply Complex.ext <;> simp [toC]

/-- The inverse transform is linear in a real factor. -/
theorem exactIdft_smul (N : Nat) (g : ℝ) (Z : Nat → Cx ℝ) (n : Nat) :
    exactIdft N ((List.range N).map fun k => ⟨g * (Z k).re, g * (Z k).im⟩) n =
      ⟨g * (exactIdft N ((List.range N).map Z) n).re, g * (exactIdft N ((List.range N).map Z) n).im⟩ := by
  apply toC_injective
  simp only [toC_smul, toC_exactIdft, mul_assoc, ← mul_sum]
  ring

/-- The bins of a block whose samples are `g` times the sequence `y`. -/
theorem toC_blockBin_smul {H : Params ℝ} {u : Word → ℝ} (hu : H.num = exactNum u) {d : Nat} {e : Engine ℝ} {b : Nat}
    {c : Channel} {g : ℝ} {y : Nat → ℝ} (hy : ∀ n < e.P, blockSample H d e b c n = g * y n) (k : Nat) :
    toC (blockBin H d e b c k) = g * toC (exactDft e.P ((List.range e.P).map fun n => ⟨y n, 0⟩) k) := by
  have hx : (List.range e.P).map (fun n => ofReal H.num (blockSample H d e b c n)) =
      (List.range e.P).map fun n => (⟨g * y n, 0⟩ : Cx ℝ) :=
    List.map_congr_left fun n hn => by rw [hy n (List.mem_range.1 hn), hu]; rfl
  rw [blockBin, hx, hu, exactNum_dft, toC_exactDft_smul]

/-- In the reals the peak stays where it is when every sample is multiplied by `k > 0`. -/
theorem exact_peakIndex_smul (u : Word → ℝ) {k : ℝ} (hk : 0 < k) (x : Nat → ℝ) {P : Nat} (hP : 1 ≤ P) :
    peakIndex (exactNum u) (fun n => k * x n) P = peakIndex (exactNum u) x P := by
  induction P, hP using Nat.le_induction with
  | base => rfl
  | succ P hP ih =>
    obtain ⟨n, rfl⟩ := Nat.exists_eq_add_of_le' hP
    simp only [peakIndex_succ, ih, exactNum_lt, exactNum_abs, decide_eq_true_eq, abs_mul,
      mul_lt_mul_iff_right₀ (abs_pos.2 hk.ne')]

/-- The engine `e'` holds the samples of `e` in block `b`, those of channel 1 times `k`, at the same period and floor. -/
structure ScaledBlock (H : Params ℝ) (d : Nat) (k : ℝ) (e e' : Engine ℝ) (b : Nat) : Prop where
  P : e'.P = e.P
  divFloor : e'.divFloor = e.divFloor
  reference : ∀ n < e.P, blockSample H d e' b .ch0 n = blockSample H d e b .ch0 n
  captured : ∀ n < e.P, blockSample H d e' b .ch1 n = k * blockSample H d e b .ch1 n

section
variable {H : Params ℝ} {u : Word → ℝ} (hu : H.num = exactNum u) {d : Nat} {k : ℝ} {e e' : Engine ℝ} {b : Nat}
  (h : ScaledBlock H d k e e' b)
include h

theorem ScaledBlock.blockBin_reference : blockBin H d e' b .ch0 = blockBin H d e b .ch0 := by
  funext j
  rw [blockBin, blockBin, h.P]
  congr 1
  exact List.map_congr_left fun n hn => by rw [h.reference n (List.mem_range.1 hn)]

include hu

theorem ScaledBlock.blockBin_captured (j : Nat) :
    blockBin H d e' b .ch1 j = ⟨k * (blockBin H d e b .ch1 j).re, k * (blockBin H d e b .ch1 j).im⟩ := by
  apply toC_injective
  rw [toC_smul, toC_blockBin_smul hu fun n hn => h.captured n (h.P ▸ hn), h.P, blockBin, hu]
  rfl

theorem ScaledBlock.responseSample (n : Nat) :
    (responseSample H d e' b n).re = k * (responseSample H d e b n).re := by
  have ht : transferBin H d e' b = fun j => ⟨k * (transferBin H d e b j).re, k * (transferBin H d e b j).im⟩ := by
    funext j
    simp only [transferBin, h.divFloor, h.blockBin_reference, h.blockBin_captured hu, hu, exact_binQuotient_smul]
  rw [Machine.responseSample, ht, h.P, hu, exactNum_idft, exactIdft_smul, Machine.responseSample, hu, exactNum_idft]

theorem ScaledBlock.blockForced : blockForced H d e' b = blockForced H d e b := by
  simp only [Machine.blockForced, forcedCount, h.P, h.divFloor, h.blockBin_reference, h.blockBin_captured hu, hu,
    exact_binForced_smul]

end

/-- Settles O59: the response of every block is scaled, hence their mean; the peak of the mean and the forced bins are not
moved. -/
theorem exactScaleInvariance : Obligations.ExactScaleInvariance := by
  rintro H d e e' k ⟨u, hu⟩ h hk hperiod hrate hlen hfloor hsamples
  have hP : e'.P = e.P := congrArg BitVec.toNat hperiod
  have hb : e'.blocks = e.blocks := blocks_eq hP hlen
  have hblock : ∀ b ∈ List.range e.blocks, ScaledBlock H d k e e' b := fun b hm =>
    have hs := hsamples b (List.mem_range.1 hm)
    ⟨hP, hfloor, fun n hn => (hs n hn).1, fun n hn => (hs n hn).2⟩
  have hmean : averagedResponse H d e' = fun n => k * averagedResponse H d e n := by
    funext n
    rw [exact_averagedResponse hu, exact_averagedResponse hu, hb,
      List.map_congr_left fun b hm => (hblock b hm).responseSample hu n, List.sum_map_mul_left, mul_div_assoc]
  have hidx : peakIndex H.num (averagedResponse H d e') e'.P = peakIndex H.num (averagedResponse H d e) e.P := by
    rw [hmean, hP, hu, exact_peakIndex_smul u hk _ h.1.pos]
  have hforced : (List.range e'.blocks).map (blockForced H d e') = (List.range e.blocks).map (blockForced H d e) := by
    rw [hb]
    exact List.map_congr_left fun b hm => (hblock b hm).blockForced hu
  have h' : EstimateOk H e' := by
    simpa only [EstimateOk, PeriodOk, SRateOk, RecLenOk, DivFloorOk, Sufficient, hP, hrate, hlen, hfloor] using h
  have o := estimateEffect_orderState H d h.1.pos
  have o' := estimateEffect_orderState H d h'.1.pos
  intro t t'
  rw [show t = _ from command_estimate_of_ok d h, show t' = _ from command_estimate_of_ok d h']
  refine ⟨fun n hn => ⟨_, o.res n hn, (o'.res n (hP ▸ hn)).trans (congrArg some (congrFun hmean n))⟩, ?_, ?_, ?_, ?_⟩
  · exact BitVec.eq_of_toNat_eq ((o'.peakIdx.trans hidx).trans o.peakIdx.symm)
  · exact (o'.delayMs.trans (by rw [hidx, hrate])).trans o.delayMs.symm
  · exact (o'.nBlk.trans (by rw [hb])).trans o.nBlk.symm
  · exact BitVec.eq_of_toNat_eq ((o'.degenCnt.trans (by rw [hforced])).trans o.degenCnt.symm)

/-! ### Channel 1 a shifted copy of channel 0 -/

section
variable {H : Params ℝ} {u : Word → ℝ} (hu : H.num = exactNum u) {d : Nat} {e : Engine ℝ} {g : ℝ} {shift : ℤ} {b : Nat}
  (hdeg : ∀ k < e.P, degenerate H.num (H.num.ofF32 e.divFloor) (blockBin H d e b .ch0 k) = false)
include hu hdeg

/-- Where no bin of channel 0 is degenerate, none is forced. -/
theorem exact_blockForced_of_not_degenerate : blockForced H d e b = 0 :=
  List.countP_eq_zero.2 fun k hk => by
    have h := hdeg k (List.mem_range.1 hk)
    rw [hu] at h ⊢
    rw [exact_binForced, h]
    exact Bool.false_ne_true

variable (hshift : ∀ n < e.P,
  blockSample H d e b .ch1 n = g * circularShift e.P shift (blockSample H d e b .ch0) n)
include hshift

/-- The quotient of a shifted copy is the gain times the phase of the shift (R127, R171). -/
theorem exact_transferBin_of_shift {k : Nat} (hk : k < e.P) :
    toC (transferBin H d e b k) = g * shiftPhase e.P shift k := by
  have hd := hdeg k hk
  rw [hu] at hd
  have hz : blockBin H d e b .ch0 k ≠ ⟨0, 0⟩ := fun h0 =>
    absurd ((exact_degenerate_iff u _ _).2 (.inl h0)) (Bool.eq_false_iff.1 hd)
  have hnum : toC (blockBin H d e b .ch1 k) = g * (shiftPhase e.P shift k * toC (blockBin H d e b .ch0 k)) := by
    rw [toC_blockBin_smul hu hshift, blockBin, hu, exactNum_dft, ← toC_exactDft_circularShift (by omega)]
    rfl
  rw [transferBin, hu, binQuotient_of_not_forced (by rw [exact_binForced, hd]; exact Bool.false_ne_true), toC_cdiv u _ _ hz,
    hnum, ← mul_assoc, mul_div_cancel_right₀ _ ((toC_eq_zero_iff _).not.2 hz)]

/-- The response of a block is the gain at the shift and 0 elsewhere. -/
theorem exact_responseSample_of_shift {r n : Nat} (hr : r < e.P) (hrs : (r : ℤ) = shift % (e.P : ℤ)) (hn : n < e.P) :
    (responseSample H d e b n).re = if n = r then g else 0 := by
  have hZ : ∀ k < e.P, toC (transferBin H d e b k) = g * kernel (-1) e.P r k := fun k hk => by
    rw [exact_transferBin_of_shift hu hdeg hshift hk, kernel_eq_shiftPhase (by omega) hrs]
  rw [responseSample, hu, exactNum_idft, exactIdft_shiftKernel hr _ g hZ n hn, apply_ite Cx.re]

end

/-- The peak of an impulse is where it stands. -/
theorem exact_peakIndex_impulse (u : Word → ℝ) {x : Nat → ℝ} {P r : Nat} {g : ℝ} (hg : g ≠ 0) (hr : r < P)
    (hx : ∀ n < P, x n = if n = r then g else 0) : peakIndex (exactNum u) x P = r := by
  by_contra hne
  have hP : 1 ≤ P := by omega
  have hmax := (exact_peakIndex_firstMaximum u x hP).1 r hr
  rw [hx r hr, if_pos rfl, hx _ (peakIndex_lt _ x hP), if_neg hne, abs_zero] at hmax
  exact hg (abs_nonpos_iff.1 hmax)

/-- Settles O58: the response of every block is the same impulse, hence so is their mean, whose peak is the shift. -/
theorem exactDelayAccuracy : Obligations.ExactDelayAccuracy := by
  rintro H d e g shift ⟨u, hu⟩ h hg hdeg hshift
  have hP := h.1.pos
  have hnb : (e.blocks : ℝ) ≠ 0 := Nat.cast_ne_zero.2 (Nat.one_le_iff_ne_zero.1 h.one_le_blocks)
  obtain ⟨r, hr, hrs⟩ := exists_shift_residue hP shift
  have hmean : ∀ n < e.P, averagedResponse H d e n = if n = r then g else 0 := fun n hn => by
    have hmap := List.map_congr_left (l := List.range e.blocks) fun b hm =>
      have hb := List.mem_range.1 hm
      exact_responseSample_of_shift hu (hdeg b hb) (hshift b hb) hr hrs hn
    rw [exact_averagedResponse hu, hmap, List.map_const', List.sum_replicate, List.length_range, nsmul_eq_mul,
      mul_div_cancel_left₀ _ hnb]
  have hidx : peakIndex H.num (averagedResponse H d e) e.P = r := by
    rw [hu, exact_peakIndex_impulse u hg hr hmean]
  have hforced : ((List.range e.blocks).map (blockForced H d e)).sum = 0 :=
    List.sum_eq_zero fun x hx => by
      obtain ⟨b, hm, rfl⟩ := List.mem_map.1 hx
      exact exact_blockForced_of_not_degenerate hu (hdeg b (List.mem_range.1 hm))
  have o := estimateEffect_orderState H d hP
  intro t
  rw [show t = _ from command_estimate_of_ok d h]
  refine ⟨o.err, finish_done _, BitVec.eq_of_toNat_eq (o.degenCnt.trans (by rw [hforced]; rfl)), ?_, fun n hn => ?_⟩
  · rw [← hrs, finish_peakIdx, Nat.cast_inj]
    exact o.peakIdx.trans hidx
  · rw [← hrs]
    simp only [Nat.cast_inj]
    exact (o.res n hn).trans (congrArg some (hmean n hn))

end Sys2Proof.Machine
end

section
/-! PROOFS. Which command raises which fault (60_exceptions.md R245 to R247): a command whose checks fail is its fault entry, one
whose checks pass leaves `ERR` and `ERRCMD` alone, and an illegal word is `IllegalCommand`. -/

namespace Sys2Proof.Machine

/-! ### A command whose checks pass -/

section
variable {ν : Type} {H : Params ν} {e : Engine ν}

/-- No command's write set holds `ERR` or `ERRCMD` (R49). -/
theorem not_written_err (P : Nat) (i : Instr) : ¬Written P i (.csr .err) ∧ ¬Written P i (.csr .errCmd) := by
  cases i <;> simp [Written]

theorem effectOf_err (d : Nat) {i : Instr} (hf : faultOf H e i = none) : (effectOf H d i e).err = e.err :=
  (effectOf_frame d hf).pieces (.csr .err) (by simp) (not_written_err e.P i).1

theorem effectOf_errCmd (d : Nat) {i : Instr} (hf : faultOf H e i = none) : (effectOf H d i e).errCmd = e.errCmd :=
  (effectOf_frame d hf).pieces (.csr .errCmd) (by simp) (not_written_err e.P i).2

end

/-! ### An illegal word -/

/-- A word that is not legal does not decode (R95, R96). -/
theorem decode_of_not_legal {w : Word} (h : WellFormed.legal w = false) : ∃ r, decode w = .error r := by
  cases hd : decode w with
  | error r => exact ⟨r, rfl⟩
  | ok i => exact absurd ((legalWordsDecode w).2 ⟨i, hd⟩) (Bool.eq_false_iff.1 h)

theorem engineMove_of_illegal {s : State} (hb : s.busy = true) (hl : WellFormed.legal s.cmdLatch = false) :
    engineMove s = .next { s with toEngine := raise .illegalCommand s.toEngine } := by
  obtain ⟨r, hd⟩ := decode_of_not_legal hl
  simp only [engineMove, fetch, hb, hd, if_true, execIllegal, onEngine]

/-- Settles O11: a failed check is the fault entry, the effect writes neither `ERR` nor `ERRCMD`, and the engine's move on an
illegal word makes no check. -/
theorem faultTable : Obligations.FaultTable := by
  refine fun i s => ⟨fun f hf => exec_faultEntry hf, fun hf => ?_, fun rest hs hb hl => ?_⟩
  · exact ⟨_, exec_of_none hf, finish_busy _, finish_done _, effectOf_err s.draws hf, effectOf_errCmd s.draws hf, rfl, rfl, rfl⟩
  · exact ⟨_, (step_eq_engineMove hb hs).trans (engineMove_of_illegal hb hl), raise_faultEntry _ _, rfl, rfl⟩

end Sys2Proof.Machine
end

section
/-! PROOFS. Every accepted command completes (70_reset_and_hazards.md R291): each step takes one move off the script, and the step
after the last one is the engine's, which leaves it idle. -/

namespace Sys2Proof.Machine

/-- With nothing scheduled a step completes the command in progress, if there is one (R283). -/
theorem step_of_unscheduled {s t : State} (hs : s.script = []) (h : step s = .next t) : t.script = [] ∧ t.busy = false := by
  refine ⟨by rw [step_script h, hs, List.tail_nil], ?_⟩
  cases hb : s.busy with
  | false =>
    rw [step_of_idle hb hs] at h
    cases h
    exact hb
  | true =>
    obtain ⟨u, hu, hidle, -⟩ := engineMove_next { s with script := [], draws := s.draws + 1 }
    rw [step_eq_engineMove hb (.inr ⟨hs, rfl⟩), hu] at h
    cases h
    exact hidle

theorem runSteps_succ_eq_some {n : Nat} {s t : State} :
    runSteps (n + 1) s = some t ↔ ∃ u, step s = .next u ∧ runSteps n u = some t := by
  rw [runSteps]
  cases step s <;> simp

/-- Settles O7, by induction on the script. -/
theorem acceptedCommandCompletes : Obligations.AcceptedCommandCompletes := by
  intro s t h
  induction hs : s.script generalizing s with
  | nil =>
    rw [hs] at h
    obtain ⟨u, hu, hut⟩ := runSteps_succ_eq_some.1 h
    cases hut
    exact step_of_unscheduled hs hu
  | cons a rest ih =>
    rw [hs] at h
    obtain ⟨u, hu, hut⟩ := runSteps_succ_eq_some.1 h
    have hrest : u.script = rest := by rw [step_script hu, hs, List.tail_cons]
    exact ih u (by rwa [hrest]) hrest

end Sys2Proof.Machine
end

section
/-! PROOFS. The host's writes that a busy engine drops, and soft reset, idle and busy (70_reset_and_hazards.md R281, R284). -/

namespace Sys2Proof.Machine

/-! ### Dropped writes -/

/-- The step of a write that is dropped: only `REJ` changes, and nothing is answered (R284). -/
theorem step_dropped {s : State} {a : HostAction NumVal} {rest : List (Event NumVal)} (h : s.script = .host a :: rest)
    (ha : actionExists Config.params a = true) (he : actionEffect Config.params a s.toEngine = reject s.toEngine)
    (hr : actionReply Config.params (s.draws + 1) s.toEngine a = .none) :
    ∃ t, step s = .next t ∧ Frame (fun _ => False) s.toEngine t.toEngine ∧ t.rej = true ∧
      (∀ n, n ≠ 2 → t.status.getLsbD n = s.status.getLsbD n) ∧ t.reply = s.reply ∧ t.script = rest :=
  ⟨_, step_host h ha he, reject_frame _ _, reject_rej _, fun _ hn => getLsbD_reject _ hn, by rw [hr]; rfl, rfl⟩

/-- Settles O34: each of these writes is `whenIdle` of its effect, or a write to `CMD`, which a busy engine drops too. -/
theorem busyWritesDropped : Obligations.BusyWritesDropped := by
  intro s a rest hs hb ha hw
  rcases hw with ⟨r, w, rfl, hr⟩ | ⟨i, c, w, rfl⟩ | ⟨j, k, z, rfl⟩ | ⟨n, x, rfl⟩ | ⟨n, x, rfl⟩
  · refine step_dropped hs ha ?_ rfl
    by_cases hcmd : r = .cmd
    · subst hcmd
      exact writeCmd_of_dropped w (.inl hb)
    · have hcfg : IsConfig r := by simpa only [IsConfig, hcmd, or_false] using hr
      exact (writeSlot_config Config.params hcfg w s.toEngine).trans (whenIdle_of_busy _ hb)
  · exact step_dropped hs ha (whenIdle_of_busy (memWrite (sampleAddr i c) w) hb) rfl
  · exact step_dropped hs ha (whenIdle_of_busy (storeVec j k z) hb) rfl
  · exact step_dropped hs ha (whenIdle_of_busy (storeAcc n x) hb) rfl
  · exact step_dropped hs ha (whenIdle_of_busy (storeRes n x) hb) rfl

/-! ### Soft reset -/

section
variable {ν : Type} (H : Params ν) (e : Engine ν)

@[simp] theorem softReset_readSlot (i : Slot) : readSlot (softReset H e) i = 0#32 := by cases i <;> rfl

@[simp] theorem softReset_busy : (softReset H e).busy = false := reset_busy H.num.zero

theorem writeCtrl_of_softReset {w : Word} (hw : w.getLsbD 31 = true) : writeCtrl H w e = softReset H e := by
  rw [writeCtrl, if_pos hw]

variable {e}

/-- A soft reset that discards no write keeps the buffers (R281). -/
theorem softReset_buffers (h : ∀ p, discarded e p = false) :
    (∀ j, (softReset H e).vreg j = e.vreg j) ∧ (softReset H e).acc = e.acc ∧ (softReset H e).res = e.res :=
  ⟨fun j => (softReset_vreg H e j).trans (forget_none (fun k => h (.vec j k)) _), forget_none (fun n => h (.acc n)) _,
    forget_none (fun n => h (.res n)) _⟩

end

/-- Settles O37: what is discarded is nothing when idle or when the word is illegal, and the write set of the latched command
when it is legal. -/
theorem softReset_spec : Obligations.SoftReset := by
  intro s w rest hs hw
  refine ⟨_, step_host hs rfl (writeCtrl_of_softReset Config.params s.toEngine hw), softReset_readSlot _ _, rfl,
    softReset_busy _ _, rfl, fun hb => softReset_buffers _ (discarded_of_idle hb), fun hb i hd => ?_, fun _ hl => ?_⟩
  · have hdis : ∀ p, discarded s.toEngine p = mayWrite s.P i p := discarded_of_legal hb hd
    refine ⟨fun j k => ?_, fun n => ?_, fun n => ?_⟩
    · rw [softReset_vreg, lookup_forget, hdis]
    · rw [softReset_acc, lookup_forget, hdis]
    · rw [softReset_res, lookup_forget, hdis]
  · obtain ⟨r, hd⟩ := decode_of_not_legal hl
    exact softReset_buffers _ (discarded_of_illegal hd)

end Sys2Proof.Machine
end
